-- ==== Sys2Proof/Word.lean ====
section
/-! DEFINITION. The word types of the block and its two ports (spec/00_scope.md R5, spec/20_memory.md R40). -/

namespace Sys2Proof

/-- A byte: 8 bits (R5). -/
abbrev Byte := BitVec 8

/-- A 6-bit group: one alphabet index, one valid data character (R5, glossary). -/
abbrev Sextet := BitVec 6

/-- A token: 10 bits on an input or output port (R5, R60, R61). -/
abbrev Token := BitVec 10

/-- The two input ports (R40). The same token is a different instruction on each (R60). -/
inductive Port where
  | encIn
  | decIn
  deriving DecidableEq, Repr

end Sys2Proof
end

