-- ==== Sys2Proof/Syntax.lean ====
section
/-! DEFINITION. The sixteen instructions of the opcode map (spec/30_encoding.md R67, spec/opcode_table.json), one
constructor a row. The `data` bits of START and END are ignored by every rule (R60, R68 (e)); they are kept as an
operand so that an instruction stands for exactly one token. -/

namespace Sys2Proof

/-- The instructions. `b` and `c` are the token's data byte; a decoder class of one byte has no operand. -/
inductive Instr where
  | encStart (ignored : Byte)
  | encData (b : Byte)
  | encEnd (ignored : Byte)
  | decStart (ignored : Byte)
  | decUpper (c : Byte)
  | decLower (c : Byte)
  | decDigit (c : Byte)
  | decPlus
  | decMinus
  | decSlash
  | decUnder
  | decCr
  | decLf
  | decPad
  | decInvalid (c : Byte)
  | decEnd (ignored : Byte)
  deriving DecidableEq, Repr

/-- The input port an instruction arrives on (R67, first column). -/
def Instr.port : Instr → Port
  | .encStart _ => .encIn
  | .encData _ => .encIn
  | .encEnd _ => .encIn
  | .decStart _ => .decIn
  | .decUpper _ => .decIn
  | .decLower _ => .decIn
  | .decDigit _ => .decIn
  | .decPlus => .decIn
  | .decMinus => .decIn
  | .decSlash => .decIn
  | .decUnder => .decIn
  | .decCr => .decIn
  | .decLf => .decIn
  | .decPad => .decIn
  | .decInvalid _ => .decIn
  | .decEnd _ => .decIn

end Sys2Proof
end

