-- ==== Sys2Proof/WellFormed.lean ====
section
/-! DEFINITION. Which instruction terms the encoding admits: the byte ranges of the classes (spec/30_encoding.md
R64). Only the four instructions whose operand is a byte of a class of more than one byte have a check. -/

namespace Sys2Proof

/-- `lo <= c <= hi`, unsigned. -/
def inByteRange (lo hi c : Byte) : Bool := decide (lo ≤ c) && decide (c ≤ hi)

/-- The 187 byte values of class INVALID, as R64's last row lists them. -/
def isListedInvalid (c : Byte) : Bool :=
  inByteRange 0x00 0x09 c || inByteRange 0x0B 0x0C c || inByteRange 0x0E 0x2A c || inByteRange 0x2C 0x2C c ||
  inByteRange 0x2E 0x2E c || inByteRange 0x3A 0x3C c || inByteRange 0x3E 0x40 c || inByteRange 0x5B 0x5E c ||
  inByteRange 0x60 0x60 c || inByteRange 0x7B 0xFF c

/-- The instruction's operand is a byte of its class (R64). Every operand of the other instructions is admitted. -/
def Instr.wf : Instr → Bool
  | .encStart _ => true
  | .encData _ => true
  | .encEnd _ => true
  | .decStart _ => true
  | .decUpper c => inByteRange 0x41 0x5A c
  | .decLower c => inByteRange 0x61 0x7A c
  | .decDigit c => inByteRange 0x30 0x39 c
  | .decPlus => true
  | .decMinus => true
  | .decSlash => true
  | .decUnder => true
  | .decCr => true
  | .decLf => true
  | .decPad => true
  | .decInvalid c => isListedInvalid c
  | .decEnd _ => true

end Sys2Proof
end

