-- ==== Sys2Proof/Decode.lean ====
section
/-! DEFINITION. The decoder and the encoder of the sixteen tokens, from the patterns of spec/30_encoding.md R67 (their
mask and match values are those of spec/opcode_table.json), and the decoder's class table of spec/10_state.md R26. -/

namespace Sys2Proof

/-- Why a token is no instruction. -/
inductive DecodeError where
  /-- Kind `11`, reserved on both ports (R60, R68 (a)). -/
  | reservedKind
  deriving DecidableEq, Repr

/-- `kind` = bits `[9:8]` (R60). -/
def tokenKind (w : Token) : BitVec 2 := w.extractLsb' 8 2

/-- `data` = bits `[7:0]` (R60). -/
def tokenData (w : Token) : Byte := w.extractLsb' 0 8

/-- The token `{kind, data}` (R60). -/
def mkToken (kind : BitVec 2) (data : Byte) : Token := kind ++ data

/-- A row of the opcode map matches: the bits under the mask have the pattern's values (R67). -/
def matchesRow (mask pattern w : Token) : Bool := w &&& mask == pattern

/-- The rows of `enc_in` (R67). -/
def decodeEncIn (w : Token) : Except DecodeError Instr :=
  if matchesRow 0x300 0x000 w then .ok (.encStart (tokenData w))
  else if matchesRow 0x300 0x100 w then .ok (.encData (tokenData w))
  else if matchesRow 0x300 0x200 w then .ok (.encEnd (tokenData w))
  else .error .reservedKind

/-- The field `u` = bits `[4:0]` satisfies `1 <= u <= 26` (R67, DEC.UPPER and DEC.LOWER). -/
def letterField (w : Token) : Bool := decide (1 ≤ w &&& 0x01F) && decide (w &&& 0x01F ≤ 26)

/-- The field `d` = bits `[3:0]` satisfies `d <= 9` (R67, DEC.DIGIT). -/
def digitField (w : Token) : Bool := decide (w &&& 0x00F ≤ 9)

/-- The rows of `dec_in` (R67); DEC.INVALID is the row of lowest priority. -/
def decodeDecIn (w : Token) : Except DecodeError Instr :=
  if matchesRow 0x300 0x000 w then .ok (.decStart (tokenData w))
  else if matchesRow 0x3E0 0x140 w && letterField w then .ok (.decUpper (tokenData w))
  else if matchesRow 0x3E0 0x160 w && letterField w then .ok (.decLower (tokenData w))
  else if matchesRow 0x3F0 0x130 w && digitField w then .ok (.decDigit (tokenData w))
  else if matchesRow 0x3FF 0x12B w then .ok .decPlus
  else if matchesRow 0x3FF 0x12D w then .ok .decMinus
  else if matchesRow 0x3FF 0x12F w then .ok .decSlash
  else if matchesRow 0x3FF 0x15F w then .ok .decUnder
  else if matchesRow 0x3FF 0x10D w then .ok .decCr
  else if matchesRow 0x3FF 0x10A w then .ok .decLf
  else if matchesRow 0x3FF 0x13D w then .ok .decPad
  else if matchesRow 0x300 0x100 w then .ok (.decInvalid (tokenData w))
  else if matchesRow 0x300 0x200 w then .ok (.decEnd (tokenData w))
  else .error .reservedKind

/-- The instruction a token is on the port it arrives on (R60, R67). Total; the only rejection is the reserved kind. -/
def decode : Port → Token → Except DecodeError Instr
  | .encIn, w => decodeEncIn w
  | .decIn, w => decodeDecIn w

/-- The token of an instruction (R60, R67, R70). -/
def encode : Instr → Token
  | .encStart ignored => mkToken 0b00 ignored
  | .encData b => mkToken 0b01 b
  | .encEnd ignored => mkToken 0b10 ignored
  | .decStart ignored => mkToken 0b00 ignored
  | .decUpper c => mkToken 0b01 c
  | .decLower c => mkToken 0b01 c
  | .decDigit c => mkToken 0b01 c
  | .decPlus => mkToken 0b01 0x2B
  | .decMinus => mkToken 0b01 0x2D
  | .decSlash => mkToken 0b01 0x2F
  | .decUnder => mkToken 0b01 0x5F
  | .decCr => mkToken 0b01 0x0D
  | .decLf => mkToken 0b01 0x0A
  | .decPad => mkToken 0b01 0x3D
  | .decInvalid c => mkToken 0b01 c
  | .decEnd ignored => mkToken 0b10 ignored

/-- An entry of the class table `DCLASS` (R26). -/
inductive DClass where
  | value (v : Sextet)
  | skip
  | pad
  | invalid
  deriving DecidableEq, Repr

/-- The class table `DCLASS` of R26, entry by entry as the rule prints its contents. Derived data, not state; the spec
allows it in place of R64's ranges. -/
def dclass (b : Byte) : DClass :=
  if b = 0x0A then .skip
  else if b = 0x0D then .skip
  else if b = 0x2B then .value 62
  else if b = 0x2D then .value 62
  else if b = 0x2F then .value 63
  else if 0x30 ≤ b ∧ b ≤ 0x39 then .value (52 + (b - 0x30).setWidth 6)
  else if b = 0x3D then .pad
  else if 0x41 ≤ b ∧ b ≤ 0x5A then .value ((b - 0x41).setWidth 6)
  else if b = 0x5F then .value 63
  else if 0x61 ≤ b ∧ b ≤ 0x7A then .value (26 + (b - 0x61).setWidth 6)
  else .invalid

/-- The port a table word stands for. The rows of spec/opcode_table.json give a token's ten bits and name the port
beside them, so the number alone does not say which port is meant. DESIGN CHOICE (log 8): the six bits above the token
say it, `000001` for `enc_in` and anything else for `dec_in`. -/
def tableWordPort (nbits w : Nat) : Port :=
  if w % 2 ^ nbits / 1024 = 1 then .encIn else .decIn

/-- The token of a table word: its low ten bits (R60). -/
def tableWordToken (nbits w : Nat) : Token := BitVec.ofNat 10 (w % 2 ^ nbits)

/-- The instruction the decoder reads from a table word (log 8 for the port). -/
def decodeTableWord (nbits w : Nat) : Option Instr :=
  match decode (tableWordPort nbits w) (tableWordToken nbits w) with
  | .ok i => some i
  | .error _ => none

end Sys2Proof
end

