-- ==== Sys2Proof/Config.lean ====
section
/-! DEFINITION. The implementation parameters (spec/00_scope.md R4). The spec leaves no other value to the
implementation and no result of a step open, so there is no free value here. -/

namespace Sys2Proof

/-- The two parameters of an instance of the block (R4): `lw`, the width of the wrap-length field, and `pw`, the
width of the decoder's position counter. They are plain data so that a claim can be about every value of them. -/
structure Params where
  lw : Nat
  pw : Nat
  deriving DecidableEq, Repr

/-- What R4 requires of the parameters: `LW >= 7`, so that the MIME preset's length 76 fits, and `PW >= 1`. -/
def Params.wf (p : Params) : Bool := decide (7 ≤ p.lw) && decide (1 ≤ p.pw)

/-- The default values of R4. -/
def Params.default : Params := { lw := 16, pw := 32 }

end Sys2Proof
end

