-- ==== Sys2Proof/Machine/State.lean ====
section
/-! DEFINITION. The state of the block: the five registers of ENC, the seven of DEC (spec/10_state.md R11 to R22), the
port level and the streams a step reads or appends to (R30, spec/20_memory.md R40), and the reasons a step stops.
Plain data. -/

namespace Sys2Proof.Machine

/-- `ENC_ST` (R11). Code 3 is never reached and is not a value here (log 7). -/
inductive EncSt where
  | idle
  | run
  | done
  deriving DecidableEq, Repr

/-- `ENC_BCNT` (R14): 0, 1 or 2 bytes held. Value 3 is never reached and is not a value here (log 7). -/
inductive ByteCount where
  | zero
  | one
  | two
  deriving DecidableEq, Repr

/-- `DEC_ST` (R16). Codes 5 to 7 are never reached and are not values here (log 7). -/
inductive DecSt where
  | idle
  | accumulating
  | terminatedByPad
  | failed
  | done
  deriving DecidableEq, Repr

/-- `DEC_STATUS` and the code of a STATUS token (R20, R61). -/
inductive DecStatus where
  | none
  | ok
  | invalidByte
  | invalidLength
  deriving DecidableEq, Repr

/-- The registers of ENC (R11 to R15), `lw` being the parameter LW. `cfg` is the configuration word of R62. -/
structure EncRegs (lw : Nat) where
  st : EncSt
  cfg : BitVec (4 + lw)
  acc : BitVec 24
  bcnt : ByteCount
  lcnt : BitVec (lw + 1)
  deriving DecidableEq, Repr

/-- The registers of DEC (R16 to R22), `pw` being the parameter PW. -/
structure DecRegs (pw : Nat) where
  st : DecSt
  acc : BitVec 32
  mod : BitVec 2
  pos : BitVec pw
  status : DecStatus
  errByte : Byte
  errPos : BitVec pw
  deriving DecidableEq, Repr

/-- An output token of `enc_out` (R61): CHAR(c) or END. -/
inductive EncOut where
  | char (c : Byte)
  | finish
  deriving DecidableEq, Repr

/-- An output token of `dec_out` (R61): BYTE(b) or STATUS(code). -/
inductive DecOut where
  | byte (b : Byte)
  | status (code : DecStatus)
  deriving DecidableEq, Repr

/-- One thing the host does to the block (R8, R164, R170): delivers a token on an input port, which the unit consumes;
changes the level on `enc_cfg_i`; applies `rst`. -/
inductive HostEvent (lw : Nat) where
  | encToken (w : Token)
  | decToken (w : Token)
  | driveCfg (cfg : BitVec (4 + lw))
  | rst
  deriving DecidableEq, Repr

/-- The block has no trap and no fault (R150, R154, R160): what stops it is a refusal (log 9). -/
inductive Fault where
  deriving DecidableEq, Repr

/-- The reasons a step is refused (R150, R160). Each is safe: no next state, so no claim about one. -/
inductive Refusal where
  /-- Raised by exec for an instruction with no meaning yet. No arm does. Safe. -/
  | notModelled (mnemonic : String)
  /-- Raised by the meanings: a legal token in a state that does not accept it (R68 (g), R160). Safe. -/
  | protocolViolation
  /-- Raised by step: a token of kind `11` (R68 (a), R160). Safe. -/
  | reservedToken
  /-- Raised by ENC.START: WRAP_EN = 1 and WRAP_LEN = 0 on `enc_cfg_i` (R68 (d), R80, R160). Safe. -/
  | illegalConfiguration
  /-- Raised by a DATA token in a scanning state with `DEC_POS` = `2^PW - 1` (R19, R115, R160). Safe. -/
  | positionOverflow
  deriving DecidableEq, Repr

/-- The whole state: `params` is the instance's LW and PW, which no step writes (R4, log 1); `enc` and `dec` are the two
units' registers (R10); `encCfgI` is the level on `enc_cfg_i` (R30 (a)); `encOut` and `decOut` are the output streams, in
order (R42); `host` is what the host does from now on, in order (R41, R52, log 2). -/
structure State where
  params : Params
  enc : EncRegs params.lw
  dec : DecRegs params.pw
  encCfgI : BitVec (4 + params.lw)
  encOut : List EncOut
  decOut : List DecOut
  host : List (HostEvent params.lw)
  deriving DecidableEq, Repr

/-- The reset values of ENC (R31). -/
def EncRegs.reset (lw : Nat) : EncRegs lw :=
  { st := .idle, cfg := 0, acc := 0, bcnt := .zero, lcnt := 0 }

/-- The reset values of DEC (R31). -/
def DecRegs.reset (pw : Nat) : DecRegs pw :=
  { st := .idle, acc := 0, mod := 0, pos := 0, status := .none, errByte := 0, errPos := 0 }

/-- An instance with parameters `p` right after reset: the registers of R31; no token received or sent, the port level
0 (DESIGN CHOICE, log 4), no host event yet (log 2). -/
def State.resetWith (p : Params) : State :=
  { params := p, enc := EncRegs.reset p.lw, dec := DecRegs.reset p.pw, encCfgI := 0, encOut := [], decOut := [],
    host := [] }

/-- The machine right after reset, at the default parameters of R4. -/
def State.reset : State := State.resetWith Params.default

end Sys2Proof.Machine
end

