-- ==== Sys2Proof/Machine/Operands.lean ====
section
/-! DEFINITION. Operand assembly: the configuration word's fields and presets (spec/30_encoding.md R62, R63), the two
alphabet ROMs (spec/10_state.md R24), the encoder's ROM indices (R66), the decoder's values (R65), and the formats of the
output tokens (R61). -/

namespace Sys2Proof.Machine

/-! ### The configuration word (R62) -/

/-- ALPHA = bit 0: false is the Standard alphabet, true the URL-safe one. -/
def cfgAlpha {lw : Nat} (cfg : BitVec (4 + lw)) : Bool := cfg.getLsbD 0

/-- NL = bit 1: false is LF, true is CRLF. -/
def cfgNl {lw : Nat} (cfg : BitVec (4 + lw)) : Bool := cfg.getLsbD 1

/-- PAD = bit 2. -/
def cfgPad {lw : Nat} (cfg : BitVec (4 + lw)) : Bool := cfg.getLsbD 2

/-- WRAP_EN = bit 3. -/
def cfgWrapEn {lw : Nat} (cfg : BitVec (4 + lw)) : Bool := cfg.getLsbD 3

/-- WRAP_LEN = bits `[3+LW:4]`. -/
def cfgWrapLen {lw : Nat} (cfg : BitVec (4 + lw)) : BitVec lw := cfg.extractLsb' 4 lw

/-- Every word is legal but one with WRAP_EN = 1 and WRAP_LEN = 0 (R62, R68 (d)). -/
def cfgLegal {lw : Nat} (cfg : BitVec (4 + lw)) : Bool := !(cfgWrapEn cfg && cfgWrapLen cfg == 0)

/-- The word with the given fields (R62). -/
def cfgWord {lw : Nat} (alpha nl pad wrapEn : Bool) (wrapLen : BitVec lw) : BitVec (4 + lw) :=
  (BitVec.ofBool alpha).setWidth (4 + lw) ||| ((BitVec.ofBool nl).setWidth (4 + lw) <<< 1) |||
  ((BitVec.ofBool pad).setWidth (4 + lw) <<< 2) ||| ((BitVec.ofBool wrapEn).setWidth (4 + lw) <<< 3) |||
  (wrapLen.setWidth (4 + lw) <<< 4)

/-- Preset STANDARD (R63): Standard alphabet, CRLF, padded, no wrap. -/
def presetStandard (lw : Nat) : BitVec (4 + lw) := cfgWord false true true false 0

/-- Preset URL_SAFE (R63): URL-safe alphabet, CRLF, unpadded, no wrap. -/
def presetUrlSafe (lw : Nat) : BitVec (4 + lw) := cfgWord true true false false 0

/-- Preset MIME (R63): CRLF, padded, wrap at 76; the Standard alphabet is the spec's decision D22. -/
def presetMime (lw : Nat) : BitVec (4 + lw) := cfgWord false true true true 76

/-! ### The alphabet ROMs (R24) -/

/-- Entries 0 to 61, the same in both ROMs: `A` to `Z`, `a` to `z`, `0` to `9`. -/
def romCommon : List Byte :=
  [0x41, 0x42, 0x43, 0x44, 0x45, 0x46, 0x47, 0x48, 0x49, 0x4A, 0x4B, 0x4C, 0x4D] ++
  [0x4E, 0x4F, 0x50, 0x51, 0x52, 0x53, 0x54, 0x55, 0x56, 0x57, 0x58, 0x59, 0x5A] ++
  [0x61, 0x62, 0x63, 0x64, 0x65, 0x66, 0x67, 0x68, 0x69, 0x6A, 0x6B, 0x6C, 0x6D] ++
  [0x6E, 0x6F, 0x70, 0x71, 0x72, 0x73, 0x74, 0x75, 0x76, 0x77, 0x78, 0x79, 0x7A] ++
  [0x30, 0x31, 0x32, 0x33, 0x34, 0x35, 0x36, 0x37, 0x38, 0x39]

/-- ROM `STD`: `+` and `/` at 62 and 63. -/
def romStd : List Byte := romCommon ++ [0x2B, 0x2F]

/-- ROM `URL`: `-` and `_` at 62 and 63. -/
def romUrl : List Byte := romCommon ++ [0x2D, 0x5F]

/-- `A[i]`: entry `i` of the ROM that ALPHA selects (R7, R24). Both ROMs have 64 entries, so the index is always in
range. -/
def romRead (alpha : Bool) (i : Sextet) : Byte := (if alpha then romUrl else romStd).getD i.toNat 0

/-! ### The encoder's ROM indices (R43, R66) -/

/-- `n[23:18]`. -/
def sextet0 (n : BitVec 24) : Sextet := n.extractLsb' 18 6

/-- `n[17:12]`. -/
def sextet1 (n : BitVec 24) : Sextet := n.extractLsb' 12 6

/-- `n[11:6]`. -/
def sextet2 (n : BitVec 24) : Sextet := n.extractLsb' 6 6

/-- `n[5:0]`. -/
def sextet3 (n : BitVec 24) : Sextet := n.extractLsb' 0 6

/-! ### The decoder's 6-bit values (R65) -/

/-- UPPER: `c - 0x41`. -/
def upperValue (c : Byte) : Sextet := (c - 0x41).setWidth 6

/-- LOWER: `c - 0x47`. -/
def lowerValue (c : Byte) : Sextet := (c - 0x47).setWidth 6

/-- DIGIT: `c + 0x04`. -/
def digitValue (c : Byte) : Sextet := (c + 0x04).setWidth 6

/-- PLUS and MINUS. -/
def plusValue : Sextet := 62

/-- SLASH and UNDER. -/
def slashValue : Sextet := 63

/-! ### Output token formats (R61) -/

/-- The code of `DEC_STATUS` and of a STATUS token (R20, R61). -/
def statusCode : DecStatus → BitVec 2
  | .none => 0
  | .ok => 1
  | .invalidByte => 2
  | .invalidLength => 3

/-- The ten bits of a token of `enc_out`: kind 01 with the character, kind 10 with data 0. -/
def encOutBits : EncOut → Token
  | .char c => (0b01#2 ++ c : BitVec (2 + 8))
  | .finish => 0x200

/-- The ten bits of a token of `dec_out`: kind 01 with the byte, kind 10 with `data[1:0]` the code. -/
def decOutBits : DecOut → Token
  | .byte b => (0b01#2 ++ b : BitVec (2 + 8))
  | .status code => (0b10#2 ++ (0#6 ++ statusCode code : BitVec (6 + 2)) : BitVec (2 + 8))

end Sys2Proof.Machine
end

