-- ==== Sys2Proof/Machine/Flags.lean ====
section
/-! DEFINITION. The block has no condition codes and no arithmetic flags (spec/10_state.md R23). What stands in their
place is the status the host can read: the five status ports and the busy conditions. Reading has no effect (R48). -/

namespace Sys2Proof.Machine

/-- `enc_st_o`: the code of `ENC_ST` (R11, R23). -/
def encStPort (s : State) : BitVec 2 :=
  match s.enc.st with
  | .idle => 0
  | .run => 1
  | .done => 2

/-- The code of `ENC_BCNT` (R14): the number of bytes held. Not on a port. -/
def byteCountCode : ByteCount → BitVec 2
  | .zero => 0
  | .one => 1
  | .two => 2

/-- `dec_st_o`: the code of `DEC_ST` (R16, R23). -/
def decStPort (s : State) : BitVec 3 :=
  match s.dec.st with
  | .idle => 0
  | .accumulating => 1
  | .terminatedByPad => 2
  | .failed => 3
  | .done => 4

/-- `dec_status_o`: the code of `DEC_STATUS` (R20, R23). -/
def decStatusPort (s : State) : BitVec 2 := statusCode s.dec.status

/-- `dec_err_byte_o` (R21, R23). -/
def decErrBytePort (s : State) : Byte := s.dec.errByte

/-- `dec_err_pos_o` (R22, R23). -/
def decErrPosPort (s : State) : BitVec s.params.pw := s.dec.errPos

/-- "Encoder busy" (R23). -/
def encBusy (s : State) : Bool := s.enc.st == .run

/-- "Decoder busy" (R23). -/
def decBusy (s : State) : Bool := s.dec.st == .accumulating || s.dec.st == .terminatedByPad || s.dec.st == .failed

end Sys2Proof.Machine
end

