-- ==== Sys2Proof/Machine/Ops.lean ====
section
/-! DEFINITION. The shared operations the meanings are written with: committing a unit's step (spec/00_scope.md R8), the
encoder's helpers (spec/40_encoder.md R83, R84), the decoder's helpers (spec/41_decoder.md R101, R115), and the two error
actions, the block's form of taking an exception (R114, spec/60_exceptions.md R154). The block has no addressable memory
(R40), so there is no memory operation. -/

namespace Sys2Proof.Machine

/-- What a step of ENC computes from its registers: a refusal, or the next registers and the ordered output list (R8). -/
abbrev EncResult (lw : Nat) := Except Refusal (EncRegs lw × List EncOut)

/-- What a step of DEC computes from its registers (R8). -/
abbrev DecResult (pw : Nat) := Except Refusal (DecRegs pw × List DecOut)

/-- ENC's registers replaced, and `out` appended to `enc_out` (R42). Nothing else changes. -/
def State.putEnc (s : State) (r : EncRegs s.params.lw) (out : List EncOut) : State :=
  { s with enc := r, encOut := s.encOut ++ out }

/-- DEC's registers replaced, and `out` appended to `dec_out` (R42). Nothing else changes. -/
def State.putDec (s : State) (r : DecRegs s.params.pw) (out : List DecOut) : State :=
  { s with dec := r, decOut := s.decOut ++ out }

/-- One step of ENC, atomic (R8, R48): it reads and writes ENC's part of the state only (R10, R52). -/
def runEnc (s : State) (f : EncRegs s.params.lw → EncResult s.params.lw) : Host.Outcome State Fault Refusal :=
  match f s.enc with
  | .ok (r, out) => .next (s.putEnc r out)
  | .error why => .refused why

/-- One step of DEC, atomic (R8, R48): it reads and writes DEC's part of the state only (R10, R52). -/
def runDec (s : State) (f : DecRegs s.params.pw → DecResult s.params.pw) : Host.Outcome State Fault Refusal :=
  match f s.dec with
  | .ok (r, out) => .next (s.putDec r out)
  | .error why => .refused why

/-! ### The encoder's helpers -/

/-- `CHAR(A[i])`, the ROM being the one the latched configuration selects (R7, R24). -/
def romChar {lw : Nat} (cfg : BitVec (4 + lw)) (i : Sextet) : EncOut := .char (romRead (cfgAlpha cfg) i)

/-- The pad character `=` (R25). -/
def padChar : EncOut := .char 0x3D

/-- EmitNewline (R83, R45): CR then LF when NL = 1, else LF. -/
def emitNewline {lw : Nat} (cfg : BitVec (4 + lw)) : List EncOut :=
  if cfgNl cfg then [.char 0x0D, .char 0x0A] else [.char 0x0A]

/-- The condition of WrapCheck (R84): wrapping enabled, and the line count has reached or passed the wrap length, an
unsigned comparison in `LW + 1` bits. -/
def wrapDue {lw : Nat} (r : EncRegs lw) : Bool :=
  cfgWrapEn r.cfg && decide ((cfgWrapLen r.cfg).setWidth (lw + 1) ≤ r.lcnt)

/-- WrapCheck (R84): when due, the newline sequence is emitted and the line count becomes 0. -/
def wrapCheck {lw : Nat} (r : EncRegs lw) : EncRegs lw × List EncOut :=
  if wrapDue r then ({ r with lcnt := 0 }, emitNewline r.cfg) else (r, [])

/-- After a full group: the line count grows by 4 when wrapping is enabled (R81, R15), in `LW + 1` bits. -/
def countGroup {lw : Nat} (r : EncRegs lw) : EncRegs lw :=
  if cfgWrapEn r.cfg then { r with lcnt := r.lcnt + 4 } else r

/-- The pad characters of a tail: `k` of them when PAD = 1, else none (R82, R86). -/
def padding {lw : Nat} (cfg : BitVec (4 + lw)) (k : Nat) : List EncOut :=
  if cfgPad cfg then List.replicate k padChar else []

/-- The characters of the pending tail with its wrap check before them (R82): none for no byte pending. -/
def emitTail {lw : Nat} (r : EncRegs lw) : List EncOut :=
  match r.bcnt with
  | .zero => []
  | .one =>
    (wrapCheck r).2 ++ [romChar r.cfg (sextet0 r.acc), romChar r.cfg (sextet1 r.acc)] ++ padding r.cfg 2
  | .two =>
    (wrapCheck r).2 ++
      [romChar r.cfg (sextet0 r.acc), romChar r.cfg (sextet1 r.acc), romChar r.cfg (sextet2 r.acc)] ++
      padding r.cfg 1

/-! ### The decoder's helpers -/

/-- DataPrologue (R115), the start of every DATA step on `dec_in`: refused in a resting state; no effect in FAILED;
refused at the last position; else the step goes on with `p`, the position of the byte, by the state it is in. -/
def dataPrologue {pw : Nat} (r : DecRegs pw) (inAccumulating inTerminated : BitVec pw → DecRegs pw × List DecOut) :
    DecResult pw :=
  match r.st with
  | .idle => .error .protocolViolation
  | .done => .error .protocolViolation
  | .failed => .ok (r, [])
  | .accumulating => if r.pos = BitVec.allOnes pw then .error .positionOverflow else .ok (inAccumulating r.pos)
  | .terminatedByPad => if r.pos = BitVec.allOnes pw then .error .positionOverflow else .ok (inTerminated r.pos)

/-- Advance (R115): `DEC_POS <- p + 1`. -/
def advance {pw : Nat} (p : BitVec pw) (r : DecRegs pw) : DecRegs pw := { r with pos := p + 1 }

/-- `(DEC_ACC << 6) | zext_32(v)` in 32 bits (R101, R141 (g)). -/
def shiftIn (acc : BitVec 32) (v : Sextet) : BitVec 32 := acc <<< 6 ||| v.setWidth 32

/-- Accumulate(v) (R101): the value is shifted in; the fourth resets the modulus and emits three bytes, most
significant first (R44). The accumulator is not cleared (R17). -/
def accumulate {pw : Nat} (v : Sextet) (r : DecRegs pw) : DecRegs pw × List DecOut :=
  let a := shiftIn r.acc v
  if r.mod = 3 then
    ({ r with acc := a, mod := 0 },
      [.byte (a.extractLsb' 16 8), .byte (a.extractLsb' 8 8), .byte (a.extractLsb' 0 8)])
  else ({ r with acc := a, mod := r.mod + 1 }, [])

/-- `fail_byte(c, p)` (R114, R151, R154), the invalid-byte error: what taking it saves, where it goes, what it emits. -/
def failByte {pw : Nat} (c : Byte) (p : BitVec pw) (r : DecRegs pw) : DecRegs pw × List DecOut :=
  ({ r with status := .invalidByte, errByte := c, errPos := p, st := .failed }, [.status .invalidByte])

/-- `fail_length` (R114, R152, R154), the invalid-length error: no error record. -/
def failLength {pw : Nat} (r : DecRegs pw) : DecRegs pw × List DecOut :=
  ({ r with status := .invalidLength }, [.status .invalidLength])

/-- `DEC_STATUS <- OK; emit STATUS(OK)` after the recovered bytes (R113). -/
def finishOk {pw : Nat} (bytes : List Byte) (r : DecRegs pw) : DecRegs pw × List DecOut :=
  ({ r with status := .ok }, bytes.map .byte ++ [.status .ok])

/-- The finalization by modulus of DEC.END in a scanning state (R113, R47). -/
def finalize {pw : Nat} (r : DecRegs pw) : DecRegs pw × List DecOut :=
  if r.mod = 0 then finishOk [] r
  else if r.mod = 1 then failLength r
  else if r.mod = 2 then finishOk [r.acc.extractLsb' 4 8] r
  else finishOk [r.acc.extractLsb' 10 8, r.acc.extractLsb' 2 8] r

/-- The last four lines of DEC.END, in every state that accepts it (R113). Also the way out of FAILED, the block's
form of returning from an exception (R155): status and error record stay. -/
def closeDec {pw : Nat} (r : DecRegs pw) : DecRegs pw := { r with acc := 0, mod := 0, pos := 0, st := .done }

/-- The seven valid data characters differ only in value and byte (R102 to R108): accumulated in ACCUMULATING, an
invalid byte in TERMINATED_BY_PAD. -/
def dataCharacter {pw : Nat} (v : Sextet) (c : Byte) (r : DecRegs pw) : DecResult pw :=
  dataPrologue r (fun p => (advance p (accumulate v r).1, (accumulate v r).2)) (fun p => failByte c p r)

/-- CR and LF (R109, R110): only the position advances, in either scanning state. -/
def skippedByte {pw : Nat} (r : DecRegs pw) : DecResult pw :=
  dataPrologue r (fun p => (advance p r, [])) (fun p => (advance p r, []))

/-- Reset of both units (R170): every register at its value of R31. The port level belongs to the host, and the tokens
already emitted stay emitted. -/
def State.applyRst (s : State) : State :=
  { s with enc := EncRegs.reset s.params.lw, dec := DecRegs.reset s.params.pw }

end Sys2Proof.Machine
end

