-- ==== Sys2Proof/Machine/DecoderControl.lean ====
section
/-! DEFINITION. The meanings of DEC.START and DEC.END (spec/41_decoder.md R100, R113). -/

namespace Sys2Proof.Machine

/-- DEC.START on DEC's registers (R100): all seven are written. -/
def decStartUnit {pw : Nat} (r : DecRegs pw) : DecResult pw :=
  match r.st with
  | .idle => .ok ({ DecRegs.reset pw with st := .accumulating }, [])
  | .done => .ok ({ DecRegs.reset pw with st := .accumulating }, [])
  | .accumulating => .error .protocolViolation
  | .terminatedByPad => .error .protocolViolation
  | .failed => .error .protocolViolation

/-- DEC.END on DEC's registers (R113): finalized by the modulus in a scanning state, nothing emitted in FAILED. -/
def decEndUnit {pw : Nat} (r : DecRegs pw) : DecResult pw :=
  match r.st with
  | .idle => .error .protocolViolation
  | .done => .error .protocolViolation
  | .accumulating => .ok (closeDec (finalize r).1, (finalize r).2)
  | .terminatedByPad => .ok (closeDec (finalize r).1, (finalize r).2)
  | .failed => .ok (closeDec r, [])

/-- DEC.START (R100). The token's data bits are ignored. -/
def execDecStart (_ignored : Byte) (s : State) : Host.Outcome State Fault Refusal :=
  runDec s decStartUnit

/-- DEC.END (R113). The token's data bits are ignored. -/
def execDecEnd (_ignored : Byte) (s : State) : Host.Outcome State Fault Refusal :=
  runDec s decEndUnit

end Sys2Proof.Machine
end

