-- ==== Sys2Proof/Machine/DecoderData.lean ====
section
/-! DEFINITION. The meanings of the eleven classes of DATA token on `dec_in` (spec/41_decoder.md R102 to R112). -/

namespace Sys2Proof.Machine

/-- DEC.UPPER (R102): value `c - 0x41`. -/
def execDecUpper (c : Byte) (s : State) : Host.Outcome State Fault Refusal :=
  runDec s (dataCharacter (upperValue c) c)

/-- DEC.LOWER (R103): value `c - 0x47`. -/
def execDecLower (c : Byte) (s : State) : Host.Outcome State Fault Refusal :=
  runDec s (dataCharacter (lowerValue c) c)

/-- DEC.DIGIT (R104): value `c + 4`. -/
def execDecDigit (c : Byte) (s : State) : Host.Outcome State Fault Refusal :=
  runDec s (dataCharacter (digitValue c) c)

/-- DEC.PLUS (R105): value 62, byte 0x2B. -/
def execDecPlus (s : State) : Host.Outcome State Fault Refusal :=
  runDec s (dataCharacter plusValue 0x2B)

/-- DEC.MINUS (R106): value 62, byte 0x2D. -/
def execDecMinus (s : State) : Host.Outcome State Fault Refusal :=
  runDec s (dataCharacter plusValue 0x2D)

/-- DEC.SLASH (R107): value 63, byte 0x2F. -/
def execDecSlash (s : State) : Host.Outcome State Fault Refusal :=
  runDec s (dataCharacter slashValue 0x2F)

/-- DEC.UNDER (R108): value 63, byte 0x5F. -/
def execDecUnder (s : State) : Host.Outcome State Fault Refusal :=
  runDec s (dataCharacter slashValue 0x5F)

/-- DEC.CR (R109). -/
def execDecCr (s : State) : Host.Outcome State Fault Refusal :=
  runDec s skippedByte

/-- DEC.LF (R110). -/
def execDecLf (s : State) : Host.Outcome State Fault Refusal :=
  runDec s skippedByte

/-- DEC.PAD on DEC's registers (R111): the first pad ends the data; the modulus and the accumulator stay. -/
def decPadUnit {pw : Nat} (r : DecRegs pw) : DecResult pw :=
  dataPrologue r (fun p => (advance p { r with st := .terminatedByPad }, [])) (fun p => (advance p r, []))

/-- DEC.PAD (R111). -/
def execDecPad (s : State) : Host.Outcome State Fault Refusal :=
  runDec s decPadUnit

/-- DEC.INVALID on DEC's registers (R112): the invalid-byte error in either scanning state. -/
def decInvalidUnit {pw : Nat} (c : Byte) (r : DecRegs pw) : DecResult pw :=
  dataPrologue r (fun p => failByte c p r) (fun p => failByte c p r)

/-- DEC.INVALID (R112). -/
def execDecInvalid (c : Byte) (s : State) : Host.Outcome State Fault Refusal :=
  runDec s (decInvalidUnit c)

end Sys2Proof.Machine
end

