-- ==== Sys2Proof/Machine/Encoder.lean ====
section
/-! DEFINITION. The meanings of ENC.START, ENC.DATA and ENC.END (spec/40_encoder.md R80 to R82). -/

namespace Sys2Proof.Machine

/-- ENC.START on ENC's registers, `cfg` being the level on `enc_cfg_i` (R80). -/
def encStartUnit {lw : Nat} (cfg : BitVec (4 + lw)) (r : EncRegs lw) : EncResult lw :=
  if r.st = .run then .error .protocolViolation
  else if cfgLegal cfg then .ok ({ st := .run, cfg := cfg, acc := 0, bcnt := .zero, lcnt := 0 }, [])
  else .error .illegalConfiguration

/-- ENC.DATA on ENC's registers (R81). -/
def encDataUnit {lw : Nat} (b : Byte) (r : EncRegs lw) : EncResult lw :=
  if r.st = .run then
    match r.bcnt with
    | .zero => .ok ({ r with acc := b.setWidth 24 <<< 16, bcnt := .one }, [])
    | .one => .ok ({ r with acc := r.acc ||| b.setWidth 24 <<< 8, bcnt := .two }, [])
    | .two =>
      let n := r.acc ||| b.setWidth 24
      let checked := wrapCheck { r with acc := n }
      .ok ({ countGroup checked.1 with bcnt := .zero },
        checked.2 ++ [romChar r.cfg (sextet0 n), romChar r.cfg (sextet1 n), romChar r.cfg (sextet2 n),
          romChar r.cfg (sextet3 n)])
  else .error .protocolViolation

/-- ENC.END on ENC's registers (R82). -/
def encEndUnit {lw : Nat} (r : EncRegs lw) : EncResult lw :=
  if r.st = .run then
    .ok ({ r with acc := 0, bcnt := .zero, lcnt := 0, st := .done }, emitTail r ++ [.finish])
  else .error .protocolViolation

/-- ENC.START (R80). The token's data bits are ignored; the operand is the level on `enc_cfg_i`. -/
def execEncStart (_ignored : Byte) (s : State) : Host.Outcome State Fault Refusal :=
  runEnc s (encStartUnit s.encCfgI)

/-- ENC.DATA (R81). -/
def execEncData (b : Byte) (s : State) : Host.Outcome State Fault Refusal :=
  runEnc s (encDataUnit b)

/-- ENC.END (R82). The token's data bits are ignored. -/
def execEncEnd (_ignored : Byte) (s : State) : Host.Outcome State Fault Refusal :=
  runEnc s encEndUnit

end Sys2Proof.Machine
end

