-- ==== Sys2Proof/Machine/Dispatch.lean ====
section
/-! DEFINITION. The meaning of an instruction: one arm a constructor, each a direct call (spec/30_encoding.md R67). -/

namespace Sys2Proof.Machine

def exec (i : Instr) (s : State) : Host.Outcome State Fault Refusal :=
  match i with
  | .encStart ignored => Sys2Proof.Machine.execEncStart ignored s
  | .encData b => Sys2Proof.Machine.execEncData b s
  | .encEnd ignored => Sys2Proof.Machine.execEncEnd ignored s
  | .decStart ignored => Sys2Proof.Machine.execDecStart ignored s
  | .decUpper c => Sys2Proof.Machine.execDecUpper c s
  | .decLower c => Sys2Proof.Machine.execDecLower c s
  | .decDigit c => Sys2Proof.Machine.execDecDigit c s
  | .decPlus => Sys2Proof.Machine.execDecPlus s
  | .decMinus => Sys2Proof.Machine.execDecMinus s
  | .decSlash => Sys2Proof.Machine.execDecSlash s
  | .decUnder => Sys2Proof.Machine.execDecUnder s
  | .decCr => Sys2Proof.Machine.execDecCr s
  | .decLf => Sys2Proof.Machine.execDecLf s
  | .decPad => Sys2Proof.Machine.execDecPad s
  | .decInvalid c => Sys2Proof.Machine.execDecInvalid c s
  | .decEnd ignored => Sys2Proof.Machine.execDecEnd ignored s

end Sys2Proof.Machine
end

