-- ==== Sys2Proof/Machine/Receive.lean ====
section
/-! DEFINITION. What one host event does to the block: a token is decoded on its port and executed, or refused as
reserved (spec/30_encoding.md R60, R68 (a)); the level on `enc_cfg_i` changes (R30 (a), R54); `rst` is applied (R170).
Also how a token is placed as the host's next event. Step.lean only calls these. -/

namespace Sys2Proof.Machine

/-- A unit consumes one token of its port (R8, R41): a token of kind `11` is refused, any other is executed. -/
def receiveToken (p : Port) (w : Token) (s : State) : Host.Outcome State Fault Refusal :=
  match decode p w with
  | .ok i => exec i s
  | .error _ => .refused .reservedToken

/-- The effect of one host event on the state whose remaining events are already `s.host`. -/
def receive (s : State) : HostEvent s.params.lw → Host.Outcome State Fault Refusal
  | .encToken w => receiveToken .encIn w s
  | .decToken w => receiveToken .decIn w s
  | .driveCfg cfg => .next { s with encCfgI := cfg }
  | .rst => .next s.applyRst

/-- The event by which the host delivers a token on a port. -/
def tokenEvent (lw : Nat) (p : Port) (w : Token) : HostEvent lw :=
  match p with
  | .encIn => .encToken w
  | .decIn => .decToken w

/-- The state with a token placed as the next thing the host delivers, before everything it does later. -/
def placeToken (s : State) (p : Port) (w : Token) : State :=
  { s with host := tokenEvent s.params.lw p w :: s.host }

end Sys2Proof.Machine
end

