-- ==== Sys2Proof/Machine/Step.lean ====
section
/-! DEFINITION. One step of the whole block: the next event of the host takes effect; with none left the block waits with
its registers held (spec/60_exceptions.md R163, spec/70_reset_and_hazards.md R170, R175). -/

namespace Sys2Proof.Machine

/-- One step (R8). The event is removed before it takes effect: a consumed token is gone (R41). With no event left
nothing happens (DEDUCED, log 3). -/
def step (s : State) : Host.Outcome State Fault Refusal :=
  match s.host with
  | [] => .next s
  | e :: rest => receive { s with host := rest } e

/-- The table word's token (R60), on the port it stands for (log 8), placed where step takes its next event. -/
def State.withFetchWord (s : State) (nbits w : Nat) : State :=
  placeToken s (tableWordPort nbits w) (tableWordToken nbits w)

end Sys2Proof.Machine
end

