-- ==== Sys2Proof/Machine/Operations.lean ====
section
/-! DEFINITION. Whole operations: runs of several steps, the functions `encode` and `decode` over a whole input
(spec/42_operations.md R130, R131), and their token sequences (spec/30_encoding.md R71). -/

namespace Sys2Proof.Machine

/-- `k` steps, ending at the first refusal. -/
def run : Nat → State → Host.Outcome State Fault Refusal
  | 0, s => .next s
  | k + 1, s =>
    match step s with
    | .next t => run k t
    | .fault why => .fault why
    | .refused why => .refused why

/-! ### `encode` (R130) -/

/-- `NL`: the newline sequence of the configuration. -/
def newlineText {lw : Nat} (cfg : BitVec (4 + lw)) : List Byte := if cfgNl cfg then [0x0D, 0x0A] else [0x0A]

/-- The test before a group and before the tail: a newline sequence is due once `cnt` reaches the wrap length. -/
def newlineDue {lw : Nat} (cfg : BitVec (4 + lw)) (cnt : Nat) : Bool :=
  cfgWrapEn cfg && decide ((cfgWrapLen cfg).toNat ≤ cnt)

/-- What stands before a group or the tail: the newline sequence when due. -/
def groupLead {lw : Nat} (cfg : BitVec (4 + lw)) (cnt : Nat) : List Byte :=
  if newlineDue cfg cnt then newlineText cfg else []

/-- `cnt` after the characters of a full group. -/
def countAfterGroup {lw : Nat} (cfg : BitVec (4 + lw)) (cnt : Nat) : Nat :=
  (if newlineDue cfg cnt then 0 else cnt) + 4

/-- `b0 << 16 | b1 << 8 | b2` in 24 bits (R43). -/
def packGroup (b0 b1 b2 : Byte) : BitVec 24 := b0.setWidth 24 <<< 16 ||| b1.setWidth 24 <<< 8 ||| b2.setWidth 24

/-- `k` pad characters when PAD = 1. -/
def padText {lw : Nat} (cfg : BitVec (4 + lw)) (k : Nat) : List Byte :=
  if cfgPad cfg then List.replicate k 0x3D else []

/-- The loop and the tail of R130 from a line count on. -/
def encodeFrom {lw : Nat} (cfg : BitVec (4 + lw)) (cnt : Nat) : List Byte → List Byte
  | [] => []
  | [b0] =>
    let n := packGroup b0 0 0
    let a := cfgAlpha cfg
    groupLead cfg cnt ++ [romRead a (sextet0 n), romRead a (sextet1 n)] ++ padText cfg 2
  | [b0, b1] =>
    let n := packGroup b0 b1 0
    let a := cfgAlpha cfg
    groupLead cfg cnt ++ [romRead a (sextet0 n), romRead a (sextet1 n), romRead a (sextet2 n)] ++ padText cfg 1
  | b0 :: b1 :: b2 :: rest =>
    let n := packGroup b0 b1 b2
    let a := cfgAlpha cfg
    groupLead cfg cnt ++
      [romRead a (sextet0 n), romRead a (sextet1 n), romRead a (sextet2 n), romRead a (sextet3 n)] ++
      encodeFrom cfg (countAfterGroup cfg cnt) rest

/-- `encode(bytes, cfg)` (R130), for a legal configuration. For the illegal ones (WRAP_EN = 1, WRAP_LEN = 0) R130 does
not define `encode`: the value this total function has there is a filler outside the spec (DESIGN CHOICE, log 15), and no
statement is about it. -/
def encodeText {lw : Nat} (cfg : BitVec (4 + lw)) (bytes : List Byte) : List Byte := encodeFrom cfg 0 bytes

/-! ### `decode` (R131) -/

/-- The result of `decode`: the sum type of the source (R131). -/
inductive DecodeResult where
  | ok (bytes : List Byte)
  | invalidByte (c : Byte) (position : Nat)
  | invalidLength
  deriving DecidableEq, Repr

/-- The 6-bit value of a valid data character, `none` for every other byte (R65). -/
def charValue (c : Byte) : Option Sextet :=
  if 0x41 ≤ c ∧ c ≤ 0x5A then some ((c - 0x41).setWidth 6)
  else if 0x61 ≤ c ∧ c ≤ 0x7A then some ((c - 0x47).setWidth 6)
  else if 0x30 ≤ c ∧ c ≤ 0x39 then some ((c + 0x04).setWidth 6)
  else if c = 0x2B ∨ c = 0x2D then some 62
  else if c = 0x2F ∨ c = 0x5F then some 63
  else none

/-- The finalization at the end of the input. -/
def decodeEnd (acc : BitVec 32) (mod : Nat) (out : List Byte) : DecodeResult :=
  match mod with
  | 0 => .ok out
  | 1 => .invalidLength
  | 2 => .ok (out ++ [acc.extractLsb' 4 8])
  | _ => .ok (out ++ [acc.extractLsb' 10 8, acc.extractLsb' 2 8])

/-- The scan after the first pad character: only `=`, CR and LF are permitted. Any other byte is reported as itself, as
R131 and R151 say; R137's last clause, read literally, says otherwise (log 12). -/
def decodePadded (acc : BitVec 32) (mod : Nat) (out : List Byte) (i : Nat) : List Byte → DecodeResult
  | [] => decodeEnd acc mod out
  | c :: rest =>
    if c = 0x3D ∨ c = 0x0D ∨ c = 0x0A then decodePadded acc mod out (i + 1) rest
    else .invalidByte c i

/-- The main loop of R131 from position `i` on. -/
def decodeFrom (acc : BitVec 32) (mod : Nat) (out : List Byte) (i : Nat) : List Byte → DecodeResult
  | [] => decodeEnd acc mod out
  | c :: rest =>
    match charValue c with
    | some v =>
      let a := acc <<< 6 ||| v.setWidth 32
      if mod + 1 = 4 then
        decodeFrom a 0 (out ++ [a.extractLsb' 16 8, a.extractLsb' 8 8, a.extractLsb' 0 8]) (i + 1) rest
      else decodeFrom a (mod + 1) out (i + 1) rest
    | none =>
      if c = 0x0D ∨ c = 0x0A then decodeFrom acc mod out (i + 1) rest
      else if c = 0x3D then decodePadded acc mod out (i + 1) rest
      else .invalidByte c i

/-- `decode(bytes)` (R131). -/
def decodeText (bytes : List Byte) : DecodeResult := decodeFrom 0 0 [] 0 bytes

/-! ### Token sequences (R71) -/

/-- START, one DATA token a byte, END: the tokens of one operation, the same on either port (R60, R70, R71). -/
def operationTokens (bytes : List Byte) : List Token := 0x000 :: bytes.map (mkToken 0b01) ++ [0x200]

/-- The events of one operation on a port. -/
def operationEvents (lw : Nat) (p : Port) (bytes : List Byte) : List (HostEvent lw) :=
  (operationTokens bytes).map (tokenEvent lw p)

end Sys2Proof.Machine
end

