-- ==== Sys2Proof/Machine/Assembler.lean ====
section
/-! DEFINITION. The assembler lines and pseudo-instructions of spec/30_encoding.md R70 and R71, as structured data: what
each line makes the host do. The spelling of a line as text is not modelled (log 11). -/

namespace Sys2Proof.Machine

/-- The field list of an ENC.START operand, `none` being an omitted field (R70); `wrap=none` is written by omitting it,
since STANDARD's value of that field is no wrapping. -/
structure CfgFields where
  url : Option Bool := none
  crlf : Option Bool := none
  pad : Option Bool := none
  wrap : Option Nat := none
  deriving DecidableEq, Repr

/-- The word of a field list with the given wrap fields: an omitted field takes the STANDARD preset's value (R70). -/
def CfgFields.wordWith {lw : Nat} (f : CfgFields) (wrapEn : Bool) (wrapLen : BitVec lw) : BitVec (4 + lw) :=
  cfgWord (f.url.getD false) (f.crlf.getD true) (f.pad.getD true) wrapEn wrapLen

/-- The `<cfg>` operand of ENC.START (R70): a preset name, a number, or a field list. -/
inductive CfgOperand where
  | standard
  | urlSafe
  | mime
  | number (n : Nat)
  | fields (f : CfgFields)
  deriving DecidableEq, Repr

/-- The configuration word of an operand; `none` where a wrap length is 0 (R70: "a number N >= 1") and
where the operand does not fit: a number of more than `4 + LW` bits or a wrap length of more than `LW` (DESIGN CHOICE, log
11: R70 gives such a line no meaning). -/
def CfgOperand.word (lw : Nat) : CfgOperand → Option (BitVec (4 + lw))
  | .standard => some (presetStandard lw)
  | .urlSafe => some (presetUrlSafe lw)
  | .mime => some (presetMime lw)
  | .number n => if n < 2 ^ (4 + lw) then some (BitVec.ofNat (4 + lw) n) else none
  | .fields f =>
    match f.wrap with
    | none => some (f.wordWith false 0)
    | some n => if 1 ≤ n ∧ n < 2 ^ lw then some (f.wordWith true (BitVec.ofNat lw n)) else none

/-- One line of a token program (R70, R71). -/
inductive AsmLine where
  | encStart (cfg : CfgOperand)
  | encData (b : Byte)
  | encEnd
  | decStart
  | decData (b : Byte)
  | decClass (i : Instr)
  | decEnd
  | encStr (text : List Byte)
  | decStr (text : List Byte)
  | encode (bytes : List Byte) (cfg : CfgOperand)
  | decode (bytes : List Byte)
  deriving DecidableEq, Repr

/-- A class mnemonic with its byte: a DATA instruction of `dec_in` whose byte is of the class named (R70). -/
def isClassLine (i : Instr) : Bool :=
  i.port == .decIn && tokenKind (Sys2Proof.encode i) == 0b01 && i.wf

/-- What a line makes the host do (R70, R71): ignored bits are zero; the configuration operand is driven on
`enc_cfg_i` before the token. `none` where the assembler rejects the line. -/
def assemble (lw : Nat) : AsmLine → Option (List (HostEvent lw))
  | .encStart cfg => (cfg.word lw).map (fun c => [.driveCfg c, .encToken 0x000])
  | .encData b => some [.encToken (mkToken 0b01 b)]
  | .encEnd => some [.encToken 0x200]
  | .decStart => some [.decToken 0x000]
  | .decData b => some [.decToken (mkToken 0b01 b)]
  | .decClass i => if isClassLine i then some [.decToken (Sys2Proof.encode i)] else none
  | .decEnd => some [.decToken 0x200]
  | .encStr text => some (text.map (fun b => .encToken (mkToken 0b01 b)))
  | .decStr text => some (text.map (fun b => .decToken (mkToken 0b01 b)))
  | .encode bytes cfg => (cfg.word lw).map (fun c => .driveCfg c :: operationEvents lw .encIn bytes)
  | .decode bytes => some (operationEvents lw .decIn bytes)

/-- A token program: its lines in order, rejected if one is. -/
def assembleProgram (lw : Nat) : List AsmLine → Option (List (HostEvent lw))
  | [] => some []
  | line :: rest =>
    match assemble lw line, assembleProgram lw rest with
    | some events, some later => some (events ++ later)
    | _, _ => none

end Sys2Proof.Machine
end

