-- ==== Sys2Proof/Machine/Recovery.lean ====
section
/-! DEFINITION. `rst` as the way out of a refusal (spec/70_reset_and_hazards.md R170, spec/60_exceptions.md R160,
spec/93_implementation_defined.md U7). `step` answers a refusal with no next state, as R160 asks. This layer goes on over
it: from its refused token until the next `rst` the refused unit is outside the spec, so its registers and what it emits
are free values there; the other unit goes on as its rules say (R10, R52), and `rst` brings both back. -/

namespace Sys2Proof.Machine

/-- The block, and which units are outside the spec because of a refused token that no `rst` has followed yet. -/
structure Block where
  state : State
  encLost : Bool
  decLost : Bool
  deriving DecidableEq, Repr

/-- Free values for one event: what registers a unit outside the spec has, and what it emits. Always an argument, never
a value of the model's, so a claim holds for every choice (log 6). -/
structure Stray where
  enc : (lw : Nat) → EncRegs lw
  encOut : List EncOut
  dec : (pw : Nat) → DecRegs pw
  decOut : List DecOut

/-- A unit outside the spec does anything: its registers are replaced and its stream grows by the free values. -/
def Block.scatter (x : Stray) (b : Block) : Block :=
  { b with
    state := { b.state with
      enc := if b.encLost then x.enc b.state.params.lw else b.state.enc,
      encOut := if b.encLost then b.state.encOut ++ x.encOut else b.state.encOut,
      dec := if b.decLost then x.dec b.state.params.pw else b.state.dec,
      decOut := if b.decLost then b.state.decOut ++ x.decOut else b.state.decOut } }

/-- The next event takes effect on the units within the spec. A token a unit refuses, or one delivered to a unit already
outside the spec, has no effect the spec gives; `rst` puts both units back at their reset values (R31, R170). -/
def Block.take (b : Block) : Block :=
  match b.state.host with
  | [] => b
  | .rst :: rest => { state := State.applyRst { b.state with host := rest }, encLost := false, decLost := false }
  | .driveCfg cfg :: rest => { b with state := { b.state with encCfgI := cfg, host := rest } }
  | .encToken w :: rest =>
    let s := { b.state with host := rest }
    if b.encLost then { b with state := s }
    else
      match receiveToken .encIn w s with
      | .next t => { b with state := t }
      | .fault _ => { b with state := s, encLost := true }
      | .refused _ => { b with state := s, encLost := true }
  | .decToken w :: rest =>
    let s := { b.state with host := rest }
    if b.decLost then { b with state := s }
    else
      match receiveToken .decIn w s with
      | .next t => { b with state := t }
      | .fault _ => { b with state := s, decLost := true }
      | .refused _ => { b with state := s, decLost := true }

/-- One event, then whatever the units outside the spec do before the next. -/
def Block.step (x : Stray) (b : Block) : Block := b.take.scatter x

/-- One event for each choice of free values. -/
def Block.run : List Stray → Block → Block
  | [], b => b
  | x :: xs, b => Block.run xs (b.step x)

end Sys2Proof.Machine
end

