-- ==== Sys2Proof/Machine/Results.lean ====
section
/-! DEFINITION. When an operation has ended and what its observable result is (spec/70_reset_and_hazards.md R171,
spec/30_encoding.md R71), read along a run from the tokens each step emits, `DEC_STATUS` and the error record. -/

namespace Sys2Proof.Machine

/-- The data bytes of the CHAR tokens, in order. -/
def encodedText (out : List EncOut) : List Byte :=
  out.filterMap (fun t => match t with
    | .char c => some c
    | .finish => none)

/-- The data bytes of the BYTE tokens, in order. -/
def decodedBytes (out : List DecOut) : List Byte :=
  out.filterMap (fun t => match t with
    | .byte b => some b
    | .status _ => none)

/-- The CHAR bytes of a list of tokens cut at its END tokens, `pending` being those that came before it: the bytes that no
END has closed yet, and the texts that one has (R171). -/
def cutTexts (pending : List Byte) : List EncOut → List Byte × List (List Byte)
  | [] => (pending, [])
  | .char c :: rest => cutTexts (pending ++ [c]) rest
  | .finish :: rest => ((cutTexts [] rest).1, pending :: (cutTexts [] rest).2)

/-- The result of a decoder operation, `bytes` being the BYTE data since DEC.START (R71, R171): none unless the unit is in
DONE, so none in FAILED before the END token; on an error the bytes are void (R154). -/
def operationResult {pw : Nat} (r : DecRegs pw) (bytes : List Byte) : Option DecodeResult :=
  if r.st = .done then
    match r.status with
    | .none => none
    | .ok => some (.ok bytes)
    | .invalidByte => some (.invalidByte r.errByte r.errPos.toNat)
    | .invalidLength => some .invalidLength
  else none

/-- What an observer of both output streams holds (R171). -/
structure Watch where
  /-- CHAR bytes since the previous END token or reset. -/
  chars : List Byte
  /-- BYTE bytes since the last DEC.START. -/
  bytes : List Byte
  /-- The results of the encoder operations that have ended, in order. -/
  texts : List (List Byte)
  /-- The results of the decoder operations that have ended, in order. -/
  decoded : List DecodeResult
  deriving DecidableEq, Repr

/-- An observer that has seen nothing. -/
def Watch.start : Watch := { chars := [], bytes := [], texts := [], decoded := [] }

/-- Tokens of `enc_out` are seen: an END token ends the operation, and its text is the CHAR bytes before it. -/
def Watch.seeEnc (out : List EncOut) (w : Watch) : Watch :=
  { w with chars := (cutTexts w.chars out).1, texts := w.texts ++ (cutTexts w.chars out).2 }

/-- DEC has consumed the token `tok`, emitted `out` and has the registers `r` now: START begins an operation, END ends it
with its result. -/
def Watch.seeDec {pw : Nat} (tok : Token) (out : List DecOut) (r : DecRegs pw) (w : Watch) : Watch :=
  let bytes := if tokenKind tok = 0b00 then [] else w.bytes ++ decodedBytes out
  { w with
    bytes := bytes,
    decoded := w.decoded ++ (if tokenKind tok = 0b10 then (operationResult r bytes).toList else []) }

/-- The step from `s` to `t` is seen. `rst` drops what belongs to an open operation, which then has no result (R170). -/
def Watch.see (s t : State) (w : Watch) : Watch :=
  match s.host with
  | [] => w
  | .rst :: _ => { w with chars := [], bytes := [] }
  | .driveCfg _ :: _ => w
  | .encToken _ :: _ => w.seeEnc (t.encOut.drop s.encOut.length)
  | .decToken tok :: _ => w.seeDec tok (t.decOut.drop s.decOut.length) t.dec

/-- What is observed in `k` steps from `s`. An operation whose END token is not consumed in them has no result. -/
def watch : Nat → State → Watch → Watch
  | 0, _, w => w
  | k + 1, s, w =>
    match step s with
    | .next t => watch k t (w.see s t)
    | .fault _ => w
    | .refused _ => w

end Sys2Proof.Machine
end

