-- ==== Sys2Proof/Safety.lean ====
section
/-! DEFINITION. The terms claims use: the invariant of the block, what a host must do for a safe run, and readings of
the spec's tables that are independent of the meanings. -/

namespace Sys2Proof.Machine

/-- A unit is resting: it accepts START and nothing else (spec/10_state.md R11). -/
def encResting (st : EncSt) : Bool :=
  match st with
  | .idle => true
  | .run => false
  | .done => true

/-- DEC is resting (R16). -/
def decResting (st : DecSt) : Bool :=
  match st with
  | .idle => true
  | .accumulating => false
  | .terminatedByPad => false
  | .failed => false
  | .done => true

/-- The least multiple of 4 that is at least the wrap length, `4 * ceil(N / 4)` (R84, R141 (d)). -/
def lineCapacity {lw : Nat} (cfg : BitVec (4 + lw)) : Nat := ((cfgWrapLen cfg).toNat + 3) / 4 * 4

/-- What the registers of ENC satisfy between steps: in a resting state the datapath is at its reset value (R31, R82);
in RUN the configuration is legal (R80), the bytes not yet received are zero in the pack register (R13), the line count
is 0 without wrapping (R15) and else a multiple of 4 up to the line capacity (R141 (d)). -/
def EncInv {lw : Nat} (r : EncRegs lw) : Prop :=
  match r.st with
  | .idle => r = EncRegs.reset lw
  | .done => cfgLegal r.cfg = true ∧ r.acc = 0 ∧ r.bcnt = .zero ∧ r.lcnt = 0
  | .run =>
    cfgLegal r.cfg = true ∧ (r.bcnt = .one → r.acc.extractLsb' 0 16 = 0) ∧
    (r.bcnt = .two → r.acc.extractLsb' 0 8 = 0) ∧
    (cfgWrapEn r.cfg = false → r.lcnt = 0) ∧
    (cfgWrapEn r.cfg = true → r.lcnt.toNat % 4 = 0 ∧ r.lcnt.toNat ≤ lineCapacity r.cfg)

/-- What the registers of DEC satisfy between steps (R16 to R22, R31, R113, R114): in IDLE every register is at its
reset value; in a scanning state there is no result and no error record yet, and at least as many bytes were accepted as
characters are pending; in FAILED the record is that of an invalid byte at the position the unit stopped at; in DONE the
datapath is clear, there is a result, and only an invalid byte leaves a record. -/
def DecInv {pw : Nat} (r : DecRegs pw) : Prop :=
  match r.st with
  | .idle => r = DecRegs.reset pw
  | .accumulating => r.status = .none ∧ r.errByte = 0 ∧ r.errPos = 0 ∧ r.mod.toNat ≤ r.pos.toNat
  | .terminatedByPad => r.status = .none ∧ r.errByte = 0 ∧ r.errPos = 0 ∧ r.mod.toNat < r.pos.toNat
  | .failed => r.status = .invalidByte ∧ r.errPos = r.pos ∧ r.pos ≠ BitVec.allOnes pw ∧ r.mod.toNat ≤ r.pos.toNat
  | .done => r.acc = 0 ∧ r.mod = 0 ∧ r.pos = 0 ∧ r.status ≠ .none ∧
      (r.status ≠ .invalidByte → r.errByte = 0 ∧ r.errPos = 0)

/-- A byte of text the encoder may emit under some configuration (R87). -/
def isTextByte (c : Byte) : Bool :=
  romStd.contains c || romUrl.contains c || c == 0x3D || c == 0x0D || c == 0x0A

/-- A token `enc_out` may carry (R61, R87). -/
def encOutAllowed : EncOut → Bool
  | .char c => isTextByte c
  | .finish => true

/-- A token `dec_out` may carry: STATUS(NONE) is never emitted (R61). -/
def decOutAllowed : DecOut → Bool
  | .byte _ => true
  | .status code => code != .none

/-- The invariant of the block: legal parameters, both units' registers, and the tokens on the two output streams. -/
def Inv (s : State) : Prop :=
  s.params.wf = true ∧ EncInv s.enc ∧ DecInv s.dec ∧
  s.encOut.all encOutAllowed = true ∧ s.decOut.all decOutAllowed = true

/-- A byte of text that one configuration allows (R87): an entry of the selected ROM, `=` with PAD = 1, LF with
WRAP_EN = 1, CR with WRAP_EN = 1 and NL = 1. -/
def textByteOf {lw : Nat} (cfg : BitVec (4 + lw)) (c : Byte) : Bool :=
  (if cfgAlpha cfg then romUrl else romStd).contains c || (c == 0x3D && cfgPad cfg) ||
  (c == 0x0A && cfgWrapEn cfg) || (c == 0x0D && cfgWrapEn cfg && cfgNl cfg)

/-- The byte and the value of the seven valid data characters (R64, R65); `none` for every other instruction. -/
def dataChar : Instr → Option (Byte × Sextet)
  | .encStart _ => none
  | .encData _ => none
  | .encEnd _ => none
  | .decStart _ => none
  | .decUpper c => some (c, BitVec.ofNat 6 (c.toNat - 0x41))
  | .decLower c => some (c, BitVec.ofNat 6 (c.toNat - 0x47))
  | .decDigit c => some (c, BitVec.ofNat 6 (c.toNat + 0x04))
  | .decPlus => some (0x2B, 62)
  | .decMinus => some (0x2D, 62)
  | .decSlash => some (0x2F, 63)
  | .decUnder => some (0x5F, 63)
  | .decCr => none
  | .decLf => none
  | .decPad => none
  | .decInvalid _ => none
  | .decEnd _ => none

/-- The data byte of a DATA token of `dec_in` (R64); `none` for every other instruction. -/
def decDataByte : Instr → Option Byte
  | .encStart _ => none
  | .encData _ => none
  | .encEnd _ => none
  | .decStart _ => none
  | .decUpper c => some c
  | .decLower c => some c
  | .decDigit c => some c
  | .decPlus => some 0x2B
  | .decMinus => some 0x2D
  | .decSlash => some 0x2F
  | .decUnder => some 0x5F
  | .decCr => some 0x0D
  | .decLf => some 0x0A
  | .decPad => some 0x3D
  | .decInvalid c => some c
  | .decEnd _ => none

/-- The instruction a DATA token with byte `c` is on `dec_in`, by the ranges of R64's table. -/
def listedClass (c : Byte) : Instr :=
  if inByteRange 0x41 0x5A c then .decUpper c
  else if inByteRange 0x61 0x7A c then .decLower c
  else if inByteRange 0x30 0x39 c then .decDigit c
  else if c = 0x2B then .decPlus
  else if c = 0x2D then .decMinus
  else if c = 0x2F then .decSlash
  else if c = 0x5F then .decUnder
  else if c = 0x0D then .decCr
  else if c = 0x0A then .decLf
  else if c = 0x3D then .decPad
  else .decInvalid c

/-- The reason the registers, the instruction and the port level give for a refusal, `none` when the step has a meaning:
the refusal tests of R150 and R160 in the order of R157. -/
def refusalOf (i : Instr) (s : State) : Option Refusal :=
  match i with
  | .encStart _ =>
    if s.enc.st = .run then some .protocolViolation
    else if cfgLegal s.encCfgI then none
    else some .illegalConfiguration
  | .encData _ => if s.enc.st = .run then none else some .protocolViolation
  | .encEnd _ => if s.enc.st = .run then none else some .protocolViolation
  | .decStart _ => if decResting s.dec.st then none else some .protocolViolation
  | .decEnd _ => if decResting s.dec.st then some .protocolViolation else none
  | .decUpper _ | .decLower _ | .decDigit _ | .decPlus | .decMinus | .decSlash | .decUnder | .decCr | .decLf | .decPad
  | .decInvalid _ =>
    if decResting s.dec.st then some .protocolViolation
    else if s.dec.st ≠ .failed ∧ s.dec.pos = BitVec.allOnes s.params.pw then some .positionOverflow
    else none

/-- What the host duties of R172 track: whether an encode operation is open, how many DATA tokens the open decode
operation has had, and the level on `enc_cfg_i`. -/
structure HostDuty (lw : Nat) where
  encOpen : Bool
  decCount : Option Nat
  cfg : BitVec (4 + lw)
  deriving DecidableEq, Repr

/-- The host keeps its duties from here on (R172): a legal configuration word at ENC.START; START, DATA and END in
that order on each unit; at most `2^PW - 1` DATA tokens a decode operation; no token of kind `11`. `rst` closes every
operation (R170). -/
def keepsDuties {lw : Nat} (pw : Nat) (d : HostDuty lw) : List (HostEvent lw) → Bool
  | [] => true
  | .rst :: rest => keepsDuties pw { d with encOpen := false, decCount := none } rest
  | .driveCfg c :: rest => keepsDuties pw { d with cfg := c } rest
  | .encToken w :: rest =>
    if tokenKind w = 0b00 then !d.encOpen && cfgLegal d.cfg && keepsDuties pw { d with encOpen := true } rest
    else if tokenKind w = 0b01 then d.encOpen && keepsDuties pw d rest
    else if tokenKind w = 0b10 then d.encOpen && keepsDuties pw { d with encOpen := false } rest
    else false
  | .decToken w :: rest =>
    if tokenKind w = 0b00 then (d.decCount == none) && keepsDuties pw { d with decCount := some 0 } rest
    else if tokenKind w = 0b01 then
      match d.decCount with
      | none => false
      | some n => decide (n + 1 ≤ 2 ^ pw - 1) && keepsDuties pw { d with decCount := some (n + 1) } rest
    else if tokenKind w = 0b10 then d.decCount.isSome && keepsDuties pw { d with decCount := none } rest
    else false

/-! ### The tables of transitions -/

/-- The transition table of ENC (R85): the next `ENC_ST` for the token kind and, at START, whether the word on
`enc_cfg_i` is legal; `none` is "refuse". -/
def encTransition (st : EncSt) (kind : BitVec 2) (legal : Bool) : Option EncSt :=
  match st with
  | .idle => if kind = 0b00 ∧ legal = true then some .run else none
  | .run => if kind = 0b01 then some .run else if kind = 0b10 then some .done else none
  | .done => if kind = 0b00 ∧ legal = true then some .run else none

/-- The columns of the transition table of DEC (R116), but for kind `11`, which is no instruction. -/
inductive DecColumn where
  | start
  | valid
  | skip
  | pad
  | invalid
  | finish
  deriving DecidableEq, Repr

/-- The column an instruction of `dec_in` stands in (R116); `none` for an instruction of `enc_in`. -/
def decColumn : Instr → Option DecColumn
  | .encStart _ => none
  | .encData _ => none
  | .encEnd _ => none
  | .decStart _ => some .start
  | .decUpper _ => some .valid
  | .decLower _ => some .valid
  | .decDigit _ => some .valid
  | .decPlus => some .valid
  | .decMinus => some .valid
  | .decSlash => some .valid
  | .decUnder => some .valid
  | .decCr => some .skip
  | .decLf => some .skip
  | .decPad => some .pad
  | .decInvalid _ => some .invalid
  | .decEnd _ => some .finish

/-- The transition table of DEC (R116), row by row; `none` is "refuse". -/
def decTransition : DecSt → DecColumn → Option DecSt
  | .idle, .start => some .accumulating
  | .idle, .valid => none
  | .idle, .skip => none
  | .idle, .pad => none
  | .idle, .invalid => none
  | .idle, .finish => none
  | .accumulating, .start => none
  | .accumulating, .valid => some .accumulating
  | .accumulating, .skip => some .accumulating
  | .accumulating, .pad => some .terminatedByPad
  | .accumulating, .invalid => some .failed
  | .accumulating, .finish => some .done
  | .terminatedByPad, .start => none
  | .terminatedByPad, .valid => some .failed
  | .terminatedByPad, .skip => some .terminatedByPad
  | .terminatedByPad, .pad => some .terminatedByPad
  | .terminatedByPad, .invalid => some .failed
  | .terminatedByPad, .finish => some .done
  | .failed, .start => none
  | .failed, .valid => some .failed
  | .failed, .skip => some .failed
  | .failed, .pad => some .failed
  | .failed, .invalid => some .failed
  | .failed, .finish => some .done
  | .done, .start => some .accumulating
  | .done, .valid => none
  | .done, .skip => none
  | .done, .pad => none
  | .done, .invalid => none
  | .done, .finish => none

/-- What DataPrologue (R115) makes of a DATA instruction of `dec_in` where the step does not go on: refused in a resting
state, no effect at all in FAILED, refused at the last position. -/
def PrologueHolds (i : Instr) (s : State) : Prop :=
  (s.dec.st = .idle ∨ s.dec.st = .done → exec i s = .refused .protocolViolation) ∧
  (s.dec.st = .failed → exec i s = .next s) ∧
  (s.dec.st = .accumulating ∨ s.dec.st = .terminatedByPad → s.dec.pos.toNat = 2 ^ s.params.pw - 1 →
    exec i s = .refused .positionOverflow)

/-! ### Output lists as the rules write them -/

/-- The four CHAR tokens of a full group `n` (R81). -/
def groupTokens {lw : Nat} (cfg : BitVec (4 + lw)) (n : BitVec 24) : List EncOut :=
  [.char (romRead (cfgAlpha cfg) (n.extractLsb' 18 6)), .char (romRead (cfgAlpha cfg) (n.extractLsb' 12 6)),
    .char (romRead (cfgAlpha cfg) (n.extractLsb' 6 6)), .char (romRead (cfgAlpha cfg) (n.extractLsb' 0 6))]

/-- The newline sequence of a configuration as CHAR tokens (R83). -/
def newlineTokens {lw : Nat} (cfg : BitVec (4 + lw)) : List EncOut :=
  if cfgNl cfg then [.char 0x0D, .char 0x0A] else [.char 0x0A]

/-- What WrapCheck puts before a group or the tail (R84), the comparison made on numbers. -/
def tokensBefore {lw : Nat} (cfg : BitVec (4 + lw)) (lcnt : BitVec (lw + 1)) : List EncOut :=
  if cfgWrapEn cfg = true ∧ (cfgWrapLen cfg).toNat ≤ lcnt.toNat then newlineTokens cfg else []

/-! ### Readings of whole inputs and of what the host does -/

/-- The byte at index `i` is one `decode` fails on (R139, R151): after the first `=`, anything but `=`, CR and LF; before
it, a byte of class INVALID. False past the end. -/
def offends (bytes : List Byte) (i : Nat) : Bool :=
  match bytes[i]? with
  | none => false
  | some c =>
    if (bytes.take i).contains 0x3D then !(c == 0x3D || c == 0x0D || c == 0x0A) else isListedInvalid c

/-- The values of the valid data characters before the first `=` or invalid byte, in order. -/
def dataValues (bytes : List Byte) : List Sextet :=
  (bytes.takeWhile (fun c => !(c == 0x3D) && !(isListedInvalid c))).filterMap charValue

/-- The bytes of the complete groups of four values (R44, R101). -/
def completeGroupBytes : List Sextet → List Byte
  | v0 :: v1 :: v2 :: v3 :: rest =>
    [(v0 ++ v1.extractLsb' 4 2 : BitVec (6 + 2)), (v1.extractLsb' 0 4 ++ v2.extractLsb' 2 4 : BitVec (4 + 4)),
      (v2.extractLsb' 0 2 ++ v3 : BitVec (2 + 6))] ++ completeGroupBytes rest
  | _ => []

/-- The tokens the host delivers on `enc_in`, in order. -/
def encTokensOf {lw : Nat} (events : List (HostEvent lw)) : List Token :=
  events.filterMap (fun e => match e with
    | .encToken w => some w
    | .decToken _ => none
    | .driveCfg _ => none
    | .rst => none)

/-- The tokens the host delivers on `dec_in`, in order. -/
def decTokensOf {lw : Nat} (events : List (HostEvent lw)) : List Token :=
  events.filterMap (fun e => match e with
    | .encToken _ => none
    | .decToken w => some w
    | .driveCfg _ => none
    | .rst => none)

/-- The event delivers a token. -/
def isTokenEvent {lw : Nat} (e : HostEvent lw) : Bool :=
  match e with
  | .encToken _ => true
  | .decToken _ => true
  | .driveCfg _ => false
  | .rst => false

/-- The token is a STATUS token (R61). -/
def isStatusToken (t : DecOut) : Bool :=
  match t with
  | .byte _ => false
  | .status _ => true

/-- Two bytes that differ at most by the alphabet they come from: equal, or `+` and `-`, or `/` and `_` (R137). -/
def sameCharacter (c d : Byte) : Bool :=
  c == d || (c == 0x2B && d == 0x2D) || (c == 0x2D && d == 0x2B) || (c == 0x2F && d == 0x5F) || (c == 0x5F && d == 0x2F)

end Sys2Proof.Machine
end

