-- ==== Sys2Proof/Certificates/Slice0/Obligations.lean ====
section
/-! DEFINITION. The statements for the provers. Each docstring names the rule of spec/ it formalises. -/

open Sys2Proof Sys2Proof.Machine

/-! ### Encoding -/

/-- Every well-formed instruction decodes from its token, on its port, with every operand (R60, R67). -/
def Obligations.DecodeOfEncodeGivesInstruction : Prop :=
  ∀ i : Instr, i.wf = true → decode i.port (encode i) = .ok i

/-- What the decoder reads is well-formed, belongs to the port, and its token is the one read: no bit is dropped. -/
def Obligations.EncodeOfDecodeGivesToken : Prop :=
  ∀ (p : Port) (w : Token) (i : Instr), decode p w = .ok i → i.wf = true ∧ i.port = p ∧ encode i = w

/-- A token is rejected exactly when its kind is `11`, and step then refuses it as reserved, on either port (R68 (a)). -/
def Obligations.ReservedKindExactlyRefused : Prop :=
  (∀ (p : Port) (w : Token), decode p w = .error .reservedKind ↔ tokenKind w = 0b11) ∧
  (∀ (s : State) (p : Port) (w : Token) (rest : List (HostEvent s.params.lw)),
    s.host = tokenEvent s.params.lw p w :: rest → tokenKind w = 0b11 → step s = .refused .reservedToken)

/-- The rows of the opcode map (R67), bit patterns and constraints written out, with the values of the field rows. -/
def Obligations.OpcodeMapRows : Prop :=
  (∀ x : Byte, decode .encIn (0b00#2 ++ x) = .ok (.encStart x)) ∧
  (∀ b : Byte, decode .encIn (0b01#2 ++ b) = .ok (.encData b)) ∧
  (∀ x : Byte, decode .encIn (0b10#2 ++ x) = .ok (.encEnd x)) ∧
  (∀ x : Byte, decode .decIn (0b00#2 ++ x) = .ok (.decStart x)) ∧
  (∀ u : BitVec 5, 1 ≤ u → u ≤ 26 → decode .decIn (0b01010#5 ++ u) = .ok (.decUpper (0b010#3 ++ u)) ∧
    (upperValue (0b010#3 ++ u)).toNat = u.toNat - 1) ∧
  (∀ u : BitVec 5, 1 ≤ u → u ≤ 26 → decode .decIn (0b01011#5 ++ u) = .ok (.decLower (0b011#3 ++ u)) ∧
    (lowerValue (0b011#3 ++ u)).toNat = u.toNat + 25) ∧
  (∀ d : BitVec 4, d ≤ 9 → decode .decIn (0b010011#6 ++ d) = .ok (.decDigit (0b0011#4 ++ d)) ∧
    (digitValue (0b0011#4 ++ d)).toNat = d.toNat + 52) ∧
  decode .decIn 0b0100101011 = .ok .decPlus ∧
  decode .decIn 0b0100101101 = .ok .decMinus ∧
  decode .decIn 0b0100101111 = .ok .decSlash ∧
  decode .decIn 0b0101011111 = .ok .decUnder ∧
  decode .decIn 0b0100001101 = .ok .decCr ∧
  decode .decIn 0b0100001010 = .ok .decLf ∧
  decode .decIn 0b0100111101 = .ok .decPad ∧
  (∀ b : Byte, isListedInvalid b = true → decode .decIn (0b01#2 ++ b) = .ok (.decInvalid b)) ∧
  (∀ x : Byte, decode .decIn (0b10#2 ++ x) = .ok (.decEnd x))

/-- A few tokens written out from the opcode map and what they stand for. A sanity statement. -/
def Obligations.WrittenTokensDecode : Prop :=
  decode .encIn 0x0A7 = .ok (.encStart 0xA7) ∧ decode .encIn 0x166 = .ok (.encData 0x66) ∧
  decode .encIn 0x2FF = .ok (.encEnd 0xFF) ∧ decode .decIn 0x000 = .ok (.decStart 0x00) ∧
  decode .decIn 0x15A = .ok (.decUpper 0x5A) ∧ decode .decIn 0x161 = .ok (.decLower 0x61) ∧
  decode .decIn 0x139 = .ok (.decDigit 0x39) ∧ decode .decIn 0x140 = .ok (.decInvalid 0x40) ∧
  decode .decIn 0x13D = .ok .decPad ∧ decode .decIn 0x200 = .ok (.decEnd 0x00)

/-- Every byte of a DATA token on `dec_in` falls in exactly the class of R64's table, whose counts are as printed. -/
def Obligations.ByteClassesAsListed : Prop :=
  (∀ c : Byte, decode .decIn (0b01#2 ++ c) = .ok (listedClass c)) ∧
  (∀ c : Byte, listedClass c = .decInvalid c ↔ isListedInvalid c = true) ∧
  (let count := fun (p : Byte → Bool) => ((List.range 256).filter (fun n => p (BitVec.ofNat 8 n))).length
   count (fun c => listedClass c == .decUpper c) = 26 ∧ count (fun c => listedClass c == .decLower c) = 26 ∧
   count (fun c => listedClass c == .decDigit c) = 10 ∧ count (fun c => listedClass c == .decPlus) = 1 ∧
   count (fun c => listedClass c == .decMinus) = 1 ∧ count (fun c => listedClass c == .decSlash) = 1 ∧
   count (fun c => listedClass c == .decUnder) = 1 ∧ count (fun c => listedClass c == .decCr) = 1 ∧
   count (fun c => listedClass c == .decLf) = 1 ∧ count (fun c => listedClass c == .decPad) = 1 ∧
   count (fun c => listedClass c == .decInvalid c) = 187)

/-- The class table DCLASS (R26) is the classification and the value of the instruction a DATA token decodes to. -/
def Obligations.ClassTableIsTheClassification : Prop :=
  ∀ b : Byte, ∃ i : Instr, decode .decIn (0b01#2 ++ b) = .ok i ∧
    match dclass b with
    | .value v => dataChar i = some (b, v)
    | .skip => i = .decCr ∨ i = .decLf
    | .pad => i = .decPad
    | .invalid => i = .decInvalid b

/-- The configuration word (R62): the fields are where the rule puts them, a word is the word of its fields, and the only
illegal words have WRAP_EN = 1 and WRAP_LEN = 0. -/
def Obligations.ConfigurationWordLayout : Prop :=
  ∀ (lw : Nat) (alpha nl pad wrapEn : Bool) (len : BitVec lw) (word : BitVec (4 + lw)),
    (cfgWord alpha nl pad wrapEn len).toNat =
      alpha.toNat + 2 * nl.toNat + 4 * pad.toNat + 8 * wrapEn.toNat + 16 * len.toNat ∧
    cfgAlpha (cfgWord alpha nl pad wrapEn len) = alpha ∧ cfgNl (cfgWord alpha nl pad wrapEn len) = nl ∧
    cfgPad (cfgWord alpha nl pad wrapEn len) = pad ∧ cfgWrapEn (cfgWord alpha nl pad wrapEn len) = wrapEn ∧
    cfgWrapLen (cfgWord alpha nl pad wrapEn len) = len ∧
    cfgWord (cfgAlpha word) (cfgNl word) (cfgPad word) (cfgWrapEn word) (cfgWrapLen word) = word ∧
    (cfgLegal word = false ↔ cfgWrapEn word = true ∧ cfgWrapLen word = 0)

/-- The presets (R63), as words and as fields, for every legal LW. -/
def Obligations.PresetWords : Prop :=
  ∀ lw : Nat, 7 ≤ lw →
    (presetStandard lw).toNat = 6 ∧ (presetUrlSafe lw).toNat = 3 ∧ (presetMime lw).toNat = 14 + 76 * 16 ∧
    presetStandard lw = cfgWord false true true false 0 ∧ presetUrlSafe lw = cfgWord true true false false 0 ∧
    presetMime lw = cfgWord false true true true (BitVec.ofNat lw 76) ∧
    (cfgWrapLen (presetMime lw)).toNat = 76 ∧ cfgLegal (presetStandard lw) = true ∧
    cfgLegal (presetUrlSafe lw) = true ∧ cfgLegal (presetMime lw) = true

/-- The output token formats (R61): the kind is `01` for a byte, with that byte as data, and `10` with data 0 for END and
with the status code for STATUS; so kinds `00` and `11` are never emitted. -/
def Obligations.OutputTokenFormats : Prop :=
  (∀ c : Byte, tokenKind (encOutBits (.char c)) = 0b01 ∧ tokenData (encOutBits (.char c)) = c) ∧
  encOutBits .finish = 0b1000000000 ∧
  (∀ b : Byte, tokenKind (decOutBits (.byte b)) = 0b01 ∧ tokenData (decOutBits (.byte b)) = b) ∧
  decOutBits (.status .ok) = 0b1000000001 ∧ decOutBits (.status .invalidByte) = 0b1000000010 ∧
  decOutBits (.status .invalidLength) = 0b1000000011

/-- The alphabet ROMs (R24): 64 distinct entries each, contents by range, different only at 62 and 63. -/
def Obligations.RomContents : Prop :=
  romStd.length = 64 ∧ romUrl.length = 64 ∧ romStd.Nodup ∧ romUrl.Nodup ∧
  (∀ (alpha : Bool) (i : Sextet),
    (i.toNat ≤ 25 → (romRead alpha i).toNat = 0x41 + i.toNat) ∧
    (26 ≤ i.toNat → i.toNat ≤ 51 → (romRead alpha i).toNat = 0x47 + i.toNat) ∧
    (52 ≤ i.toNat → i.toNat ≤ 61 → (romRead alpha i).toNat = i.toNat - 4)) ∧
  romRead false 62 = 0x2B ∧ romRead false 63 = 0x2F ∧ romRead true 62 = 0x2D ∧ romRead true 63 = 0x5F

/-- The value of a valid data character (R65): by class, and the inverse of both alphabet ROMs at once. -/
def Obligations.CharacterValuesInvertBothRoms : Prop :=
  (∀ c : Byte, (0x41 ≤ c → c ≤ 0x5A → charValue c = some (upperValue c) ∧ (upperValue c).toNat = c.toNat - 0x41) ∧
    (0x61 ≤ c → c ≤ 0x7A → charValue c = some (lowerValue c) ∧ (lowerValue c).toNat = c.toNat - 0x47) ∧
    (0x30 ≤ c → c ≤ 0x39 → charValue c = some (digitValue c) ∧ (digitValue c).toNat = c.toNat + 0x04)) ∧
  charValue 0x2B = some 62 ∧ charValue 0x2D = some 62 ∧ charValue 0x2F = some 63 ∧ charValue 0x5F = some 63 ∧
  (∀ c : Byte, charValue c = none ↔ isListedInvalid c = true ∨ c = 0x0D ∨ c = 0x0A ∨ c = 0x3D) ∧
  (∀ (alpha : Bool) (i : Sextet), charValue (romRead alpha i) = some i)

/-- The four ROM indices of a group in terms of its three bytes (R66, R43). -/
def Obligations.RomIndicesFromBytes : Prop :=
  ∀ b0 b1 b2 : Byte,
    sextet0 (packGroup b0 b1 b2) = b0.extractLsb' 2 6 ∧
    sextet1 (packGroup b0 b1 b2) = (b0.extractLsb' 0 2 ++ b1.extractLsb' 4 4 : BitVec (2 + 4)) ∧
    sextet2 (packGroup b0 b1 b2) = (b1.extractLsb' 0 4 ++ b2.extractLsb' 6 2 : BitVec (4 + 2)) ∧
    sextet3 (packGroup b0 b1 b2) = b2.extractLsb' 0 6

/-- The word of each form of the configuration operand, the token of each assembler line, ignored bits zero, a class line
being accepted exactly when its byte is of the class named (R70), and the expansions of R71. The model's choice, not R70's
(log 11, DESIGN CHOICE): rejecting an operand that does not fit, a number of `2^(4+LW)` or more or a wrap length of `2^LW`
or more, and driving the operand as an event before the token. -/
def Obligations.AssemblerLines : Prop :=
  (∀ lw : Nat,
    CfgOperand.word lw .standard = some (presetStandard lw) ∧ CfgOperand.word lw .urlSafe = some (presetUrlSafe lw) ∧
    CfgOperand.word lw .mime = some (presetMime lw) ∧ CfgOperand.word lw (.fields {}) = some (presetStandard lw) ∧
    (∀ n, n < 2 ^ (4 + lw) → ∃ word, CfgOperand.word lw (.number n) = some word ∧ word.toNat = n) ∧
    (∀ n, 2 ^ (4 + lw) ≤ n → CfgOperand.word lw (.number n) = none) ∧
    (∀ f : CfgFields, f.wrap = none ∨ (∃ n, f.wrap = some n ∧ 1 ≤ n ∧ n < 2 ^ lw) →
      ∃ word, CfgOperand.word lw (.fields f) = some word ∧
        (∀ url, f.url = some url → cfgAlpha word = url) ∧ (f.url = none → cfgAlpha word = cfgAlpha (presetStandard lw)) ∧
        (∀ crlf, f.crlf = some crlf → cfgNl word = crlf) ∧ (f.crlf = none → cfgNl word = cfgNl (presetStandard lw)) ∧
        (∀ pad, f.pad = some pad → cfgPad word = pad) ∧ (f.pad = none → cfgPad word = cfgPad (presetStandard lw)) ∧
        (∀ n, f.wrap = some n → cfgWrapEn word = true ∧ (cfgWrapLen word).toNat = n) ∧
        (f.wrap = none → cfgWrapEn word = false ∧ cfgWrapLen word = 0)) ∧
    (∀ (f : CfgFields) (n : Nat), f.wrap = some n → n = 0 ∨ 2 ^ lw ≤ n → CfgOperand.word lw (.fields f) = none)) ∧
  (∀ (lw : Nat) (i : Instr),
    (∀ c, decDataByte i = some c →
      (listedClass c = i → assemble lw (.decClass i) = some [.decToken (BitVec.ofNat 10 (0x100 + c.toNat))]) ∧
      (listedClass c ≠ i → assemble lw (.decClass i) = none)) ∧
    (decDataByte i = none → assemble lw (.decClass i) = none)) ∧
  ∀ (lw : Nat) (b : Byte) (bytes : List Byte) (cfg : CfgOperand) (word : BitVec (4 + lw)),
    assemble lw (.encData b) = some [.encToken (BitVec.ofNat 10 (0x100 + b.toNat))] ∧
    assemble lw (.decData b) = some [.decToken (BitVec.ofNat 10 (0x100 + b.toNat))] ∧
    assemble lw .encEnd = some [.encToken 0x200] ∧ assemble lw .decEnd = some [.decToken 0x200] ∧
    assemble lw .decStart = some [.decToken 0x000] ∧
    (cfg.word lw = some word → assemble lw (.encStart cfg) = some [.driveCfg word, .encToken 0x000] ∧
      assemble lw (.encode bytes cfg) =
        assembleProgram lw (.encStart cfg :: bytes.map .encData ++ [.encEnd])) ∧
    assemble lw (.decode bytes) = assembleProgram lw (.decStart :: bytes.map .decData ++ [.decEnd]) ∧
    assemble lw (.encStr bytes) = assembleProgram lw (bytes.map .encData) ∧
    assemble lw (.decStr bytes) = assembleProgram lw (bytes.map .decData)

/-! ### The encoder's instructions -/

/-- ENC.START (R80): refused in RUN and on the illegal word; else all five registers are written, nothing is emitted,
and nothing else changes. -/
def Obligations.EncStartLatchesConfiguration : Prop :=
  ∀ (ignored : Byte) (s : State),
    (s.enc.st = .run → exec (.encStart ignored) s = .refused .protocolViolation) ∧
    (s.enc.st ≠ .run → cfgWrapEn s.encCfgI = true → cfgWrapLen s.encCfgI = 0 →
      exec (.encStart ignored) s = .refused .illegalConfiguration) ∧
    (s.enc.st ≠ .run → (cfgWrapEn s.encCfgI = true → cfgWrapLen s.encCfgI ≠ 0) →
      exec (.encStart ignored) s =
        .next { s with enc := { st := .run, cfg := s.encCfgI, acc := 0, bcnt := .zero, lcnt := 0 } })

/-- ENC.DATA (R81, with R83 and R84): the first byte overwrites the pack register, the second is ORed in, the third
completes the group, after the wrap check; nothing else changes. -/
def Obligations.EncDataPacksAndEmits : Prop :=
  ∀ (b : Byte) (s : State),
    (s.enc.st ≠ .run → exec (.encData b) s = .refused .protocolViolation) ∧
    (s.enc.st = .run → s.enc.bcnt = .zero →
      exec (.encData b) s = .next { s with enc := { s.enc with acc := b.setWidth 24 <<< 16, bcnt := .one } }) ∧
    (s.enc.st = .run → s.enc.bcnt = .one →
      exec (.encData b) s =
        .next { s with enc := { s.enc with acc := s.enc.acc ||| b.setWidth 24 <<< 8, bcnt := .two } }) ∧
    (s.enc.st = .run → s.enc.bcnt = .two → cfgWrapEn s.enc.cfg = false →
      exec (.encData b) s =
        .next { s with
          enc := { s.enc with acc := s.enc.acc ||| b.setWidth 24, bcnt := .zero },
          encOut := s.encOut ++ groupTokens s.enc.cfg (s.enc.acc ||| b.setWidth 24) }) ∧
    (s.enc.st = .run → s.enc.bcnt = .two → cfgWrapEn s.enc.cfg = true →
      s.enc.lcnt.toNat < (cfgWrapLen s.enc.cfg).toNat →
      exec (.encData b) s =
        .next { s with
          enc := { s.enc with acc := s.enc.acc ||| b.setWidth 24, bcnt := .zero, lcnt := s.enc.lcnt + 4 },
          encOut := s.encOut ++ groupTokens s.enc.cfg (s.enc.acc ||| b.setWidth 24) }) ∧
    (s.enc.st = .run → s.enc.bcnt = .two → cfgWrapEn s.enc.cfg = true →
      (cfgWrapLen s.enc.cfg).toNat ≤ s.enc.lcnt.toNat →
      exec (.encData b) s =
        .next { s with
          enc := { s.enc with acc := s.enc.acc ||| b.setWidth 24, bcnt := .zero, lcnt := 0 + 4 },
          encOut := s.encOut ++ newlineTokens s.enc.cfg ++
            groupTokens s.enc.cfg (s.enc.acc ||| b.setWidth 24) })

/-- ENC.END (R82, with R83 and R84): the tail by the bytes pending, its wrap check first, pads after it when PAD = 1,
then END; the datapath registers cleared, the configuration kept, nothing else changed. -/
def Obligations.EncEndEmitsTail : Prop :=
  ∀ (ignored : Byte) (s : State),
    let n := s.enc.acc
    let lead := tokensBefore s.enc.cfg s.enc.lcnt
    let ended : EncRegs s.params.lw :=
      { st := .done, cfg := s.enc.cfg, acc := 0, bcnt := .zero, lcnt := 0 }
    (s.enc.st ≠ .run → exec (.encEnd ignored) s = .refused .protocolViolation) ∧
    (s.enc.st = .run → s.enc.bcnt = .zero →
      exec (.encEnd ignored) s = .next { s with enc := ended, encOut := s.encOut ++ [.finish] }) ∧
    (s.enc.st = .run → s.enc.bcnt = .one →
      exec (.encEnd ignored) s =
        .next { s with
          enc := ended,
          encOut := s.encOut ++ (lead ++ (groupTokens s.enc.cfg n).take 2 ++
            (if cfgPad s.enc.cfg = true then [.char 0x3D, .char 0x3D] else []) ++ [.finish]) }) ∧
    (s.enc.st = .run → s.enc.bcnt = .two →
      exec (.encEnd ignored) s =
        .next { s with
          enc := ended,
          encOut := s.encOut ++ (lead ++ (groupTokens s.enc.cfg n).take 3 ++
            (if cfgPad s.enc.cfg = true then [.char 0x3D] else []) ++ [.finish]) })

/-- The encoder's transition table (R85), kind `11` included, and inside RUN the cycle 0, 1, 2, 0 of `ENC_BCNT`; a step
ends after at most 7 emits. -/
def Obligations.EncoderTransitionTable : Prop :=
  ∀ (s : State) (w : Token),
    match encTransition s.enc.st (tokenKind w) (cfgLegal s.encCfgI) with
    | none => ∃ why, receiveToken .encIn w s = .refused why
    | some st' => ∃ (r : EncRegs s.params.lw) (out : List EncOut),
        receiveToken .encIn w s = .next { s with enc := r, encOut := s.encOut ++ out } ∧ r.st = st' ∧
        out.length ≤ 7 ∧
        (tokenKind w = 0b01 →
          (s.enc.bcnt = .zero → r.bcnt = .one) ∧ (s.enc.bcnt = .one → r.bcnt = .two) ∧
          (s.enc.bcnt = .two → r.bcnt = .zero)) ∧
        (tokenKind w ≠ 0b01 → r.bcnt = .zero)

/-- Every CHAR token an encoder step emits is allowed by the latched configuration (R87): an entry of the selected ROM;
`=` only with PAD = 1, and only from ENC.END; LF or CR only with WRAP_EN = 1, CR only with NL = 1. Bit 7 is clear. -/
def Obligations.EncoderEmitsOnlyAllowedText : Prop :=
  ∀ (i : Instr) (s : State) (r : EncRegs s.params.lw) (out : List EncOut) (c : Byte), i.port = .encIn →
    exec i s = .next { s with enc := r, encOut := s.encOut ++ out } → EncOut.char c ∈ out →
    textByteOf s.enc.cfg c = true ∧ c.getLsbD 7 = false ∧ (c = 0x3D → ∃ ignored, i = .encEnd ignored)

/-- The frame of the encoder's instructions (R10, R12, R28, R52): only ENC's registers and `enc_out` change, tokens are
only appended, and only ENC.START writes the configuration. -/
def Obligations.EncoderStepsTouchOnlyEnc : Prop :=
  ∀ (i : Instr) (s t : State), i.port = .encIn → exec i s = .next t →
    ∃ (r : EncRegs s.params.lw) (out : List EncOut), t = { s with enc := r, encOut := s.encOut ++ out } ∧
      ((∀ ignored, i ≠ .encStart ignored) → r.cfg = s.enc.cfg)

/-- Under the invariant the line count never wraps in `LW + 1` bits (R15, R141 (d)): after a full group with wrapping
enabled it is 4 more than the count the wrap check left, as numbers. -/
def Obligations.LineCountNeverOverflows : Prop :=
  ∀ (b : Byte) (s : State) (r : EncRegs s.params.lw) (out : List EncOut), Inv s → s.enc.bcnt = .two →
    cfgWrapEn s.enc.cfg = true → exec (.encData b) s = .next { s with enc := r, encOut := out } →
    r.lcnt.toNat = (if (cfgWrapLen s.enc.cfg).toNat ≤ s.enc.lcnt.toNat then 0 else s.enc.lcnt.toNat) + 4

/-! ### The decoder's instructions -/

/-- DEC.START (R100): all seven registers are written in a resting state, nothing is emitted; refused while an operation
is open, FAILED included. -/
def Obligations.DecStartOpensOperation : Prop :=
  ∀ (ignored : Byte) (s : State),
    (s.dec.st = .accumulating ∨ s.dec.st = .terminatedByPad ∨ s.dec.st = .failed →
      exec (.decStart ignored) s = .refused .protocolViolation) ∧
    (s.dec.st = .idle ∨ s.dec.st = .done →
      exec (.decStart ignored) s =
        .next { s with dec := { st := .accumulating, acc := 0, mod := 0, pos := 0, status := .none,
                                errByte := 0, errPos := 0 } })

/-- The prologue and the end of every DATA step (R115), for all eleven classes: refused in a resting state; no effect at
all in FAILED; refused at the last position, whatever the byte; else the step completes, and the position is one more
unless the byte fails. -/
def Obligations.DataPrologueOfEveryClass : Prop :=
  ∀ (i : Instr) (c : Byte) (s : State), decDataByte i = some c →
    PrologueHolds i s ∧
    (s.dec.st = .accumulating ∨ s.dec.st = .terminatedByPad → s.dec.pos.toNat ≠ 2 ^ s.params.pw - 1 →
      ∃ (r : DecRegs s.params.pw) (out : List DecOut),
        exec i s = .next { s with dec := r, decOut := s.decOut ++ out } ∧
        r.pos = if r.st = .failed then s.dec.pos else s.dec.pos + 1)

/-- DEC.UPPER, DEC.LOWER, DEC.DIGIT, DEC.PLUS, DEC.MINUS, DEC.SLASH and DEC.UNDER (R101 to R108): the prologue; with room
for the byte, in ACCUMULATING the value is shifted in and the fourth emits three bytes, in TERMINATED_BY_PAD it is an
invalid byte. Nothing else changes. -/
def Obligations.DataCharacterAccumulates : Prop :=
  ∀ (i : Instr) (c : Byte) (v : Sextet) (s : State), dataChar i = some (c, v) → i.wf = true →
    PrologueHolds i s ∧
    (s.dec.pos.toNat ≠ 2 ^ s.params.pw - 1 →
      let a := s.dec.acc <<< 6 ||| v.setWidth 32
      (s.dec.st = .accumulating → s.dec.mod ≠ 3 →
        exec i s = .next { s with dec := { s.dec with acc := a, mod := s.dec.mod + 1, pos := s.dec.pos + 1 } }) ∧
      (s.dec.st = .accumulating → s.dec.mod = 3 →
        exec i s =
          .next { s with
            dec := { s.dec with acc := a, mod := 0, pos := s.dec.pos + 1 },
            decOut := s.decOut ++
              [.byte (a.extractLsb' 16 8), .byte (a.extractLsb' 8 8), .byte (a.extractLsb' 0 8)] }) ∧
      (s.dec.st = .terminatedByPad →
        exec i s =
          .next { s with
            dec := { s.dec with status := .invalidByte, errByte := c, errPos := s.dec.pos, st := .failed },
            decOut := s.decOut ++ [.status .invalidByte] }))

/-- DEC.CR and DEC.LF (R109, R110): the prologue; with room for the byte, in either scanning state only `DEC_POS`
changes. -/
def Obligations.LineBreaksOnlyAdvance : Prop :=
  ∀ (i : Instr) (s : State), i = .decCr ∨ i = .decLf →
    PrologueHolds i s ∧
    (s.dec.st = .accumulating ∨ s.dec.st = .terminatedByPad → s.dec.pos.toNat ≠ 2 ^ s.params.pw - 1 →
      exec i s = .next { s with dec := { s.dec with pos := s.dec.pos + 1 } })

/-- DEC.PAD (R111): the prologue; with room for the byte, the first pad ends the data, a later one only advances;
accumulator and modulus stay. -/
def Obligations.PadEndsData : Prop :=
  ∀ s : State,
    PrologueHolds .decPad s ∧
    (s.dec.st = .accumulating ∨ s.dec.st = .terminatedByPad → s.dec.pos.toNat ≠ 2 ^ s.params.pw - 1 →
      exec .decPad s = .next { s with dec := { s.dec with st := .terminatedByPad, pos := s.dec.pos + 1 } })

/-- DEC.INVALID (R112): the prologue; with room for the byte, in either scanning state, the invalid-byte error (R114,
R154). Accumulator, modulus and position stay. -/
def Obligations.InvalidByteIsRecorded : Prop :=
  ∀ (c : Byte) (s : State),
    PrologueHolds (.decInvalid c) s ∧
    (s.dec.st = .accumulating ∨ s.dec.st = .terminatedByPad → s.dec.pos.toNat ≠ 2 ^ s.params.pw - 1 →
      exec (.decInvalid c) s =
        .next { s with
          dec := { s.dec with status := .invalidByte, errByte := c, errPos := s.dec.pos, st := .failed },
          decOut := s.decOut ++ [.status .invalidByte] })

/-- DEC.END (R113): finalization by the modulus in a scanning state, nothing emitted from FAILED, refused in a resting
state; the unit ends in DONE with the datapath cleared. -/
def Obligations.DecEndFinalizes : Prop :=
  ∀ (ignored : Byte) (s : State),
    let a := s.dec.acc
    let ended : DecRegs s.params.pw := { s.dec with acc := 0, mod := 0, pos := 0, st := .done }
    let scanning := s.dec.st = .accumulating ∨ s.dec.st = .terminatedByPad
    (s.dec.st = .idle ∨ s.dec.st = .done → exec (.decEnd ignored) s = .refused .protocolViolation) ∧
    (scanning → s.dec.mod = 0 →
      exec (.decEnd ignored) s =
        .next { s with dec := { ended with status := .ok }, decOut := s.decOut ++ [.status .ok] }) ∧
    (scanning → s.dec.mod = 1 →
      exec (.decEnd ignored) s =
        .next { s with dec := { ended with status := .invalidLength },
                       decOut := s.decOut ++ [.status .invalidLength] }) ∧
    (scanning → s.dec.mod = 2 →
      exec (.decEnd ignored) s =
        .next { s with dec := { ended with status := .ok },
                       decOut := s.decOut ++ [.byte (a.extractLsb' 4 8), .status .ok] }) ∧
    (scanning → s.dec.mod = 3 →
      exec (.decEnd ignored) s =
        .next { s with dec := { ended with status := .ok },
                       decOut := s.decOut ++
                         [.byte (a.extractLsb' 10 8), .byte (a.extractLsb' 2 8), .status .ok] }) ∧
    (s.dec.st = .failed → exec (.decEnd ignored) s = .next { s with dec := ended })

/-- The decoder's transition table (R116), with the position test in the scanning states and kind `11` refused. -/
def Obligations.DecoderTransitionTable : Prop :=
  (∀ (i : Instr) (col : DecColumn) (s : State), decColumn i = some col →
    let full := (s.dec.st = .accumulating ∨ s.dec.st = .terminatedByPad) ∧
      s.dec.pos.toNat = 2 ^ s.params.pw - 1 ∧ col ≠ .start ∧ col ≠ .finish
    (full → exec i s = .refused .positionOverflow) ∧
    (¬ full →
      match decTransition s.dec.st col with
      | none => exec i s = .refused .protocolViolation
      | some st' => ∃ (r : DecRegs s.params.pw) (out : List DecOut),
          exec i s = .next { s with dec := r, decOut := s.decOut ++ out } ∧ r.st = st')) ∧
  (∀ (w : Token) (s : State), tokenKind w = 0b11 → receiveToken .decIn w s = .refused .reservedToken)

/-- The frame of the decoder's instructions (R10, R28, R52): only DEC's registers and `dec_out` change, tokens are only
appended, and the error record is written by DEC.START and by an invalid byte only. -/
def Obligations.DecoderStepsTouchOnlyDec : Prop :=
  ∀ (i : Instr) (s t : State), i.port = .decIn → exec i s = .next t →
    ∃ (r : DecRegs s.params.pw) (out : List DecOut), t = { s with dec := r, decOut := s.decOut ++ out } ∧
      ((∀ ignored, i ≠ .decStart ignored) → DecOut.status .invalidByte ∉ out →
        r.errByte = s.dec.errByte ∧ r.errPos = s.dec.errPos)

/-- The two data errors arise exactly as R150 lists them, and a step emits at most one STATUS token, which carries the
new `DEC_STATUS`. -/
def Obligations.ErrorsAriseOnlyAsListed : Prop :=
  ∀ (i : Instr) (s : State) (r : DecRegs s.params.pw) (out : List DecOut), i.wf = true → i.port = .decIn →
    exec i s = .next { s with dec := r, decOut := s.decOut ++ out } →
    (DecOut.status .invalidByte ∈ out ↔
      ∃ c, decDataByte i = some c ∧
        ((s.dec.st = .accumulating ∧ isListedInvalid c = true) ∨
         (s.dec.st = .terminatedByPad ∧ c ≠ 0x3D ∧ c ≠ 0x0D ∧ c ≠ 0x0A))) ∧
    (DecOut.status .invalidLength ∈ out ↔
      (∃ ignored, i = .decEnd ignored) ∧ (s.dec.st = .accumulating ∨ s.dec.st = .terminatedByPad) ∧ s.dec.mod = 1) ∧
    (∀ code, DecOut.status code ∈ out → code = r.status ∧ code ≠ .none) ∧
    out.countP isStatusToken ≤ 1

/-- Leaving an invalid-byte error (R155): from FAILED any DATA tokens are consumed with no effect, and END goes to DONE
with the status and the error record kept and nothing emitted. -/
def Obligations.FailedDrainsUntilEnd : Prop :=
  ∀ (s : State) (bytes : List Byte) (ignored : Byte) (rest : List (HostEvent s.params.lw)), s.dec.st = .failed →
    s.host = bytes.map (fun b => .decToken (mkToken 0b01 b)) ++ .decToken (mkToken 0b10 ignored) :: rest →
    run bytes.length s =
      .next { s with host := .decToken (mkToken 0b10 ignored) :: rest } ∧
    run (bytes.length + 1) s =
      .next { s with dec := { s.dec with acc := 0, mod := 0, pos := 0, st := .done }, host := rest }

/-- The bits of `DEC_ACC` above 23 are never observed (R17): two decoders that agree on everything else take every token
to the same outcome, output and registers, up to those bits. -/
def Obligations.HighAccumulatorBitsNeverObserved : Prop :=
  ∀ (s : State) (acc : BitVec 32) (w : Token) (r : DecRegs s.params.pw) (out : List DecOut),
    acc.extractLsb' 0 24 = s.dec.acc.extractLsb' 0 24 →
    receiveToken .decIn w s = .next { s with dec := r, decOut := out } →
    ∃ acc' : BitVec 32, acc'.extractLsb' 0 24 = r.acc.extractLsb' 0 24 ∧
      receiveToken .decIn w { s with dec := { s.dec with acc := acc } } =
        .next { s with dec := { r with acc := acc' }, decOut := out }

/-! ### The whole machine -/

/-- When the next event delivers a token that decodes to an instruction, step is exec of it on the state with the event
consumed: nothing is added around exec (R8, R41). -/
def Obligations.StepRunsDecodedInstruction : Prop :=
  ∀ (s : State) (p : Port) (w : Token) (i : Instr) (rest : List (HostEvent s.params.lw)),
    s.host = tokenEvent s.params.lw p w :: rest → decode p w = .ok i → step s = exec i { s with host := rest }

/-- What the host's other events do (R30, R54 (b), R170), and that without one the block waits with its registers held
(R163; the stuttering step is the model's form, log 3). Beyond a refusal (R160, U7; the layer Block is the model's form,
log 6): a token that step refuses puts its unit, and that unit only, outside the spec, the other unit and its stream
untouched, and from any such situation `rst` takes both units to their reset values and back into the spec. -/
def Obligations.StepOfOtherEvents : Prop :=
  (∀ (s : State) (cfg : BitVec (4 + s.params.lw)) (rest : List (HostEvent s.params.lw)),
    (s.host = .driveCfg cfg :: rest → step s = .next { s with encCfgI := cfg, host := rest }) ∧
    (s.host = .rst :: rest →
      step s = .next { s with enc := EncRegs.reset s.params.lw, dec := DecRegs.reset s.params.pw, host := rest }) ∧
    (s.host = [] → step s = .next s)) ∧
  (∀ (x : Stray) (s : State) (w : Token) (rest : List (HostEvent s.params.lw)) (why : Refusal),
    step s = .refused why →
    (s.host = .encToken w :: rest → ∃ (r : EncRegs s.params.lw) (out : List EncOut),
      Block.step x { state := s, encLost := false, decLost := false } =
        { state := { s with enc := r, encOut := s.encOut ++ out, host := rest }, encLost := true, decLost := false }) ∧
    (s.host = .decToken w :: rest → ∃ (r : DecRegs s.params.pw) (out : List DecOut),
      Block.step x { state := s, encLost := false, decLost := false } =
        { state := { s with dec := r, decOut := s.decOut ++ out, host := rest }, encLost := false, decLost := true })) ∧
  (∀ (x : Stray) (s t : State), step s = .next t →
    Block.step x { state := s, encLost := false, decLost := false } = { state := t, encLost := false, decLost := false }) ∧
  (∀ (x : Stray) (b : Block) (rest : List (HostEvent b.state.params.lw)), b.state.host = .rst :: rest →
    Block.step x b =
      { state := { b.state with
          enc := EncRegs.reset b.state.params.lw, dec := DecRegs.reset b.state.params.pw, host := rest },
        encLost := false, decLost := false })

/-- A table word placed by withFetchWord is what the very next step runs; where the decoder refuses it, so does step.
About the model's own placing of a word (log 8). -/
def Obligations.PlacedWordRunsNext : Prop :=
  ∀ (s : State) (nbits w : Nat),
    step (s.withFetchWord nbits w) =
      match decodeTableWord nbits w with
      | some i => exec i s
      | none => .refused .reservedToken

/-- The reset values (R31), after power-up and after every `rst`. That `rst` leaves the level on `enc_cfg_i` (R30; log 4,
DESIGN CHOICE) and both output streams (R170; log 5, DEDUCED) as they are is the model's reading, not R31's. -/
def Obligations.ResetRegisterValues : Prop :=
  (∀ p : Params,
    (State.resetWith p).enc = { st := .idle, cfg := 0, acc := 0, bcnt := .zero, lcnt := 0 } ∧
    (State.resetWith p).dec =
      { st := .idle, acc := 0, mod := 0, pos := 0, status := .none, errByte := 0, errPos := 0 }) ∧
  (∀ (s : State) (rest : List (HostEvent s.params.lw)), s.host = .rst :: rest →
    step s = .next { s with
      enc := { st := .idle, cfg := 0, acc := 0, bcnt := .zero, lcnt := 0 },
      dec := { st := .idle, acc := 0, mod := 0, pos := 0, status := .none, errByte := 0, errPos := 0 },
      host := rest })

/-- The status ports and the busy conditions (R23), with the codes of R11, R16 and R20. -/
def Obligations.StatusPorts : Prop :=
  ∀ s : State,
    (encStPort s = 0 ↔ s.enc.st = .idle) ∧ (encStPort s = 1 ↔ s.enc.st = .run) ∧
    (encStPort s = 2 ↔ s.enc.st = .done) ∧
    (decStPort s = 0 ↔ s.dec.st = .idle) ∧ (decStPort s = 1 ↔ s.dec.st = .accumulating) ∧
    (decStPort s = 2 ↔ s.dec.st = .terminatedByPad) ∧ (decStPort s = 3 ↔ s.dec.st = .failed) ∧
    (decStPort s = 4 ↔ s.dec.st = .done) ∧
    (decStatusPort s = 0 ↔ s.dec.status = .none) ∧ (decStatusPort s = 1 ↔ s.dec.status = .ok) ∧
    (decStatusPort s = 2 ↔ s.dec.status = .invalidByte) ∧ (decStatusPort s = 3 ↔ s.dec.status = .invalidLength) ∧
    decErrBytePort s = s.dec.errByte ∧ decErrPosPort s = s.dec.errPos ∧
    (encBusy s = true ↔ s.enc.st = .run) ∧
    (decBusy s = true ↔ s.dec.st = .accumulating ∨ s.dec.st = .terminatedByPad ∨ s.dec.st = .failed)

/-- A step is refused exactly for the reasons of R150 and R160, tested in the order of R157; in every other case the
instruction completes; it never faults. -/
def Obligations.RefusedExactlyAsListed : Prop :=
  ∀ (i : Instr) (s : State),
    match refusalOf i s with
    | some why => exec i s = .refused why
    | none => ∃ t, exec i s = .next t

/-- The encoder raises no error (R153): an encoder step leaves the decoder's status alone, and in RUN every byte and END
complete. -/
def Obligations.EncoderRaisesNoError : Prop :=
  ∀ (s : State) (b ignored : Byte), s.enc.st = .run →
    (∃ (r : EncRegs s.params.lw) (out : List EncOut),
      exec (.encData b) s = .next { s with enc := r, encOut := s.encOut ++ out } ∧ r.st = .run) ∧
    (∃ (r : EncRegs s.params.lw) (out : List EncOut),
      exec (.encEnd ignored) s = .next { s with enc := r, encOut := s.encOut ++ out } ∧ r.st = .done)

/-- The bounds on the output list of a step (R176), per instruction. -/
def Obligations.OutputBoundsPerStep : Prop :=
  (∀ (i : Instr) (s : State) (r : EncRegs s.params.lw) (out : List EncOut),
    exec i s = .next { s with enc := r, encOut := s.encOut ++ out } →
    (∀ x, i = .encStart x → out.length = 0) ∧
    (∀ b, i = .encData b → s.enc.bcnt ≠ .two → out.length = 0) ∧
    (∀ b, i = .encData b → s.enc.bcnt = .two → out.length = 4 ∨ out.length = 5 ∨ out.length = 6) ∧
    (∀ x, i = .encEnd x → s.enc.bcnt = .zero → out.length = 1) ∧
    (∀ x, i = .encEnd x → s.enc.bcnt ≠ .zero → 3 ≤ out.length ∧ out.length ≤ 7)) ∧
  (∀ (i : Instr) (s : State) (r : DecRegs s.params.pw) (out : List DecOut),
    exec i s = .next { s with dec := r, decOut := s.decOut ++ out } →
    (∀ x, i = .decStart x → out.length = 0) ∧
    (∀ c, decDataByte i = some c →
      out = [] ∨ (∃ b0 b1 b2, out = [.byte b0, .byte b1, .byte b2]) ∨ out = [.status .invalidByte]) ∧
    (∀ x, i = .decEnd x → s.dec.st = .failed → out.length = 0) ∧
    (∀ x, i = .decEnd x → s.dec.st ≠ .failed → 1 ≤ out.length ∧ out.length ≤ 3))

/-- `enc_cfg_i` is sampled by ENC.START and by no other instruction (R54 (b)): changing the level before any other
instruction changes nothing that instruction does. -/
def Obligations.ConfigurationSampledOnlyAtStart : Prop :=
  ∀ (i : Instr) (s : State) (cfg : BitVec (4 + s.params.lw)) (r : EncRegs s.params.lw) (q : DecRegs s.params.pw)
    (out : List EncOut) (dout : List DecOut), (∀ ignored, i ≠ .encStart ignored) →
    (exec i s = .next { s with enc := r, dec := q, encOut := out, decOut := dout } ↔
      exec i { s with encCfgI := cfg } =
        .next { s with encCfgI := cfg, enc := r, dec := q, encOut := out, decOut := dout })

/-- `DEC_POS` never wraps (R19, R141 (i)), over every instruction of either unit that completes: a DATA step of the
decoder leaves it or makes it one more as a number; DEC.START and DEC.END clear it; an encoder step leaves it. -/
def Obligations.PositionNeverWraps : Prop :=
  ∀ (i : Instr) (s t : State), exec i s = .next t →
    (∀ c, decDataByte i = some c →
      t.dec.pos.toNat = s.dec.pos.toNat ∨ t.dec.pos.toNat = s.dec.pos.toNat + 1) ∧
    (∀ ignored, i = .decStart ignored ∨ i = .decEnd ignored → t.dec.pos.toNat = 0) ∧
    (i.port = .encIn → t.dec.pos.toNat = s.dec.pos.toNat)

/-- The model's invariant holds at reset, for every legal choice of the parameters. -/
def Obligations.ResetMeetsInvariant : Prop :=
  (∀ p : Params, p.wf = true → Inv (State.resetWith p)) ∧ Inv State.reset

/-- Every step keeps the invariant (Inv in Safety.lean, which cites R11 to R22, R31, R61, R87 and R141 clause by
clause). -/
def Obligations.StepKeepsInvariant : Prop :=
  ∀ s t : State, Inv s → step s = .next t → Inv t

/-- Every step keeps the parameters, and emitted tokens are never reordered, merged, dropped or changed (R42). -/
def Obligations.OutputStreamsOnlyGrow : Prop :=
  ∀ s t : State, step s = .next t →
    t.params = s.params ∧ (∃ out, t.encOut = s.encOut ++ out) ∧ (∃ out, t.decOut = s.decOut ++ out)

/-- The interleaving of the two units does not matter (R52): two orders of delivery with the same tokens for each unit
take the block to the same state, when one of them is not refused. -/
def Obligations.InterleavingDoesNotMatter : Prop :=
  ∀ (s t : State) (one two rest : List (HostEvent s.params.lw)),
    one.all isTokenEvent = true → two.all isTokenEvent = true → encTokensOf one = encTokensOf two →
    decTokensOf one = decTokensOf two → run one.length { s with host := one ++ rest } = .next t →
    run two.length { s with host := two ++ rest } = .next t

/-- START sets every register an operation reads (R140): whatever an earlier operation left in a resting unit, the run
from START on is the same. -/
def Obligations.StartErasesHistory : Prop :=
  ∀ (s : State) (e1 e2 : EncRegs s.params.lw) (d1 d2 : DecRegs s.params.pw) (x : Byte) (k : Nat)
    (rest : List (HostEvent s.params.lw)),
    (encResting e1.st = true → encResting e2.st = true →
      run (k + 1) { s with enc := e1, host := .encToken (mkToken 0b00 x) :: rest } =
        run (k + 1) { s with enc := e2, host := .encToken (mkToken 0b00 x) :: rest }) ∧
    (decResting d1.st = true → decResting d2.st = true →
      run (k + 1) { s with dec := d1, host := .decToken (mkToken 0b00 x) :: rest } =
        run (k + 1) { s with dec := d2, host := .decToken (mkToken 0b00 x) :: rest })

/-- A host that keeps the duties of R172 is never refused, for as long as it likes, from any state with both units
resting. -/
def Obligations.HostDutiesAvoidEveryRefusal : Prop :=
  ∀ (s : State) (k : Nat), encResting s.enc.st = true → decResting s.dec.st = true →
    keepsDuties s.params.pw { encOpen := false, decCount := none, cfg := s.encCfgI } s.host = true →
    ∃ t, run k s = .next t

/-! ### Whole operations -/

/-- The token program computes `encode` (R132, R175), from every state with ENC resting and a legal word on the port. -/
def Obligations.EncodeProgramComputesEncode : Prop :=
  ∀ (s : State) (bytes : List Byte) (rest : List (HostEvent s.params.lw)), s.params.wf = true →
    encResting s.enc.st = true → cfgLegal s.encCfgI = true →
    s.host = operationEvents s.params.lw .encIn bytes ++ rest →
    run (bytes.length + 2) s =
      .next { s with
        enc := { EncRegs.reset s.params.lw with st := .done, cfg := s.encCfgI },
        encOut := s.encOut ++ (encodeText s.encCfgI bytes).map .char ++ [.finish],
        host := rest }

/-- The token program computes `decode` (R133, R175), from every state with DEC resting, with the bytes that are void on
an error and the step at which an error's STATUS token appears. -/
def Obligations.DecodeProgramComputesDecode : Prop :=
  ∀ (s : State) (bytes : List Byte) (rest : List (HostEvent s.params.lw)), decResting s.dec.st = true →
    bytes.length < 2 ^ s.params.pw → s.host = operationEvents s.params.lw .decIn bytes ++ rest →
    let ended : DecRegs s.params.pw := { DecRegs.reset s.params.pw with st := .done }
    let groups := (completeGroupBytes (dataValues bytes)).map DecOut.byte
    match decodeText bytes with
    | .ok out =>
      run (bytes.length + 2) s =
        .next { s with
          dec := { ended with status := .ok },
          decOut := s.decOut ++ out.map .byte ++ [.status .ok],
          host := rest }
    | .invalidLength =>
      (∃ t, run (bytes.length + 1) s = .next t ∧ t.decOut = s.decOut ++ groups) ∧
      run (bytes.length + 2) s =
        .next { s with
          dec := { ended with status := .invalidLength },
          decOut := s.decOut ++ groups ++ [.status .invalidLength],
          host := rest }
    | .invalidByte c i =>
      i < bytes.length ∧
      (∃ t, run (i + 1) s = .next t ∧ t.decOut = s.decOut ++ groups) ∧
      (∃ t, run (i + 2) s = .next t ∧ t.decOut = s.decOut ++ groups ++ [.status .invalidByte]) ∧
      run (bytes.length + 2) s =
        .next { s with
          dec := { ended with status := .invalidByte, errByte := c, errPos := BitVec.ofNat s.params.pw i },
          decOut := s.decOut ++ groups ++ [.status .invalidByte],
          host := rest } ∧
      (BitVec.ofNat s.params.pw i).toNat = i

/-- Round trip (R134). -/
def Obligations.DecodeOfEncodeIsIdentity : Prop :=
  ∀ (lw : Nat) (cfg : BitVec (4 + lw)) (v : List Byte), cfgLegal cfg = true → decodeText (encodeText cfg v) = .ok v

/-- Round trip through the hardware (R134, wired as R173 (f) says): the text ENC emits, sent to DEC, brings the bytes
back; and the results of the two operations, observed as R171 defines them, are the text and the bytes. -/
def Obligations.HardwareRoundTrip : Prop :=
  ∀ (s : State) (v : List Byte), s.params.wf = true → encResting s.enc.st = true → decResting s.dec.st = true →
    cfgLegal s.encCfgI = true → (encodeText s.encCfgI v).length < 2 ^ s.params.pw →
    s.host = operationEvents s.params.lw .encIn v ++
      operationEvents s.params.lw .decIn (encodeText s.encCfgI v) →
    let k := v.length + 2 + ((encodeText s.encCfgI v).length + 2)
    (∃ (t : State) (out : List EncOut),
      run k s = .next t ∧
      t.encOut = s.encOut ++ out ∧ encodedText out = encodeText s.encCfgI v ∧
      t.decOut = s.decOut ++ v.map .byte ++ [.status .ok] ∧ t.dec.status = .ok) ∧
    (watch k s .start).texts = [encodeText s.encCfgI v] ∧ (watch k s .start).decoded = [.ok v]

/-- Empty input (R135), as functions and as token programs: START then END emits only END, or only STATUS(OK). -/
def Obligations.EmptyInputGivesEmptyOutput : Prop :=
  (∀ (lw : Nat) (cfg : BitVec (4 + lw)), cfgLegal cfg = true → encodeText cfg [] = []) ∧ decodeText [] = .ok [] ∧
  (∀ (s : State) (x y : Byte) (rest : List (HostEvent s.params.lw)), encResting s.enc.st = true →
    cfgLegal s.encCfgI = true →
    s.host = .encToken (mkToken 0b00 x) :: .encToken (mkToken 0b10 y) :: rest →
    run 2 s = .next { s with
      enc := { st := .done, cfg := s.encCfgI, acc := 0, bcnt := .zero, lcnt := 0 },
      encOut := s.encOut ++ [.finish], host := rest }) ∧
  (∀ (s : State) (x y : Byte) (rest : List (HostEvent s.params.lw)), decResting s.dec.st = true →
    s.host = .decToken (mkToken 0b00 x) :: .decToken (mkToken 0b10 y) :: rest →
    run 2 s = .next { s with
      dec := { st := .done, acc := 0, mod := 0, pos := 0, status := .ok, errByte := 0, errPos := 0 },
      decOut := s.decOut ++ [.status .ok], host := rest })

/-- The output length of `encode` (R136), the unpadded case moved to the left side so that no subtraction is needed. -/
def Obligations.EncodeLengthLaw : Prop :=
  ∀ (lw : Nat) (cfg : BitVec (4 + lw)) (bytes : List Byte), cfgLegal cfg = true →
    let len := bytes.length
    let groups := (len + 2) / 3
    let pads := if len % 3 = 0 then 0 else if len % 3 = 1 then 2 else 1
    let newlines := if cfgWrapEn cfg = true then (groups - 1) / (((cfgWrapLen cfg).toNat + 3) / 4) else 0
    (len = 0 → (encodeText cfg bytes).length = 0) ∧
    (len ≠ 0 →
      (encodeText cfg bytes).length + (if cfgPad cfg = true then 0 else pads) =
        4 * groups + newlines * (if cfgNl cfg = true then 2 else 1))

/-- What wrapping does to the text (the consequences (a) to (c) of R84): it is the unwrapped text cut into lines of
`4 * ceil(N / 4)` characters, joined by the newline sequence; no line is empty, only the last may be shorter. -/
def Obligations.WrappedTextIsLinesOfUnwrappedText : Prop :=
  ∀ (lw : Nat) (cfg : BitVec (4 + lw)) (bytes : List Byte), cfgLegal cfg = true → cfgWrapEn cfg = true →
    bytes ≠ [] → ∃ (lines : List (List Byte)) (last : List Byte),
      encodeText cfg bytes = (lines.map (fun l => l ++ newlineText cfg)).flatten ++ last ∧
      lines.flatten ++ last =
        encodeText (cfgWord (cfgAlpha cfg) (cfgNl cfg) (cfgPad cfg) false (cfgWrapLen cfg)) bytes ∧
      (∀ l ∈ lines, l.length = lineCapacity cfg) ∧ 0 < last.length ∧ last.length ≤ lineCapacity cfg ∧
      (∀ l ∈ lines, ∀ c ∈ l, c ≠ 0x0D ∧ c ≠ 0x0A) ∧ (∀ c ∈ last, c ≠ 0x0D ∧ c ≠ 0x0A)

/-- What `decode` returns, said without its loop (R131, R139, R151, R152): the first byte it fails on, if there is one;
else invalid length exactly when the number of valid data characters is 1 modulo 4; else a result with the bytes of the
complete groups first. -/
def Obligations.DecodeErrorPrecedence : Prop :=
  ∀ bytes : List Byte,
    (∀ (c : Byte) (i : Nat), decodeText bytes = .invalidByte c i ↔
      offends bytes i = true ∧ bytes[i]? = some c ∧ ∀ j, j < i → offends bytes j = false) ∧
    (decodeText bytes = .invalidLength ↔
      (∀ j, offends bytes j = false) ∧ (dataValues bytes).length % 4 = 1) ∧
    ((∃ out, decodeText bytes = .ok out) ↔
      (∀ j, offends bytes j = false) ∧ (dataValues bytes).length % 4 ≠ 1) ∧
    (∀ out, decodeText bytes = .ok out →
      ∃ tail, out = completeGroupBytes (dataValues bytes) ++ tail ∧
        tail.length = (dataValues bytes).length % 4 - 1)

/-- What `decode` tolerates (R138 (a), (b), (d)): line breaks anywhere and any number of pad characters at the end leave
the result as it is, but that the position of an invalid byte is one more when a line break stands before it. -/
def Obligations.DecodeToleratesBreaksAndPads : Prop :=
  ∀ (xs ys out : List Byte) (b : Byte) (k : Nat), b = 0x0D ∨ b = 0x0A →
    (decodeText (xs ++ b :: ys) = .ok out ↔ decodeText (xs ++ ys) = .ok out) ∧
    (decodeText (xs ++ b :: ys) = .invalidLength ↔ decodeText (xs ++ ys) = .invalidLength) ∧
    (∀ (c : Byte) (i : Nat),
      decodeText (xs ++ b :: ys) = .invalidByte c (if i < xs.length then i else i + 1) ↔
        decodeText (xs ++ ys) = .invalidByte c i) ∧
    decodeText (xs ++ List.replicate k 0x3D) = decodeText xs

/-- The decoder does not care which alphabet wrote the text (R137): exchanging `+` and `-`, or `/` and `_`, anywhere
never changes a result, an invalid length, or the position of an invalid byte. That the byte an invalid-byte error reports
is the byte of the text, so possibly the exchanged one, is what R131 and R151 give and goes against R137's last clause: the
model's reading (log 12, DEDUCED). -/
def Obligations.AlphabetNeverMattersToDecode : Prop :=
  ∀ xs ys : List Byte, List.Forall₂ (fun c d => sameCharacter c d = true) xs ys →
    match decodeText xs with
    | .ok out => decodeText ys = .ok out
    | .invalidLength => decodeText ys = .invalidLength
    | .invalidByte c i => ∃ d, decodeText ys = .invalidByte d i ∧ sameCharacter c d = true

/-- The last clause of R137 word for word, "never changes the result of `decode`", with the reported byte counted as part
of the result. Expected to fail: after a pad character `+` and `-` are both invalid bytes, and each is reported as itself
(R131, R151). Notes: log 12. -/
def Obligations.AlphabetExchangeKeepsReportedByte : Prop :=
  ∀ xs ys : List Byte, List.Forall₂ (fun c d => sameCharacter c d = true) xs ys → decodeText xs = decodeText ys
end

