-- ==== Sys2Proof/Laws/Decode.lean ====
section
/-! SUPPORT. Tokens and their two fields. -/

namespace Sys2Proof

/-- The bits of a token, from its fields. -/
theorem getLsbD_mkToken (kind : BitVec 2) (data : Byte) (i : Nat) :
    (mkToken kind data).getLsbD i = if i < 8 then data.getLsbD i else kind.getLsbD (i - 8) := by
  have h : (mkToken kind data).getLsbD i = (kind ++ data : BitVec (2 + 8)).getLsbD i := rfl
  rw [h, BitVec.getLsbD_append]

@[simp] theorem tokenKind_mkToken (kind : BitVec 2) (data : Byte) : tokenKind (mkToken kind data) = kind := by
  apply BitVec.eq_of_getLsbD_eq
  intro i hi
  rw [tokenKind, BitVec.getLsbD_extractLsb', getLsbD_mkToken]
  simp [hi]

@[simp] theorem tokenData_mkToken (kind : BitVec 2) (data : Byte) : tokenData (mkToken kind data) = data := by
  apply BitVec.eq_of_getLsbD_eq
  intro i hi
  rw [tokenData, BitVec.getLsbD_extractLsb', getLsbD_mkToken]
  simp [hi]

/-- A token is its kind and its data. -/
theorem mkToken_kind_data (w : Token) : mkToken (tokenKind w) (tokenData w) = w := by
  apply BitVec.eq_of_getLsbD_eq
  intro i hi
  rw [getLsbD_mkToken, tokenKind, tokenData, BitVec.getLsbD_extractLsb', BitVec.getLsbD_extractLsb']
  by_cases h : i < 8
  · simp [h]
  · simp [h, show i - 8 < 2 by omega, show 8 + (i - 8) = i by omega]

end Sys2Proof
end

