-- ==== Sys2Proof/Laws/State.lean ====
section
/-! SUPPORT. One lemma a field for each update of the state, so that no proof unfolds a record update. -/

namespace Sys2Proof.Machine

variable (s : State)

section
variable (r : EncRegs s.params.lw) (out : List EncOut)

@[simp] theorem putEnc_params : (s.putEnc r out).params = s.params := rfl
@[simp] theorem putEnc_enc : (s.putEnc r out).enc = r := rfl
@[simp] theorem putEnc_dec : (s.putEnc r out).dec = s.dec := rfl
@[simp] theorem putEnc_encCfgI : (s.putEnc r out).encCfgI = s.encCfgI := rfl
@[simp] theorem putEnc_encOut : (s.putEnc r out).encOut = s.encOut ++ out := rfl
@[simp] theorem putEnc_decOut : (s.putEnc r out).decOut = s.decOut := rfl
@[simp] theorem putEnc_host : (s.putEnc r out).host = s.host := rfl

end

section
variable (r : DecRegs s.params.pw) (out : List DecOut)

@[simp] theorem putDec_params : (s.putDec r out).params = s.params := rfl
@[simp] theorem putDec_enc : (s.putDec r out).enc = s.enc := rfl
@[simp] theorem putDec_dec : (s.putDec r out).dec = r := rfl
@[simp] theorem putDec_encCfgI : (s.putDec r out).encCfgI = s.encCfgI := rfl
@[simp] theorem putDec_encOut : (s.putDec r out).encOut = s.encOut := rfl
@[simp] theorem putDec_decOut : (s.putDec r out).decOut = s.decOut ++ out := rfl
@[simp] theorem putDec_host : (s.putDec r out).host = s.host := rfl

end

@[simp] theorem putDec_self : s.putDec s.dec [] = s := by
  simp [State.putDec]

@[simp] theorem applyRst_params : s.applyRst.params = s.params := rfl
@[simp] theorem applyRst_enc : s.applyRst.enc = EncRegs.reset s.params.lw := rfl
@[simp] theorem applyRst_dec : s.applyRst.dec = DecRegs.reset s.params.pw := rfl
@[simp] theorem applyRst_encCfgI : s.applyRst.encCfgI = s.encCfgI := rfl
@[simp] theorem applyRst_encOut : s.applyRst.encOut = s.encOut := rfl
@[simp] theorem applyRst_decOut : s.applyRst.decOut = s.decOut := rfl
@[simp] theorem applyRst_host : s.applyRst.host = s.host := rfl

@[simp] theorem placeToken_host (p : Port) (w : Token) :
    (placeToken s p w).host = tokenEvent s.params.lw p w :: s.host := rfl

/-- Two states that differ in ENC's registers and stream only are equal when these are. -/
theorem putEnc_inj {r r' : EncRegs s.params.lw} {out out' : List EncOut} (h : s.putEnc r out = s.putEnc r' out') :
    r = r' ∧ out = out' := by
  simpa [State.putEnc] using h

/-- Two states that differ in DEC's registers and stream only are equal when these are. -/
theorem putDec_inj {r r' : DecRegs s.params.pw} {out out' : List DecOut} (h : s.putDec r out = s.putDec r' out') :
    r = r' ∧ out = out' := by
  simpa [State.putDec] using h

end Sys2Proof.Machine
end

