-- ==== Sys2Proof/Laws/Ops.lean ====
section
/-! SUPPORT. One lemma for each shared operation that says everything it can do; later proofs cite these. -/

namespace Sys2Proof.Machine

/-! ### Committing a unit's step -/

theorem runEnc_eq_next {s t : State} {f : EncRegs s.params.lw → EncResult s.params.lw} :
    runEnc s f = .next t ↔ ∃ r out, f s.enc = .ok (r, out) ∧ t = s.putEnc r out := by
  unfold runEnc
  split
  · rename_i r out h
    constructor
    · intro e
      exact ⟨r, out, h, by cases e; rfl⟩
    · rintro ⟨r', out', h', rfl⟩
      rw [h] at h'
      cases h'
      rfl
  · rename_i h
    simp [h]

theorem runEnc_eq_refused {s : State} {f : EncRegs s.params.lw → EncResult s.params.lw} {why : Refusal} :
    runEnc s f = .refused why ↔ f s.enc = .error why := by
  unfold runEnc
  split <;> rename_i h <;> simp [h]

theorem runEnc_ok {s : State} {f : EncRegs s.params.lw → EncResult s.params.lw} {r out} (h : f s.enc = .ok (r, out)) :
    runEnc s f = .next (s.putEnc r out) :=
  runEnc_eq_next.2 ⟨r, out, h, rfl⟩

theorem runDec_eq_next {s t : State} {f : DecRegs s.params.pw → DecResult s.params.pw} :
    runDec s f = .next t ↔ ∃ r out, f s.dec = .ok (r, out) ∧ t = s.putDec r out := by
  unfold runDec
  split
  · rename_i r out h
    constructor
    · intro e
      exact ⟨r, out, h, by cases e; rfl⟩
    · rintro ⟨r', out', h', rfl⟩
      rw [h] at h'
      cases h'
      rfl
  · rename_i h
    simp [h]

theorem runDec_eq_refused {s : State} {f : DecRegs s.params.pw → DecResult s.params.pw} {why : Refusal} :
    runDec s f = .refused why ↔ f s.dec = .error why := by
  unfold runDec
  split <;> rename_i h <;> simp [h]

theorem runDec_ok {s : State} {f : DecRegs s.params.pw → DecResult s.params.pw} {r out} (h : f s.dec = .ok (r, out)) :
    runDec s f = .next (s.putDec r out) :=
  runDec_eq_next.2 ⟨r, out, h, rfl⟩

/-! ### The encoder's helpers -/

/-- A word is legal when a wrap length that is present is not 0 (R62). -/
theorem cfgLegal_iff {lw : Nat} (cfg : BitVec (4 + lw)) :
    cfgLegal cfg = true ↔ (cfgWrapEn cfg = true → cfgWrapLen cfg ≠ 0) := by
  cases h : cfgWrapEn cfg <;> simp [cfgLegal, h]

theorem emitNewline_eq {lw : Nat} (cfg : BitVec (4 + lw)) : emitNewline cfg = newlineTokens cfg := rfl

/-- The comparison of WrapCheck is one of numbers: zero-extending the wrap length by a bit does not change it. -/
theorem wrapDue_iff {lw : Nat} (r : EncRegs lw) :
    wrapDue r = true ↔ cfgWrapEn r.cfg = true ∧ (cfgWrapLen r.cfg).toNat ≤ r.lcnt.toNat := by
  simp only [wrapDue, Bool.and_eq_true, decide_eq_true_eq, BitVec.le_def, BitVec.toNat_setWidth]
  rw [Nat.mod_eq_of_lt (lt_trans (cfgWrapLen r.cfg).isLt (Nat.pow_lt_pow_right (by decide) (Nat.lt_succ_self lw)))]

theorem wrapCheck_snd {lw : Nat} (r : EncRegs lw) : (wrapCheck r).2 = tokensBefore r.cfg r.lcnt := by
  unfold wrapCheck tokensBefore
  by_cases h : wrapDue r = true
  · simp [h, (wrapDue_iff r).1 h, emitNewline_eq]
  · simp [h, mt (wrapDue_iff r).2 h]

theorem wrapCheck_fst {lw : Nat} (r : EncRegs lw) :
    (wrapCheck r).1 = { r with lcnt := if wrapDue r then 0 else r.lcnt } := by
  unfold wrapCheck
  split <;> simp [*]

theorem countGroup_eq {lw : Nat} (r : EncRegs lw) :
    countGroup r = { r with lcnt := if cfgWrapEn r.cfg then r.lcnt + 4 else r.lcnt } := by
  unfold countGroup
  split <;> simp [*]

theorem romChars_eq {lw : Nat} (cfg : BitVec (4 + lw)) (n : BitVec 24) :
    [romChar cfg (sextet0 n), romChar cfg (sextet1 n), romChar cfg (sextet2 n), romChar cfg (sextet3 n)] =
      groupTokens cfg n := rfl

/-- What ENC.DATA does to the third byte of a group, with the wrap check resolved. -/
theorem encDataUnit_third {lw : Nat} (b : Byte) (r : EncRegs lw) (h : r.st = .run) (hb : r.bcnt = .two) :
    encDataUnit b r =
      .ok ({ r with
          acc := r.acc ||| b.setWidth 24,
          bcnt := .zero,
          lcnt := if cfgWrapEn r.cfg then (if wrapDue r then 0 else r.lcnt) + 4 else r.lcnt },
        tokensBefore r.cfg r.lcnt ++ groupTokens r.cfg (r.acc ||| b.setWidth 24)) := by
  simp only [encDataUnit, h, hb, if_true, wrapCheck_snd, wrapCheck_fst, countGroup_eq, romChars_eq]
  by_cases hen : cfgWrapEn r.cfg = true <;> simp [hen, wrapDue]

/-- The tail of ENC.END with the wrap check resolved. -/
theorem emitTail_eq {lw : Nat} (r : EncRegs lw) :
    emitTail r =
      match r.bcnt with
      | .zero => []
      | .one => tokensBefore r.cfg r.lcnt ++ (groupTokens r.cfg r.acc).take 2 ++ padding r.cfg 2
      | .two => tokensBefore r.cfg r.lcnt ++ (groupTokens r.cfg r.acc).take 3 ++ padding r.cfg 1 := by
  unfold emitTail
  cases r.bcnt <;> simp [wrapCheck_snd, groupTokens, romChar, sextet0, sextet1, sextet2]

/-! ### The decoder's helpers -/

/-- The last position, as a number. -/
theorem eq_allOnes_iff {pw : Nat} (p : BitVec pw) : p = BitVec.allOnes pw ↔ p.toNat = 2 ^ pw - 1 := by
  constructor
  · rintro rfl
    simp
  · intro h
    apply BitVec.eq_of_toNat_eq
    simpa using h

/-- Advancing a position that is not the last one adds one to the number. -/
theorem toNat_succ_of_ne {pw : Nat} {p : BitVec pw} (h : p ≠ BitVec.allOnes pw) : (p + 1).toNat = p.toNat + 1 := by
  have hlt := p.isLt
  have hne : p.toNat ≠ 2 ^ pw - 1 := fun e => h ((eq_allOnes_iff p).2 e)
  rcases Nat.eq_zero_or_pos pw with rfl | hpos
  · simp at hlt hne
    omega
  · have h1 : 1 < 2 ^ pw := Nat.one_lt_two_pow (by omega)
    rw [BitVec.toNat_add]
    have : (1 : BitVec pw).toNat = 1 := by
      simp [BitVec.toNat_ofNat, Nat.mod_eq_of_lt h1]
    rw [this, Nat.mod_eq_of_lt (by omega)]

section
variable {pw : Nat} {r : DecRegs pw} {inAcc inTbp : BitVec pw → DecRegs pw × List DecOut}

theorem dataPrologue_resting (h : r.st = .idle ∨ r.st = .done) :
    dataPrologue r inAcc inTbp = .error .protocolViolation := by
  rcases h with h | h <;> simp [dataPrologue, h]

theorem dataPrologue_failed (h : r.st = .failed) : dataPrologue r inAcc inTbp = .ok (r, []) := by
  simp [dataPrologue, h]

theorem dataPrologue_full (h : r.st = .accumulating ∨ r.st = .terminatedByPad) (hp : r.pos = BitVec.allOnes pw) :
    dataPrologue r inAcc inTbp = .error .positionOverflow := by
  rcases h with h | h <;> simp [dataPrologue, h, hp]

theorem dataPrologue_accumulating (h : r.st = .accumulating) (hp : r.pos ≠ BitVec.allOnes pw) :
    dataPrologue r inAcc inTbp = .ok (inAcc r.pos) := by
  simp [dataPrologue, h, hp]

theorem dataPrologue_terminated (h : r.st = .terminatedByPad) (hp : r.pos ≠ BitVec.allOnes pw) :
    dataPrologue r inAcc inTbp = .ok (inTbp r.pos) := by
  simp [dataPrologue, h, hp]

/-- Everything the prologue can do when the step goes on. -/
theorem dataPrologue_cases {x : DecRegs pw × List DecOut} (h : dataPrologue r inAcc inTbp = .ok x) :
    (r.st = .failed ∧ x = (r, [])) ∨
    (r.st = .accumulating ∧ r.pos ≠ BitVec.allOnes pw ∧ x = inAcc r.pos) ∨
    (r.st = .terminatedByPad ∧ r.pos ≠ BitVec.allOnes pw ∧ x = inTbp r.pos) := by
  unfold dataPrologue at h
  split at h
  · cases h
  · cases h
  · cases h
    exact .inl ⟨‹_›, rfl⟩
  · split at h
    · cases h
    · cases h
      exact .inr (.inl ⟨‹_›, ‹_›, rfl⟩)
  · split at h
    · cases h
    · cases h
      exact .inr (.inr ⟨‹_›, ‹_›, rfl⟩)

end

theorem accumulate_of_ne {pw : Nat} {v : Sextet} {r : DecRegs pw} (h : r.mod ≠ 3) :
    accumulate v r = ({ r with acc := shiftIn r.acc v, mod := r.mod + 1 }, []) := by
  simp only [accumulate, if_neg h]

theorem accumulate_of_eq {pw : Nat} {v : Sextet} {r : DecRegs pw} (h : r.mod = 3) :
    accumulate v r =
      ({ r with acc := shiftIn r.acc v, mod := 0 },
        [.byte ((shiftIn r.acc v).extractLsb' 16 8), .byte ((shiftIn r.acc v).extractLsb' 8 8),
          .byte ((shiftIn r.acc v).extractLsb' 0 8)]) := by
  simp only [accumulate, if_pos h]

/-- What Accumulate leaves alone. -/
theorem accumulate_frame {pw : Nat} (v : Sextet) (r : DecRegs pw) :
    (accumulate v r).1.st = r.st ∧ (accumulate v r).1.pos = r.pos ∧ (accumulate v r).1.status = r.status ∧
    (accumulate v r).1.errByte = r.errByte ∧ (accumulate v r).1.errPos = r.errPos := by
  unfold accumulate
  split <;> simp

/-- A 2-bit modulus is 0, 1, 2 or 3. -/
theorem mod_cases (m : BitVec 2) : m = 0 ∨ m = 1 ∨ m = 2 ∨ m = 3 := by
  revert m
  decide

/-- What the finalization leaves alone, and that it gives a result. -/
theorem finalize_frame {pw : Nat} (r : DecRegs pw) :
    (finalize r).1.st = r.st ∧ (finalize r).1.errByte = r.errByte ∧ (finalize r).1.errPos = r.errPos ∧
    ((finalize r).1.status = .ok ∨ (finalize r).1.status = .invalidLength) := by
  unfold finalize
  split_ifs <;> simp [finishOk, failLength]

end Sys2Proof.Machine
end

