-- ==== Sys2Proof/Laws/Exec.lean ====
section
/-! SUPPORT. exec seen from a unit: which function of the unit's registers an instruction is, and what a step can do to
the state. -/

namespace Sys2Proof.Machine

/-- The step of ENC an instruction of `enc_in` stands for, from the level on `enc_cfg_i` and ENC's registers. -/
def encUnitOf {lw : Nat} (cfg : BitVec (4 + lw)) : Instr → EncRegs lw → EncResult lw
  | .encStart _, r => encStartUnit cfg r
  | .encData b, r => encDataUnit b r
  | .encEnd _, r => encEndUnit r
  | _, r => .ok (r, [])

/-- The step of DEC an instruction of `dec_in` stands for. -/
def decUnitOf {pw : Nat} : Instr → DecRegs pw → DecResult pw
  | .decStart _, r => decStartUnit r
  | .decUpper c, r => dataCharacter (upperValue c) c r
  | .decLower c, r => dataCharacter (lowerValue c) c r
  | .decDigit c, r => dataCharacter (digitValue c) c r
  | .decPlus, r => dataCharacter plusValue 0x2B r
  | .decMinus, r => dataCharacter plusValue 0x2D r
  | .decSlash, r => dataCharacter slashValue 0x2F r
  | .decUnder, r => dataCharacter slashValue 0x5F r
  | .decCr, r => skippedByte r
  | .decLf, r => skippedByte r
  | .decPad, r => decPadUnit r
  | .decInvalid c, r => decInvalidUnit c r
  | .decEnd _, r => decEndUnit r
  | _, r => .ok (r, [])

theorem exec_of_encIn {i : Instr} (h : i.port = .encIn) (s : State) : exec i s = runEnc s (encUnitOf s.encCfgI i) := by
  cases i <;> first | rfl | cases h

theorem exec_of_decIn {i : Instr} (h : i.port = .decIn) (s : State) : exec i s = runDec s (decUnitOf i) := by
  cases i <;> first | rfl | cases h

/-- Everything exec can do when it answers a next state. -/
theorem exec_next_cases {i : Instr} {s t : State} (h : exec i s = .next t) :
    (i.port = .encIn ∧ ∃ r out, encUnitOf s.encCfgI i s.enc = .ok (r, out) ∧ t = s.putEnc r out) ∨
    (i.port = .decIn ∧ ∃ r out, decUnitOf i s.dec = .ok (r, out) ∧ t = s.putDec r out) := by
  cases hp : i.port
  · rw [exec_of_encIn hp] at h
    exact .inl ⟨rfl, runEnc_eq_next.1 h⟩
  · rw [exec_of_decIn hp] at h
    exact .inr ⟨rfl, runDec_eq_next.1 h⟩

/-- exec does not look at what the host does later. -/
theorem exec_next_host {i : Instr} {s t : State} (h : exec i s = .next t) : t.params = s.params := by
  rcases exec_next_cases h with ⟨-, r, out, -, rfl⟩ | ⟨-, r, out, -, rfl⟩ <;> rfl

end Sys2Proof.Machine
end

