-- ==== Sys2Proof/Laws/PerInstr.lean ====
section
/-! SUPPORT. A statement about every instruction as syntax, with one lemma a constructor: its token is not of the
reserved kind `11` (spec/30_encoding.md R68 (a)). -/

namespace Sys2Proof.Laws.NeverReserved

/-- The token of the instruction is not of the reserved kind. -/
def Statement (i : Instr) : Prop := tokenKind (Sys2Proof.encode i) ≠ 0b11

theorem encStart (x : Byte) : Statement (.encStart x) := by simp [Statement, encode]
theorem encData (x : Byte) : Statement (.encData x) := by simp [Statement, encode]
theorem encEnd (x : Byte) : Statement (.encEnd x) := by simp [Statement, encode]
theorem decStart (x : Byte) : Statement (.decStart x) := by simp [Statement, encode]
theorem decUpper (x : Byte) : Statement (.decUpper x) := by simp [Statement, encode]
theorem decLower (x : Byte) : Statement (.decLower x) := by simp [Statement, encode]
theorem decDigit (x : Byte) : Statement (.decDigit x) := by simp [Statement, encode]
theorem decPlus : Statement .decPlus := by simp [Statement, encode]
theorem decMinus : Statement .decMinus := by simp [Statement, encode]
theorem decSlash : Statement .decSlash := by simp [Statement, encode]
theorem decUnder : Statement .decUnder := by simp [Statement, encode]
theorem decCr : Statement .decCr := by simp [Statement, encode]
theorem decLf : Statement .decLf := by simp [Statement, encode]
theorem decPad : Statement .decPad := by simp [Statement, encode]
theorem decInvalid (x : Byte) : Statement (.decInvalid x) := by simp [Statement, encode]
theorem decEnd (x : Byte) : Statement (.decEnd x) := by simp [Statement, encode]

end Sys2Proof.Laws.NeverReserved
end

