-- ==== Sys2Proof/Laws/Step.lean ====
section
/-! SUPPORT. What one step can do, event by event, and runs. -/

namespace Sys2Proof.Machine

theorem step_of_nil {s : State} (h : s.host = []) : step s = .next s := by
  simp [step, h]

theorem step_of_cons {s : State} {e : HostEvent s.params.lw} {rest : List (HostEvent s.params.lw)}
    (h : s.host = e :: rest) : step s = receive { s with host := rest } e := by
  simp [step, h]

/-- Everything a step can do when it answers a next state. -/
theorem step_next_cases {s t : State} (h : step s = .next t) :
    (s.host = [] ∧ t = s) ∨
    (∃ e rest, s.host = e :: rest ∧
      ((∃ p w i, e = tokenEvent s.params.lw p w ∧ decode p w = .ok i ∧ exec i { s with host := rest } = .next t) ∨
       (∃ cfg, e = .driveCfg cfg ∧ t = { s with encCfgI := cfg, host := rest }) ∨
       (e = .rst ∧ t = State.applyRst { s with host := rest }))) := by
  cases hh : s.host with
  | nil =>
    rw [step_of_nil hh] at h
    cases h
    exact .inl ⟨rfl, rfl⟩
  | cons e rest =>
    rw [step_of_cons hh] at h
    refine .inr ⟨e, rest, rfl, ?_⟩
    have token : ∀ p w, receiveToken p w { s with host := rest } = .next t →
        ∃ i, decode p w = .ok i ∧ exec i { s with host := rest } = .next t := by
      intro p w hr
      unfold receiveToken at hr
      split at hr
      · exact ⟨_, ‹_›, hr⟩
      · cases hr
    cases e with
    | encToken w =>
      obtain ⟨i, hd, hx⟩ := token .encIn w h
      exact .inl ⟨.encIn, w, i, rfl, hd, hx⟩
    | decToken w =>
      obtain ⟨i, hd, hx⟩ := token .decIn w h
      exact .inl ⟨.decIn, w, i, rfl, hd, hx⟩
    | driveCfg cfg => exact .inr (.inl ⟨cfg, rfl, by cases h; rfl⟩)
    | rst => exact .inr (.inr ⟨rfl, by cases h; rfl⟩)

@[simp] theorem run_zero (s : State) : run 0 s = .next s := rfl

theorem run_succ_of_next {s t : State} (k : Nat) (h : step s = .next t) : run (k + 1) s = run k t := by
  simp [run, h]

/-- A run of `m + n` steps is a run of `m` and then one of `n`. -/
theorem run_add_of_next {m : Nat} {s t : State} (n : Nat) (h : run m s = .next t) : run (m + n) s = run n t := by
  induction m generalizing s with
  | zero =>
    cases h
    simp
  | succ m ih =>
    rw [Nat.succ_add]
    cases hs : step s with
    | next u =>
      rw [run_succ_of_next _ hs] at h ⊢
      exact ih h
    | fault why =>
      simp [run, hs] at h
    | refused why =>
      simp [run, hs] at h

end Sys2Proof.Machine
end

