-- ==== Sys2Proof/Laws/Recovery.lean ====
section
/-! SUPPORT. The layer beyond a refusal: one lemma for each thing an event can do to the block. -/

namespace Sys2Proof.Machine

/-- With both units within the spec nothing is scattered. -/
@[simp] theorem scatter_of_kept (x : Stray) (s : State) :
    Block.scatter x { state := s, encLost := false, decLost := false } =
      { state := s, encLost := false, decLost := false } := by
  simp [Block.scatter]

/-- What `step` answers with a next state, the layer does too. -/
theorem blockStep_of_next {s t : State} (x : Stray) (h : step s = .next t) :
    Block.step x { state := s, encLost := false, decLost := false } =
      { state := t, encLost := false, decLost := false } := by
  have take : Block.take { state := s, encLost := false, decLost := false } =
      { state := t, encLost := false, decLost := false } := by
    rcases hh : s.host with _ | ⟨e, rest⟩
    · rw [step_of_nil hh] at h
      cases h
      simp [Block.take, hh]
    · rw [step_of_cons hh] at h
      cases e <;> simp only [receive] at h
      · simp [Block.take, hh, h]
      · simp [Block.take, hh, h]
      · cases h
        simp [Block.take, hh]
      · cases h
        simp [Block.take, hh]
  rw [Block.step, take, scatter_of_kept]

/-- `rst` brings both units back, wherever they were. -/
theorem blockStep_of_rst {b : Block} {rest : List (HostEvent b.state.params.lw)} (x : Stray)
    (h : b.state.host = .rst :: rest) :
    Block.step x b =
      { state := State.applyRst { b.state with host := rest }, encLost := false, decLost := false } := by
  have take : b.take =
      { state := State.applyRst { b.state with host := rest }, encLost := false, decLost := false } := by
    simp [Block.take, h]
  rw [Block.step, take, scatter_of_kept]

/-- A token ENC refuses puts ENC outside the spec and touches nothing of DEC. -/
theorem blockStep_of_enc_refused {s : State} {w : Token} {rest : List (HostEvent s.params.lw)} {why : Refusal} (x : Stray)
    (hh : s.host = .encToken w :: rest) (h : step s = .refused why) :
    Block.step x { state := s, encLost := false, decLost := false } =
      { state := { s with enc := x.enc s.params.lw, encOut := s.encOut ++ x.encOut, host := rest },
        encLost := true, decLost := false } := by
  rw [step_of_cons hh] at h
  simp only [receive] at h
  have take : Block.take { state := s, encLost := false, decLost := false } =
      { state := { s with host := rest }, encLost := true, decLost := false } := by
    simp [Block.take, hh, h]
  rw [Block.step, take]
  simp [Block.scatter]

/-- A token DEC refuses puts DEC outside the spec and touches nothing of ENC. -/
theorem blockStep_of_dec_refused {s : State} {w : Token} {rest : List (HostEvent s.params.lw)} {why : Refusal} (x : Stray)
    (hh : s.host = .decToken w :: rest) (h : step s = .refused why) :
    Block.step x { state := s, encLost := false, decLost := false } =
      { state := { s with dec := x.dec s.params.pw, decOut := s.decOut ++ x.decOut, host := rest },
        encLost := false, decLost := true } := by
  rw [step_of_cons hh] at h
  simp only [receive] at h
  have take : Block.take { state := s, encLost := false, decLost := false } =
      { state := { s with host := rest }, encLost := false, decLost := true } := by
    simp [Block.take, hh, h]
  rw [Block.step, take]
  simp [Block.scatter]

end Sys2Proof.Machine
end

