-- ==== Sys2Proof/Laws/Results.lean ====
section
/-! SUPPORT. Results of operations: what the readings of the output streams give, piece by piece. -/

namespace Sys2Proof.Machine

@[simp] theorem encodedText_append (a b : List EncOut) : encodedText (a ++ b) = encodedText a ++ encodedText b := by
  simp [encodedText]

@[simp] theorem decodedBytes_append (a b : List DecOut) : decodedBytes (a ++ b) = decodedBytes a ++ decodedBytes b := by
  simp [decodedBytes]

@[simp] theorem encodedText_chars (l : List Byte) : encodedText (l.map .char) = l := by
  simp [encodedText]

@[simp] theorem decodedBytes_bytes (l : List Byte) : decodedBytes (l.map .byte) = l := by
  simp [decodedBytes]

/-- Characters alone end no operation. -/
@[simp] theorem cutTexts_chars (pending l : List Byte) : cutTexts pending (l.map .char) = (pending ++ l, []) := by
  induction l generalizing pending with
  | nil => simp [cutTexts]
  | cons c l ih => simp [cutTexts, ih]

/-- Characters and the END token after them are one text. -/
@[simp] theorem cutTexts_chars_finish (pending l : List Byte) :
    cutTexts pending (l.map .char ++ [.finish]) = ([], [pending ++ l]) := by
  induction l generalizing pending with
  | nil => simp [cutTexts]
  | cons c l ih => simp [cutTexts, ih]

/-- Before its END token has taken the unit to DONE, an operation has no result. -/
theorem operationResult_of_open {pw : Nat} {r : DecRegs pw} (bytes : List Byte) (h : r.st ≠ .done) :
    operationResult r bytes = none := by
  simp [operationResult, h]

theorem watch_succ_of_next {s t : State} (k : Nat) (w : Watch) (h : step s = .next t) :
    watch (k + 1) s w = watch k t (w.see s t) := by
  simp [watch, h]

/-- What is observed along a run of `m` steps and then one of `n`. -/
theorem watch_add_of_next {m : Nat} {s t : State} (n : Nat) (w : Watch) (h : run m s = .next t) :
    watch (m + n) s w = watch n t (watch m s w) := by
  induction m generalizing s w with
  | zero =>
    cases h
    simp [watch]
  | succ m ih =>
    rw [Nat.succ_add]
    cases hs : step s with
    | next u =>
      rw [run_succ_of_next _ hs] at h
      rw [watch_succ_of_next _ _ hs, watch_succ_of_next _ _ hs]
      exact ih _ h
    | fault why =>
      simp [run, hs] at h
    | refused why =>
      simp [run, hs] at h

end Sys2Proof.Machine
end

