-- ==== Sys2Proof/Tests/Slice0.lean ====
section
/-! SUPPORT. The model's own tests. Expected results are those of spec/95_test_vectors.md, whose vector is named beside
each test, or words written out from spec/30_encoding.md R67. The witnesses at the end show for each statement with
hypotheses that something meets them. -/

namespace Sys2Proof.Machine.Tests

/-- An instance with the given parameters, registers, port level and host events, nothing emitted yet. -/
def machine (p : Params) (e : EncRegs p.lw) (d : DecRegs p.pw) (cfg : BitVec (4 + p.lw)) (host : List (HostEvent p.lw)) :
    State :=
  { params := p, enc := e, dec := d, encCfgI := cfg, encOut := [], decOut := [], host := host }

/-- Registers of ENC in the order the vectors write them. -/
def encR (st : EncSt) (cfg : BitVec 20) (acc : BitVec 24) (bcnt : ByteCount) (lcnt : BitVec 17) : EncRegs 16 :=
  { st := st, cfg := cfg, acc := acc, bcnt := bcnt, lcnt := lcnt }

/-- Registers of DEC in the order the vectors write them. -/
def decR (st : DecSt) (acc : BitVec 32) (mod : BitVec 2) (pos : BitVec 32) (status : DecStatus) (errByte : Byte)
    (errPos : BitVec 32) : DecRegs 32 :=
  { st := st, acc := acc, mod := mod, pos := pos, status := status, errByte := errByte, errPos := errPos }

/-- ENC with the registers `e` and the level `cfg` on its port, DEC at reset. -/
def encAt (cfg : BitVec 20) (e : EncRegs 16) (out : List EncOut) : State :=
  { machine ⟨16, 32⟩ e (DecRegs.reset 32) cfg [] with encOut := out }

/-- DEC with the registers `d`, ENC at reset. -/
def decAt (d : DecRegs 32) (out : List DecOut) : State :=
  { machine ⟨16, 32⟩ (EncRegs.reset 16) d 0 [] with decOut := out }

/-- The outcome is the next state `t`. -/
def isNext (o : Host.Outcome State Fault Refusal) (t : State) : Bool :=
  match o with
  | .next s => decide (s = t)
  | .fault _ => false
  | .refused _ => false

/-- The outcome is a refusal for the reason `why`. -/
def isRefused (o : Host.Outcome State Fault Refusal) (why : Refusal) : Bool :=
  match o with
  | .next _ => false
  | .fault _ => false
  | .refused r => decide (r = why)

/-- One token on `enc_in`, from one pair of port level and registers to the next. -/
def encStep (cfg : BitVec 20) (e : EncRegs 16) (w : Token) (out : List EncOut) (e' : EncRegs 16) : Bool :=
  isNext (receiveToken .encIn w (encAt cfg e [])) (encAt cfg e' out)

/-- One token on `dec_in`. -/
def decStep (d : DecRegs 32) (w : Token) (out : List DecOut) (d' : DecRegs 32) : Bool :=
  isNext (receiveToken .decIn w (decAt d [])) (decAt d' out)

/-! ### WellFormed refuses an ill-formed term of each check -/

theorem test_wf_upper : Instr.wf (.decUpper 0x40) = false ∧ Instr.wf (.decUpper 0x5B) = false := by decide

theorem test_wf_lower : Instr.wf (.decLower 0x60) = false ∧ Instr.wf (.decLower 0x7B) = false := by decide

theorem test_wf_digit : Instr.wf (.decDigit 0x2F) = false ∧ Instr.wf (.decDigit 0x3A) = false := by decide

theorem test_wf_invalid : Instr.wf (.decInvalid 0x3D) = false ∧ Instr.wf (.decInvalid 0x41) = false := by decide

/-! ### Words written out from the opcode map, bit 9 first -/

theorem test_word_encStart : decode .encIn 0b0010100111 = .ok (.encStart 0xA7) := by decide

theorem test_word_encData : decode .encIn 0b0101100110 = .ok (.encData 0x66) := by decide

theorem test_word_encEnd : decode .encIn 0b1011111111 = .ok (.encEnd 0xFF) := by decide

theorem test_word_decStart : decode .decIn 0b0010000001 = .ok (.decStart 0x81) := by decide

theorem test_word_decUpper : decode .decIn 0b0101011010 = .ok (.decUpper 0x5A) := by decide

theorem test_word_decLower : decode .decIn 0b0101100001 = .ok (.decLower 0x61) := by decide

theorem test_word_decDigit : decode .decIn 0b0100111001 = .ok (.decDigit 0x39) := by decide

theorem test_word_decPlus : decode .decIn 0b0100101011 = .ok .decPlus := by decide

theorem test_word_decMinus : decode .decIn 0b0100101101 = .ok .decMinus := by decide

theorem test_word_decSlash : decode .decIn 0b0100101111 = .ok .decSlash := by decide

theorem test_word_decUnder : decode .decIn 0b0101011111 = .ok .decUnder := by decide

theorem test_word_decCr : decode .decIn 0b0100001101 = .ok .decCr := by decide

theorem test_word_decLf : decode .decIn 0b0100001010 = .ok .decLf := by decide

theorem test_word_decPad : decode .decIn 0b0100111101 = .ok .decPad := by decide

/-- The neighbours of the letters and digits that R67 gives to DEC.INVALID, and a byte with bit 7 set. -/
theorem test_word_decInvalid :
    decode .decIn 0b0101000000 = .ok (.decInvalid 0x40) ∧ decode .decIn 0b0101011011 = .ok (.decInvalid 0x5B) ∧
    decode .decIn 0b0101111011 = .ok (.decInvalid 0x7B) ∧ decode .decIn 0b0100111010 = .ok (.decInvalid 0x3A) ∧
    decode .decIn 0b0111000001 = .ok (.decInvalid 0xC1) := by decide

theorem test_word_decEnd : decode .decIn 0b1000000000 = .ok (.decEnd 0x00) := by decide

theorem test_word_reserved :
    decode .encIn 0b1100000000 = .error .reservedKind ∧ decode .decIn 0b1111111111 = .error .reservedKind := by decide

/-- The two ports of a table word (log 8). -/
theorem test_table_word_ports :
    decodeTableWord 16 0x0566 = some (.encData 0x66) ∧ decodeTableWord 16 0x0166 = some (.decLower 0x66) := by decide

/-! ### One step each -/

/-- A3. -/
theorem test_encStart_latches :
    encStep 0x00006 (encR .idle 0 0 .zero 0) 0x0A7 [] (encR .run 0x00006 0 .zero 0) = true := by decide

/-- A4. -/
theorem test_encStart_refuses_wrap_zero :
    isRefused (receiveToken .encIn 0x000 (encAt 0x00008 (EncRegs.reset 16) [])) .illegalConfiguration = true := by decide

/-- A8. -/
theorem test_encData_second :
    encStep 0 (encR .run 6 0x660000 .one 0) 0x16F [] (encR .run 6 0x666F00 .two 0) = true := by decide

/-- A12. -/
theorem test_encData_wraps :
    encStep 0 (encR .run 0x4E 0x626100 .two 4) 0x172
      [.char 0x0D, .char 0x0A, .char 0x59, .char 0x6D, .char 0x46, .char 0x79]
      (encR .run 0x4E 0x626172 .zero 4) = true := by decide

/-- A22, the step with the longest output. -/
theorem test_encEnd_tail_of_one :
    encStep 0 (encR .run 0x4E 0x620000 .one 4) 0x200
      [.char 0x0D, .char 0x0A, .char 0x59, .char 0x67, .char 0x3D, .char 0x3D, .finish]
      (encR .done 0x4E 0 .zero 0) = true := by decide

/-- A21. -/
theorem test_encEnd_tail_of_two_unpadded :
    encStep 0 (encR .run 2 0x666F00 .two 0) 0x200 [.char 0x5A, .char 0x6D, .char 0x38, .finish]
      (encR .done 2 0 .zero 0) = true := by decide

/-- B2. -/
theorem test_decStart_clears :
    decStep (decR .done 0 0 0 .invalidByte 0x24 2) 0x000 [] (decR .accumulating 0 0 0 .none 0 0) = true := by decide

/-- B31. -/
theorem test_decStart_refused_in_failed :
    isRefused (receiveToken .decIn 0x000 (decAt (decR .failed 0x666 2 2 .invalidByte 0x24 2) []))
      .protocolViolation = true := by decide

/-- B35. -/
theorem test_decUpper_fourth :
    decStep (decR .accumulating 0xFFFFFFFF 3 7 .none 0 0) 0x141 [.byte 0xFF, .byte 0xFF, .byte 0xC0]
      (decR .accumulating 0xFFFFFFC0 0 8 .none 0 0) = true := by decide

/-- B34, at PW = 2. -/
theorem test_decUpper_last_position :
    isRefused (receiveToken .decIn 0x141
        (machine ⟨16, 2⟩ (EncRegs.reset 16) { DecRegs.reset 2 with st := .accumulating, pos := 3 } 0 []))
      .positionOverflow = true := by decide

/-- B9. -/
theorem test_decLower_fourth :
    decStep (decR .accumulating 0x199BD 3 3 .none 0 0) 0x176 [.byte 0x66, .byte 0x6F, .byte 0x6F]
      (decR .accumulating 0x666F6F 0 4 .none 0 0) = true := by decide

/-- B8. -/
theorem test_decDigit_nine :
    decStep (decR .accumulating 0x666 2 2 .none 0 0) 0x139 [] (decR .accumulating 0x199BD 3 3 .none 0 0) = true := by
  decide

/-- B10. -/
theorem test_decPlus :
    decStep (decR .accumulating 0 0 0 .none 0 0) 0x12B [] (decR .accumulating 0x3E 1 1 .none 0 0) = true := by decide

/-- B11. -/
theorem test_decMinus :
    decStep (decR .accumulating 0 0 0 .none 0 0) 0x12D [] (decR .accumulating 0x3E 1 1 .none 0 0) = true := by decide

/-- B12. -/
theorem test_decSlash :
    decStep (decR .accumulating 0x3E 1 1 .none 0 0) 0x12F [] (decR .accumulating 0xFBF 2 2 .none 0 0) = true := by decide

/-- B13. -/
theorem test_decUnder :
    decStep (decR .accumulating 0x3E 1 1 .none 0 0) 0x15F [] (decR .accumulating 0xFBF 2 2 .none 0 0) = true := by decide

/-- B14. -/
theorem test_decCr :
    decStep (decR .accumulating 0x660 2 5 .none 0 0) 0x10D [] (decR .accumulating 0x660 2 6 .none 0 0) = true := by decide

/-- B15. -/
theorem test_decLf :
    decStep (decR .terminatedByPad 0x660 2 4 .none 0 0) 0x10A [] (decR .terminatedByPad 0x660 2 5 .none 0 0) = true := by
  decide

/-- B16. -/
theorem test_decPad_first :
    decStep (decR .accumulating 0x660 2 2 .none 0 0) 0x13D [] (decR .terminatedByPad 0x660 2 3 .none 0 0) = true := by
  decide

/-- B18. -/
theorem test_decInvalid_recorded :
    decStep (decR .accumulating 0x666 2 2 .none 0 0) 0x124 [.status .invalidByte]
      (decR .failed 0x666 2 2 .invalidByte 0x24 2) = true := by decide

/-- B22. -/
theorem test_decInvalid_drained :
    decStep (decR .failed 0x666 2 2 .invalidByte 0x24 2) 0x125 [] (decR .failed 0x666 2 2 .invalidByte 0x24 2) = true := by
  decide

/-- B26. -/
theorem test_decEnd_modulus_three :
    decStep (decR .accumulating 0x199BC 3 3 .none 0 0) 0x200 [.byte 0x66, .byte 0x6F, .status .ok]
      (decR .done 0 0 0 .ok 0 0) = true := by decide

/-- B27. -/
theorem test_decEnd_from_failed :
    decStep (decR .failed 0x666 2 2 .invalidByte 0x24 2) 0x200 [] (decR .done 0 0 0 .invalidByte 0x24 2) = true := by
  decide

/-! ### Whole operations: the functions on the source's own examples -/

/-- S8, S9, S7. -/
theorem test_encode_examples :
    encodeText (presetStandard 16) [0xFB, 0xFF] = [0x2B, 0x2F, 0x38, 0x3D] ∧
    encodeText (presetUrlSafe 16) [0xFB, 0xFF] = [0x2D, 0x5F, 0x38] ∧
    encodeText (0x4E : BitVec (4 + 16)) [0x66, 0x6F, 0x6F, 0x62, 0x61, 0x72] =
      [0x5A, 0x6D, 0x39, 0x76, 0x0D, 0x0A, 0x59, 0x6D, 0x46, 0x79] := by decide

/-- S12, S13, S14. -/
theorem test_decode_examples :
    decodeText [0x2D, 0x5F, 0x38] = .ok [0xFB, 0xFF] ∧ decodeText [0x5A, 0x6D, 0x24, 0x3D] = .invalidByte 0x24 2 ∧
    decodeText [0x5A, 0x3D, 0x3D, 0x3D] = .invalidLength := by decide

/-! ### Results and recovery, by hand from R170 and R171 -/

/-- FAILED before END has no result; the same operation after END has. -/
theorem test_result_needs_end :
    operationResult (decR .failed 0x666 2 2 .invalidByte 0x24 2) [] = none ∧
    operationResult (decR .done 0 0 0 .invalidByte 0x24 2) [] = some (.invalidByte 0x24 2) := by decide

/-- The text is what stands between the previous END token and this one; what no END follows is no text. -/
theorem test_texts_cut_at_end :
    cutTexts [] [.char 0x41, .finish, .char 0x42, .char 0x43, .finish, .char 0x44] =
      ([0x44], [[0x41], [0x42, 0x43]]) := by decide

/-- A reserved token on enc_in, an operation begun on dec_in meanwhile, then rst: both units are at reset. -/
theorem test_rst_after_refusal (x y z : Stray) :
    let b := Block.run [x, y, z]
      { state := machine ⟨7, 1⟩ (EncRegs.reset 7) (DecRegs.reset 1) 6 [.encToken 0x300, .decToken 0x000, .rst],
        encLost := false, decLost := false }
    b.state.enc = EncRegs.reset 7 ∧ b.state.dec = DecRegs.reset 1 ∧ b.state.decOut = [] ∧ b.encLost = false :=
  ⟨rfl, rfl, rfl, rfl⟩

/-! ### Witnesses: the hypotheses of each statement are met -/

/-- A decoder with room for one more byte: position `2^2 - 2`. -/
def scanning (st : DecSt) (mod : BitVec 2) : State :=
  machine ⟨7, 2⟩ (EncRegs.reset 7) { DecRegs.reset 2 with st := st, mod := mod, pos := 2 } 0 []

/-- A decoder at its last position. -/
def full (st : DecSt) : State :=
  machine ⟨7, 2⟩ (EncRegs.reset 7) { DecRegs.reset 2 with st := st, pos := 3 } 0 []

/-- An encoder in RUN. -/
def running (cfg : BitVec 11) (bcnt : ByteCount) (lcnt : BitVec 8) : State :=
  machine ⟨7, 2⟩ { st := .run, cfg := cfg, acc := 0, bcnt := bcnt, lcnt := lcnt } (DecRegs.reset 2) 0 []

/-- Both units resting, with host events to come. -/
def resting (p : Params) (cfg : BitVec (4 + p.lw)) (host : List (HostEvent p.lw)) : State :=
  machine p (EncRegs.reset p.lw) (DecRegs.reset p.pw) cfg host

theorem witness_DecodeOfEncodeGivesInstruction :
    Instr.wf (.decUpper 0x41) = true ∧ Instr.wf (.decUpper 0x5A) = true ∧ Instr.wf (.decInvalid 0xFF) = true := by decide

theorem witness_EncodeOfDecodeGivesToken : decode .decIn 0x1FF = .ok (.decInvalid 0xFF) := by decide

theorem witness_ReservedKindExactlyRefused :
    (resting ⟨7, 1⟩ 0 [.decToken 0x3FF]).host = tokenEvent 7 .decIn 0x3FF :: [] ∧ tokenKind 0x3FF = 0b11 :=
  ⟨rfl, by decide⟩

theorem witness_OpcodeMapRows :
    ((1 : BitVec 5) ≤ 1 ∧ (1 : BitVec 5) ≤ 26) ∧ ((1 : BitVec 5) ≤ 26 ∧ (26 : BitVec 5) ≤ 26) ∧ (9 : BitVec 4) ≤ 9 ∧
    isListedInvalid 0x00 = true ∧ isListedInvalid 0xFF = true := by decide

theorem witness_PresetWords : 7 ≤ 7 := by decide

theorem witness_RomContents :
    (25 : Sextet).toNat ≤ 25 ∧ 26 ≤ (26 : Sextet).toNat ∧ (51 : Sextet).toNat ≤ 51 ∧ 52 ≤ (52 : Sextet).toNat ∧
    (61 : Sextet).toNat ≤ 61 := by decide

theorem witness_CharacterValuesInvertBothRoms :
    ((0x41 : Byte) ≤ 0x41 ∧ (0x5A : Byte) ≤ 0x5A) ∧ ((0x61 : Byte) ≤ 0x61 ∧ (0x7A : Byte) ≤ 0x7A) ∧
    ((0x30 : Byte) ≤ 0x30 ∧ (0x39 : Byte) ≤ 0x39) := by decide

theorem witness_AssemblerLines :
    CfgOperand.word 7 .mime = some (presetMime 7) ∧ 2047 < 2 ^ (4 + 7) ∧
    CfgOperand.word 7 (.number 2047) = some 2047 ∧ 2 ^ (4 + 7) ≤ 2048 ∧ ({} : CfgFields).wrap = none ∧
    (({ wrap := some 127 } : CfgFields).wrap = some 127 ∧ 1 ≤ 127 ∧ 127 < 2 ^ 7) ∧
    (({ wrap := some 1 } : CfgFields).wrap = some 1 ∧ 1 ≤ 1 ∧ 1 < 2 ^ 7) ∧
    ({ wrap := some 0 } : CfgFields).wrap = some 0 ∧ 2 ^ 7 ≤ 128 ∧
    (decDataByte (.decUpper 0x5A) = some 0x5A ∧ listedClass 0x5A = .decUpper 0x5A) ∧
    (decDataByte (.decUpper 0x5B) = some 0x5B ∧ listedClass 0x5B ≠ .decUpper 0x5B) ∧ decDataByte (.decEnd 0) = none := by
  decide

theorem witness_EncStartLatchesConfiguration :
    (running 6 .zero 0).enc.st = .run ∧
    ((resting ⟨7, 2⟩ 8 []).enc.st ≠ .run ∧ cfgWrapEn (resting ⟨7, 2⟩ 8 []).encCfgI = true ∧
      cfgWrapLen (resting ⟨7, 2⟩ 8 []).encCfgI = 0) ∧
    ((resting ⟨7, 2⟩ 0x18 []).enc.st ≠ .run ∧ cfgWrapLen (resting ⟨7, 2⟩ 0x18 []).encCfgI ≠ 0) ∧
    ((resting ⟨7, 2⟩ 0x7F0 []).enc.st ≠ .run ∧ cfgWrapEn (resting ⟨7, 2⟩ 0x7F0 []).encCfgI = false) := by decide

theorem witness_EncDataPacksAndEmits :
    (resting ⟨7, 2⟩ 8 []).enc.st ≠ .run ∧
    ((running 6 .zero 0).enc.st = .run ∧ (running 6 .zero 0).enc.bcnt = .zero) ∧
    (running 6 .one 0).enc.bcnt = .one ∧
    ((running 6 .two 0).enc.bcnt = .two ∧ cfgWrapEn (running 6 .two 0).enc.cfg = false) ∧
    (cfgWrapEn (running 0x5E .two 4).enc.cfg = true ∧
      (running 0x5E .two 4).enc.lcnt.toNat < (cfgWrapLen (running 0x5E .two 4).enc.cfg).toNat) ∧
    (cfgWrapEn (running 0x4E .two 4).enc.cfg = true ∧
      (cfgWrapLen (running 0x4E .two 4).enc.cfg).toNat ≤ (running 0x4E .two 4).enc.lcnt.toNat) := by decide

theorem witness_EncEndEmitsTail :
    (resting ⟨7, 2⟩ 8 []).enc.st ≠ .run ∧
    ((running 6 .zero 0).enc.st = .run ∧ (running 6 .zero 0).enc.bcnt = .zero) ∧
    ((running 6 .one 0).enc.st = .run ∧ (running 6 .one 0).enc.bcnt = .one) ∧
    ((running 6 .two 0).enc.st = .run ∧ (running 6 .two 0).enc.bcnt = .two) := by decide

theorem witness_EncoderTransitionTable :
    encTransition (running 6 .two 0).enc.st (tokenKind 0x166) true = some .run ∧
    encTransition (running 6 .two 0).enc.st (tokenKind 0x000) true = none ∧
    encTransition (resting ⟨7, 2⟩ 8 []).enc.st (tokenKind 0x000) (cfgLegal (resting ⟨7, 2⟩ 8 []).encCfgI) = none := by
  decide

theorem witness_EncoderEmitsOnlyAllowedText :
    Instr.port (.encEnd 0) = .encIn ∧
    exec (.encEnd 0) (running 6 .one 0) =
      .next { running 6 .one 0 with
        enc := { (running 6 .one 0).enc with st := .done, acc := 0, bcnt := .zero, lcnt := 0 },
        encOut := (running 6 .one 0).encOut ++ [.char 0x41, .char 0x41, .char 0x3D, .char 0x3D, .finish] } ∧
    EncOut.char 0x3D ∈ [EncOut.char 0x41, .char 0x41, .char 0x3D, .char 0x3D, .finish] :=
  ⟨rfl, rfl, by decide⟩

theorem witness_EncoderStepsTouchOnlyEnc :
    ∃ t, Instr.port (.encData 0x66) = .encIn ∧ exec (.encData 0x66) (running 6 .zero 0) = .next t := ⟨_, rfl, rfl⟩

theorem witness_LineCountNeverOverflows :
    Inv (running 0x5E .two 4) ∧ (running 0x5E .two 4).enc.bcnt = .two ∧ cfgWrapEn (running 0x5E .two 4).enc.cfg = true ∧
    exec (.encData 0) (running 0x5E .two 4) =
      .next { running 0x5E .two 4 with
        enc := { (running 0x5E .two 4).enc with bcnt := .zero, lcnt := 8 },
        encOut := [.char 0x41, .char 0x41, .char 0x41, .char 0x41] } := by
  refine ⟨⟨by decide, ?_, rfl, by decide, by decide⟩, by decide, by decide, rfl⟩
  refine ⟨by decide, by decide, by decide, by decide, by decide⟩

theorem witness_DecStartOpensOperation :
    (scanning .failed 0).dec.st = .failed ∧ (resting ⟨7, 2⟩ 0 []).dec.st = .idle ∧ (scanning .done 0).dec.st = .done := by
  decide

theorem witness_DataPrologueOfEveryClass :
    decDataByte (.decInvalid 0xFF) = some 0xFF ∧ decDataByte .decCr = some 0x0D ∧ (scanning .failed 0).dec.st = .failed ∧
    (resting ⟨7, 2⟩ 0 []).dec.st = .idle ∧
    ((full .accumulating).dec.st = .accumulating ∧ (full .accumulating).dec.pos.toNat = 2 ^ 2 - 1) ∧
    ((full .terminatedByPad).dec.st = .terminatedByPad ∧ (full .terminatedByPad).dec.pos.toNat = 2 ^ 2 - 1) := by decide

theorem witness_DataCharacterAccumulates :
    dataChar (.decUpper 0x5A) = some (0x5A, 25) ∧ Instr.wf (.decUpper 0x5A) = true ∧
    (scanning .accumulating 2).dec.pos.toNat ≠ 2 ^ 2 - 1 ∧
    ((scanning .accumulating 2).dec.st = .accumulating ∧ (scanning .accumulating 2).dec.mod ≠ 3) ∧
    ((scanning .accumulating 3).dec.st = .accumulating ∧ (scanning .accumulating 3).dec.mod = 3) ∧
    (scanning .terminatedByPad 3).dec.st = .terminatedByPad := by decide

theorem witness_LineBreaksOnlyAdvance :
    (scanning .terminatedByPad 3).dec.st = .terminatedByPad ∧ (scanning .terminatedByPad 3).dec.pos.toNat ≠ 2 ^ 2 - 1 ∧
    (scanning .accumulating 3).dec.st = .accumulating := by decide

theorem witness_PadEndsData :
    (scanning .accumulating 3).dec.st = .accumulating ∧ (scanning .accumulating 3).dec.pos.toNat ≠ 2 ^ 2 - 1 := by decide

theorem witness_InvalidByteIsRecorded :
    (scanning .terminatedByPad 1).dec.st = .terminatedByPad ∧
    (scanning .terminatedByPad 1).dec.pos.toNat ≠ 2 ^ 2 - 1 := by decide

theorem witness_DecEndFinalizes :
    (resting ⟨7, 2⟩ 0 []).dec.st = .idle ∧ (scanning .failed 0).dec.st = .failed ∧
    ((scanning .accumulating 0).dec.st = .accumulating ∧ (scanning .accumulating 0).dec.mod = 0) ∧
    ((scanning .accumulating 1).dec.mod = 1 ∧ (scanning .terminatedByPad 2).dec.mod = 2) ∧
    (scanning .terminatedByPad 3).dec.mod = 3 := by decide

theorem witness_DecoderTransitionTable :
    decColumn .decPad = some .pad ∧
    ((full .accumulating).dec.st = .accumulating ∧ (full .accumulating).dec.pos.toNat = 2 ^ 2 - 1 ∧
      DecColumn.pad ≠ .start ∧ DecColumn.pad ≠ .finish) ∧
    (¬ (scanning .accumulating 0).dec.pos.toNat = 2 ^ 2 - 1) ∧ tokenKind 0x300 = 0b11 := by decide

theorem witness_DecoderStepsTouchOnlyDec :
    ∃ t, Instr.port .decPad = .decIn ∧ exec .decPad (scanning .accumulating 2) = .next t := ⟨_, rfl, rfl⟩

theorem witness_ErrorsAriseOnlyAsListed :
    Instr.wf (.decInvalid 0x24) = true ∧ Instr.port (.decInvalid 0x24) = .decIn ∧
    exec (.decInvalid 0x24) (scanning .accumulating 2) =
      .next { scanning .accumulating 2 with
        dec := { (scanning .accumulating 2).dec with st := .failed, status := .invalidByte, errByte := 0x24, errPos := 2 },
        decOut := (scanning .accumulating 2).decOut ++ [.status .invalidByte] } := ⟨by decide, rfl, rfl⟩

theorem witness_FailedDrainsUntilEnd :
    let s := { scanning .failed 1 with host := [.decToken 0x141, .decToken 0x2FF] }
    s.dec.st = .failed ∧
    s.host = [0x41].map (fun b => .decToken (mkToken 0b01 b)) ++ .decToken (mkToken 0b10 0xFF) :: [] := by decide

theorem witness_HighAccumulatorBitsNeverObserved :
    (0xFF000000 : BitVec 32).extractLsb' 0 24 = (scanning .accumulating 2).dec.acc.extractLsb' 0 24 ∧
    receiveToken .decIn 0x141 (scanning .accumulating 2) =
      .next { scanning .accumulating 2 with
        dec := { (scanning .accumulating 2).dec with mod := 3, pos := 3 }, decOut := [] } := ⟨by decide, rfl⟩

theorem witness_StepRunsDecodedInstruction :
    (resting ⟨7, 1⟩ 6 [.encToken 0x000]).host = tokenEvent 7 .encIn 0x000 :: [] ∧
    decode .encIn 0x000 = .ok (.encStart 0) := ⟨rfl, by decide⟩

theorem witness_StepOfOtherEvents :
    (resting ⟨7, 1⟩ 6 [.driveCfg 3]).host = .driveCfg 3 :: [] ∧ (resting ⟨7, 1⟩ 6 [.rst]).host = .rst :: [] ∧
    (resting ⟨7, 1⟩ 6 []).host = [] ∧
    (resting ⟨7, 1⟩ 6 [.encToken 0x166, .rst]).host = .encToken 0x166 :: [.rst] ∧
    isRefused (step (resting ⟨7, 1⟩ 6 [.encToken 0x166, .rst])) .protocolViolation = true ∧
    (resting ⟨7, 1⟩ 6 [.decToken 0x200, .rst]).host = .decToken 0x200 :: [.rst] ∧
    isRefused (step (resting ⟨7, 1⟩ 6 [.decToken 0x200, .rst])) .protocolViolation = true ∧
    isNext (step (resting ⟨7, 1⟩ 6 [.rst])) (resting ⟨7, 1⟩ 6 []) = true := by decide

theorem witness_PlacedWordRunsNext :
    decodeTableWord 16 0x0400 = some (.encStart 0) ∧ decodeTableWord 16 0x0300 = none := by decide

theorem witness_ResetRegisterValues : (resting ⟨7, 1⟩ 6 [.rst, .rst]).host = .rst :: [.rst] := by decide

theorem witness_RefusedExactlyAsListed :
    refusalOf (.decUpper 0x41) (full .accumulating) = some .positionOverflow ∧
    refusalOf (.encStart 0) (resting ⟨7, 1⟩ 8 []) = some .illegalConfiguration ∧
    refusalOf (.encStart 0) (resting ⟨7, 1⟩ 0x18 []) = none := by decide

theorem witness_EncoderRaisesNoError : (running 6 .zero 0).enc.st = .run := by decide

theorem witness_OutputBoundsPerStep :
    exec (.decEnd 0) (scanning .accumulating 3) =
      .next { scanning .accumulating 3 with
        dec := { (scanning .accumulating 3).dec with st := .done, mod := 0, pos := 0, status := .ok },
        decOut := (scanning .accumulating 3).decOut ++ [.byte 0, .byte 0, .status .ok] } ∧
    (scanning .accumulating 3).dec.st ≠ .failed ∧
    exec (.encData 0) (running 6 .two 0) =
      .next { running 6 .two 0 with
        enc := { (running 6 .two 0).enc with bcnt := .zero },
        encOut := (running 6 .two 0).encOut ++ [.char 0x41, .char 0x41, .char 0x41, .char 0x41] } ∧
    (running 6 .two 0).enc.bcnt = .two ∧ decDataByte .decPad = some 0x3D := ⟨rfl, by decide, rfl, rfl, rfl⟩

theorem witness_ConfigurationSampledOnlyAtStart : ∀ ignored, Instr.decPad ≠ .encStart ignored := by simp

/-- A DATA step to the last position, DEC.START, DEC.END from FAILED, and each instruction of ENC, all complete. -/
theorem witness_PositionNeverWraps :
    (decDataByte .decCr = some 0x0D ∧ ∃ t, exec .decCr (scanning .accumulating 2) = .next t) ∧
    (∃ t, exec (.decStart 0) (resting ⟨7, 2⟩ 0 []) = .next t) ∧ (∃ t, exec (.decEnd 0) (scanning .failed 2) = .next t) ∧
    (Instr.port (.encStart 0) = .encIn ∧ ∃ t, exec (.encStart 0) (resting ⟨7, 2⟩ 6 []) = .next t) ∧
    (Instr.port (.encData 0) = .encIn ∧ ∃ t, exec (.encData 0) (running 6 .two 0) = .next t) ∧
    (Instr.port (.encEnd 0) = .encIn ∧ ∃ t, exec (.encEnd 0) (running 6 .one 0) = .next t) :=
  ⟨⟨rfl, _, rfl⟩, ⟨_, rfl⟩, ⟨_, rfl⟩, ⟨rfl, _, rfl⟩, ⟨rfl, _, rfl⟩, ⟨rfl, _, rfl⟩⟩

theorem witness_ResetMeetsInvariant : Params.wf ⟨7, 1⟩ = true := by decide

theorem witness_StepKeepsInvariant :
    ∃ t, Inv (resting ⟨7, 1⟩ 6 [.decToken 0x000]) ∧ step (resting ⟨7, 1⟩ 6 [.decToken 0x000]) = .next t :=
  ⟨_, ⟨by decide, rfl, rfl, by decide, by decide⟩, rfl⟩

theorem witness_OutputStreamsOnlyGrow : ∃ t, step (resting ⟨7, 1⟩ 6 [.decToken 0x000]) = .next t := ⟨_, rfl⟩

theorem witness_InterleavingDoesNotMatter :
    let one : List (HostEvent 7) := [.encToken 0x000, .decToken 0x000]
    let two : List (HostEvent 7) := [.decToken 0x000, .encToken 0x000]
    one.all isTokenEvent = true ∧ two.all isTokenEvent = true ∧ encTokensOf one = encTokensOf two ∧
    decTokensOf one = decTokensOf two ∧ ∃ t, run one.length (resting ⟨7, 1⟩ 6 (one ++ [])) = .next t :=
  ⟨by decide, by decide, by decide, by decide, _, rfl⟩

theorem witness_StartErasesHistory :
    encResting .idle = true ∧ encResting .done = true ∧ decResting .idle = true ∧ decResting .done = true := by decide

/-- One DATA token is all that `2^1 - 1` allows: one more breaks the duty. -/
theorem witness_HostDutiesAvoidEveryRefusal :
    let s := resting ⟨7, 1⟩ 6 [.encToken 0x000, .decToken 0x000, .decToken 0x141, .encToken 0x200, .decToken 0x200]
    encResting s.enc.st = true ∧ decResting s.dec.st = true ∧
    keepsDuties 1 { encOpen := false, decCount := none, cfg := s.encCfgI } s.host = true ∧
    keepsDuties (lw := 7) 1 { encOpen := false, decCount := some 1, cfg := 6 } [.decToken 0x141] = false := by decide

theorem witness_EncodeProgramComputesEncode :
    let s := resting ⟨7, 1⟩ 6 [.encToken 0x000, .encToken 0x166, .encToken 0x200, .rst]
    s.params.wf = true ∧ encResting s.enc.st = true ∧ cfgLegal s.encCfgI = true ∧
    s.host = operationEvents s.params.lw .encIn [0x66] ++ [.rst] := by decide

/-- The three results, at the greatest length PW = 1 and PW = 2 allow. -/
theorem witness_DecodeProgramComputesDecode :
    let s := resting ⟨7, 1⟩ 6 [.decToken 0x000, .decToken 0x141, .decToken 0x200, .rst]
    decResting s.dec.st = true ∧ [(0x41 : Byte)].length < 2 ^ 1 ∧
    s.host = operationEvents s.params.lw .decIn [0x41] ++ [.rst] ∧ decodeText [0x41] = .invalidLength ∧
    decodeText [0x24] = .invalidByte 0x24 0 ∧ [(0x5A : Byte), 0x67, 0x3D].length < 2 ^ 2 ∧
    decodeText [0x5A, 0x67, 0x3D] = .ok [0x66] := by decide

theorem witness_DecodeOfEncodeIsIdentity : cfgLegal (6 : BitVec (4 + 7)) = true := by decide

theorem witness_HardwareRoundTrip :
    let s := resting ⟨7, 2⟩ 2 (operationEvents 7 .encIn [0x66] ++ operationEvents 7 .decIn [0x5A, 0x67])
    s.params.wf = true ∧ encResting s.enc.st = true ∧ decResting s.dec.st = true ∧ cfgLegal s.encCfgI = true ∧
    (encodeText s.encCfgI [0x66]).length < 2 ^ 2 ∧
    s.host = operationEvents s.params.lw .encIn [0x66] ++
      operationEvents s.params.lw .decIn (encodeText s.encCfgI [0x66]) := by decide

theorem witness_EmptyInputGivesEmptyOutput :
    let s := resting ⟨7, 1⟩ 6 [.encToken 0x0FF, .encToken 0x200]
    let t := resting ⟨7, 1⟩ 6 [.decToken 0x000, .decToken 0x2FF]
    encResting s.enc.st = true ∧ cfgLegal s.encCfgI = true ∧
    s.host = .encToken (mkToken 0b00 0xFF) :: .encToken (mkToken 0b10 0x00) :: [] ∧ decResting t.dec.st = true ∧
    t.host = .decToken (mkToken 0b00 0x00) :: .decToken (mkToken 0b10 0xFF) :: [] := by decide

theorem witness_EncodeLengthLaw : cfgLegal (0x5E : BitVec (4 + 7)) = true ∧ [(0 : Byte)].length ≠ 0 := by decide

theorem witness_WrappedTextIsLinesOfUnwrappedText :
    cfgLegal (0x18 : BitVec (4 + 7)) = true ∧ cfgWrapEn (0x18 : BitVec (4 + 7)) = true ∧ [(0 : Byte)] ≠ [] := by decide

theorem witness_DecodeErrorPrecedence :
    decodeText [0x5A, 0x3D, 0x24] = .invalidByte 0x24 2 ∧ decodeText [0x5A] = .invalidLength ∧
    decodeText [0x5A, 0x67] = .ok [0x66] := by decide

theorem witness_DecodeToleratesBreaksAndPads :
    (0x0D : Byte) = 0x0D ∧ decodeText ([0x5A] ++ 0x0D :: [0x67]) = .ok [0x66] ∧
    decodeText ([0x5A, 0x67] ++ List.replicate 3 0x3D) = .ok [0x66] := by decide

theorem witness_AlphabetNeverMattersToDecode :
    List.Forall₂ (fun c d => sameCharacter c d = true) [0x2B, 0x2F, 0x38] [0x2D, 0x5F, 0x38] :=
  .cons (by decide) (.cons (by decide) (.cons (by decide) .nil))

/-- The inputs on which the two reported bytes differ (log 12). -/
theorem witness_AlphabetExchangeKeepsReportedByte :
    List.Forall₂ (fun c d => sameCharacter c d = true) [0x3D, 0x2B] [0x3D, 0x2D] :=
  .cons (by decide) (.cons (by decide) .nil)

end Sys2Proof.Machine.Tests
end

section
/-! PROOFS. How a token reaches the meaning of its instruction: the rules of `receive` and `receiveToken`, and the
statement about `step` they give (spec/00_scope.md R8, spec/20_memory.md R41). -/

namespace Sys2Proof.Machine

theorem receive_tokenEvent (s : State) (p : Port) (w : Token) :
    receive s (tokenEvent s.params.lw p w) = receiveToken p w s := by
  cases p with
  | encIn => rfl
  | decIn => rfl

theorem receiveToken_of_decode_ok {p : Port} {w : Token} {i : Instr} (h : decode p w = .ok i) (s : State) :
    receiveToken p w s = exec i s := by
  simp [receiveToken, h]

theorem step_of_tokenEvent {s : State} {p : Port} {w : Token} {rest : List (HostEvent s.params.lw)}
    (h : s.host = tokenEvent s.params.lw p w :: rest) : step s = receiveToken p w { s with host := rest } :=
  (step_of_cons h).trans (receive_tokenEvent { s with host := rest } p w)

/-- Settles O34: the event is taken off the list, received on its port, and its decoded instruction executed. -/
theorem stepRunsDecodedInstruction : Obligations.StepRunsDecodedInstruction := by
  intro s p w i rest hhost hdecode
  calc step s
      = receiveToken p w { s with host := rest } := step_of_tokenEvent hhost
    _ = exec i { s with host := rest } := receiveToken_of_decode_ok hdecode _

end Sys2Proof.Machine
end

section
/-! PROOFS. The steps of the two units as relations: one case for each thing an instruction can do to the registers when
it completes. What every step keeps, and what it leaves alone, is proved case by case from these. -/

namespace Sys2Proof.Machine

/-- What an instruction of `enc_in` does to ENC's registers `r` and emits, `cfg` being the level on `enc_cfg_i`
(spec/40_encoder.md R80 to R82). -/
inductive EncEffect {lw : Nat} (cfg : BitVec (4 + lw)) (r : EncRegs lw) : Instr → EncRegs lw → List EncOut → Prop
  | start (ignored : Byte) (hst : r.st ≠ .run) (hcfg : cfgLegal cfg = true) :
      EncEffect cfg r (.encStart ignored) { st := .run, cfg := cfg, acc := 0, bcnt := .zero, lcnt := 0 } []
  | first (b : Byte) (hst : r.st = .run) (hb : r.bcnt = .zero) :
      EncEffect cfg r (.encData b) { r with acc := b.setWidth 24 <<< 16, bcnt := .one } []
  | second (b : Byte) (hst : r.st = .run) (hb : r.bcnt = .one) :
      EncEffect cfg r (.encData b) { r with acc := r.acc ||| b.setWidth 24 <<< 8, bcnt := .two } []
  | third (b : Byte) (hst : r.st = .run) (hb : r.bcnt = .two) :
      EncEffect cfg r (.encData b)
        { r with
          acc := r.acc ||| b.setWidth 24,
          bcnt := .zero,
          lcnt := if cfgWrapEn r.cfg then (if wrapDue r then 0 else r.lcnt) + 4 else r.lcnt }
        (tokensBefore r.cfg r.lcnt ++ groupTokens r.cfg (r.acc ||| b.setWidth 24))
  | finish (ignored : Byte) (hst : r.st = .run) :
      EncEffect cfg r (.encEnd ignored) { r with acc := 0, bcnt := .zero, lcnt := 0, st := .done }
        (emitTail r ++ [.finish])

theorem encStartUnit_effect {lw : Nat} {cfg : BitVec (4 + lw)} {r r' : EncRegs lw} {out : List EncOut} (ignored : Byte)
    (h : encStartUnit cfg r = .ok (r', out)) : EncEffect cfg r (.encStart ignored) r' out := by
  unfold encStartUnit at h
  split_ifs at h with hst hcfg
  cases h
  exact .start ignored hst hcfg

theorem encDataUnit_effect {lw : Nat} (cfg : BitVec (4 + lw)) {r r' : EncRegs lw} {out : List EncOut} {b : Byte}
    (h : encDataUnit b r = .ok (r', out)) : EncEffect cfg r (.encData b) r' out := by
  by_cases hst : r.st = .run
  · cases hb : r.bcnt with
    | zero =>
      simp only [encDataUnit, hst, hb, if_true] at h
      cases h
      simpa [hst] using EncEffect.first (cfg := cfg) b hst hb
    | one =>
      simp only [encDataUnit, hst, hb, if_true] at h
      cases h
      simpa [hst] using EncEffect.second (cfg := cfg) b hst hb
    | two =>
      rw [encDataUnit_third b r hst hb] at h
      cases h
      exact .third b hst hb
  · simp [encDataUnit, hst] at h

theorem encEndUnit_effect {lw : Nat} (cfg : BitVec (4 + lw)) {r r' : EncRegs lw} {out : List EncOut} (ignored : Byte)
    (h : encEndUnit r = .ok (r', out)) : EncEffect cfg r (.encEnd ignored) r' out := by
  unfold encEndUnit at h
  split_ifs at h with hst
  cases h
  exact .finish ignored hst

theorem encUnitOf_effect {lw : Nat} {cfg : BitVec (4 + lw)} {i : Instr} {r r' : EncRegs lw} {out : List EncOut}
    (hport : i.port = .encIn) (h : encUnitOf cfg i r = .ok (r', out)) : EncEffect cfg r i r' out := by
  cases i with
  | encStart ignored => exact encStartUnit_effect ignored h
  | encData b => exact encDataUnit_effect cfg h
  | encEnd ignored => exact encEndUnit_effect cfg ignored h
  | _ => cases hport

/-- What a DATA token with byte `c` does to DEC's registers `r` and emits (spec/41_decoder.md R101 to R112, R115). -/
inductive DataEffect {pw : Nat} (c : Byte) (r : DecRegs pw) : DecRegs pw → List DecOut → Prop
  | drained (hst : r.st = .failed) : DataEffect c r r []
  | accumulated (v : Sextet) (hst : r.st = .accumulating) (hpos : r.pos ≠ BitVec.allOnes pw) :
      DataEffect c r (advance r.pos (accumulate v r).1) (accumulate v r).2
  | skipped (hst : r.st = .accumulating ∨ r.st = .terminatedByPad) (hpos : r.pos ≠ BitVec.allOnes pw) :
      DataEffect c r (advance r.pos r) []
  | padded (hst : r.st = .accumulating) (hpos : r.pos ≠ BitVec.allOnes pw) :
      DataEffect c r (advance r.pos { r with st := .terminatedByPad }) []
  | rejected (hst : r.st = .accumulating ∨ r.st = .terminatedByPad) (hpos : r.pos ≠ BitVec.allOnes pw) :
      DataEffect c r (failByte c r.pos r).1 (failByte c r.pos r).2

/-- What an instruction of `dec_in` does to DEC's registers `r` and emits (spec/41_decoder.md R100 to R115). -/
inductive DecEffect {pw : Nat} (r : DecRegs pw) : Instr → DecRegs pw → List DecOut → Prop
  | start (ignored : Byte) (hst : r.st = .idle ∨ r.st = .done) :
      DecEffect r (.decStart ignored) { DecRegs.reset pw with st := .accumulating } []
  | data {i : Instr} {c : Byte} {r' : DecRegs pw} {out : List DecOut} (hi : decDataByte i = some c)
      (h : DataEffect c r r' out) : DecEffect r i r' out
  | finished (ignored : Byte) (hst : r.st = .accumulating ∨ r.st = .terminatedByPad) :
      DecEffect r (.decEnd ignored) (closeDec (finalize r).1) (finalize r).2
  | closed (ignored : Byte) (hst : r.st = .failed) : DecEffect r (.decEnd ignored) (closeDec r) []

section
variable {pw : Nat} {r r' : DecRegs pw} {out : List DecOut}

theorem dataCharacter_effect {v : Sextet} {c : Byte} (h : dataCharacter v c r = .ok (r', out)) :
    DataEffect c r r' out := by
  rcases dataPrologue_cases h with ⟨hst, hx⟩ | ⟨hst, hpos, hx⟩ | ⟨hst, hpos, hx⟩ <;> cases hx
  · exact .drained hst
  · exact .accumulated v hst hpos
  · exact .rejected (.inr hst) hpos

theorem skippedByte_effect (c : Byte) (h : skippedByte r = .ok (r', out)) : DataEffect c r r' out := by
  rcases dataPrologue_cases h with ⟨hst, hx⟩ | ⟨hst, hpos, hx⟩ | ⟨hst, hpos, hx⟩ <;> cases hx
  · exact .drained hst
  · exact .skipped (.inl hst) hpos
  · exact .skipped (.inr hst) hpos

theorem decPadUnit_effect (c : Byte) (h : decPadUnit r = .ok (r', out)) : DataEffect c r r' out := by
  rcases dataPrologue_cases h with ⟨hst, hx⟩ | ⟨hst, hpos, hx⟩ | ⟨hst, hpos, hx⟩ <;> cases hx
  · exact .drained hst
  · exact .padded hst hpos
  · exact .skipped (.inr hst) hpos

theorem decInvalidUnit_effect {c : Byte} (h : decInvalidUnit c r = .ok (r', out)) : DataEffect c r r' out := by
  rcases dataPrologue_cases h with ⟨hst, hx⟩ | ⟨hst, hpos, hx⟩ | ⟨hst, hpos, hx⟩ <;> cases hx
  · exact .drained hst
  · exact .rejected (.inl hst) hpos
  · exact .rejected (.inr hst) hpos

theorem decStartUnit_effect (ignored : Byte) (h : decStartUnit r = .ok (r', out)) :
    DecEffect r (.decStart ignored) r' out := by
  unfold decStartUnit at h
  split at h <;> cases h
  · exact .start ignored (.inl ‹_›)
  · exact .start ignored (.inr ‹_›)

theorem decEndUnit_effect (ignored : Byte) (h : decEndUnit r = .ok (r', out)) :
    DecEffect r (.decEnd ignored) r' out := by
  unfold decEndUnit at h
  split at h <;> cases h
  · exact .finished ignored (.inl ‹_›)
  · exact .finished ignored (.inr ‹_›)
  · exact .closed ignored ‹_›

theorem decUnitOf_effect {i : Instr} (hport : i.port = .decIn) (h : decUnitOf i r = .ok (r', out)) :
    DecEffect r i r' out := by
  cases i with
  | encStart | encData | encEnd => cases hport
  | decStart ignored => exact decStartUnit_effect ignored h
  | decEnd ignored => exact decEndUnit_effect ignored h
  | decUpper | decLower | decDigit | decPlus | decMinus | decSlash | decUnder =>
    exact .data rfl (dataCharacter_effect h)
  | decCr | decLf => exact .data rfl (skippedByte_effect _ h)
  | decPad => exact .data rfl (decPadUnit_effect _ h)
  | decInvalid c => exact .data rfl (decInvalidUnit_effect h)

end

/-- Everything an instruction that completes does to the state: the effect on its unit, and nothing else. -/
theorem exec_next_effect {i : Instr} {s t : State} (h : exec i s = .next t) :
    (i.port = .encIn ∧ ∃ r out, EncEffect s.encCfgI s.enc i r out ∧ t = s.putEnc r out) ∨
    (i.port = .decIn ∧ ∃ r out, DecEffect s.dec i r out ∧ t = s.putDec r out) := by
  rcases exec_next_cases h with ⟨hport, r, out, hunit, ht⟩ | ⟨hport, r, out, hunit, ht⟩
  · exact .inl ⟨hport, r, out, encUnitOf_effect hport hunit, ht⟩
  · exact .inr ⟨hport, r, out, decUnitOf_effect hport hunit, ht⟩

theorem exec_encIn_effect {i : Instr} {s t : State} (hport : i.port = .encIn) (h : exec i s = .next t) :
    ∃ r out, EncEffect s.encCfgI s.enc i r out ∧ t = s.putEnc r out := by
  rcases exec_next_effect h with ⟨-, heffect⟩ | ⟨hdec, -⟩
  · exact heffect
  · rw [hport] at hdec
    cases hdec

theorem exec_decIn_effect {i : Instr} {s t : State} (hport : i.port = .decIn) (h : exec i s = .next t) :
    ∃ r out, DecEffect s.dec i r out ∧ t = s.putDec r out := by
  rcases exec_next_effect h with ⟨henc, -⟩ | ⟨-, heffect⟩
  · rw [hport] at henc
    cases henc
  · exact heffect

end Sys2Proof.Machine
end

section
/-! PROOFS. The registers of ENC between steps (spec/10_state.md R11 to R15, R31): the cases of the invariant `EncInv`,
the line count as a number, and that every effect keeps the invariant. -/

namespace Sys2Proof.Machine

section
variable {lw : Nat} {r : EncRegs lw}

theorem encInv_iff_of_idle (h : r.st = .idle) : EncInv r ↔ r = EncRegs.reset lw := by
  simp only [EncInv, h]

theorem encInv_iff_of_done (h : r.st = .done) :
    EncInv r ↔ cfgLegal r.cfg = true ∧ r.acc = 0 ∧ r.bcnt = .zero ∧ r.lcnt = 0 := by
  simp only [EncInv, h]

theorem encInv_iff_of_run (h : r.st = .run) :
    EncInv r ↔
      cfgLegal r.cfg = true ∧ (r.bcnt = .one → r.acc.extractLsb' 0 16 = 0) ∧
      (r.bcnt = .two → r.acc.extractLsb' 0 8 = 0) ∧ (cfgWrapEn r.cfg = false → r.lcnt = 0) ∧
      (cfgWrapEn r.cfg = true → r.lcnt.toNat % 4 = 0 ∧ r.lcnt.toNat ≤ lineCapacity r.cfg) := by
  simp only [EncInv, h]

theorem encInv_reset (lw : Nat) : EncInv (EncRegs.reset lw) :=
  (encInv_iff_of_idle rfl).2 rfl

/-- Adding 4 does not overflow `LW + 1` bits: what the wrap check leaves is below the wrap length, so below `2^LW`. -/
theorem toNat_lcnt_after_group (hlw : 7 ≤ lw) (hen : cfgWrapEn r.cfg = true) :
    ((if wrapDue r then 0 else r.lcnt) + 4).toNat =
      (if (cfgWrapLen r.cfg).toNat ≤ r.lcnt.toNat then 0 else r.lcnt.toNat) + 4 := by
  have hlen := (cfgWrapLen r.cfg).isLt
  have hpow : 2 ^ (lw + 1) = 2 ^ lw + 2 ^ lw := by rw [pow_succ]; omega
  have hlarge : 2 ^ 7 ≤ 2 ^ lw := Nat.pow_le_pow_right (by decide) hlw
  have hfour : (4 : BitVec (lw + 1)).toNat = 4 := by
    change 4 % 2 ^ (lw + 1) = 4
    exact Nat.mod_eq_of_lt (by omega)
  have hzero : (0 : BitVec (lw + 1)).toNat = 0 := by simp
  have hdue := wrapDue_iff r
  by_cases hfull : (cfgWrapLen r.cfg).toNat ≤ r.lcnt.toNat
  · rw [if_pos (hdue.2 ⟨hen, hfull⟩), if_pos hfull, BitVec.toNat_add, hzero, hfour, Nat.mod_eq_of_lt (by omega)]
  · rw [if_neg fun h => hfull (hdue.1 h).2, if_neg hfull, BitVec.toNat_add, hfour, Nat.mod_eq_of_lt (by omega)]

/-- With wrapping enabled, the line count after a group is again a multiple of 4 within the line capacity. -/
theorem lcnt_after_group_le_lineCapacity (hlw : 7 ≤ lw) (hen : cfgWrapEn r.cfg = true) (hcfg : cfgLegal r.cfg = true)
    (hmod : r.lcnt.toNat % 4 = 0) :
    ((if wrapDue r then 0 else r.lcnt) + 4).toNat % 4 = 0 ∧
      ((if wrapDue r then 0 else r.lcnt) + 4).toNat ≤ lineCapacity r.cfg := by
  have hpos : (cfgWrapLen r.cfg).toNat ≠ 0 := fun h =>
    (cfgLegal_iff r.cfg).1 hcfg hen (BitVec.eq_of_toNat_eq (by simpa using h))
  rw [toNat_lcnt_after_group hlw hen, lineCapacity]
  split_ifs <;> omega

/-- The first byte of a group stands above 16 zero bits (R13). -/
theorem extractLsb'_first_byte (b : Byte) : (b.setWidth 24 <<< 16 : BitVec 24).extractLsb' 0 16 = 0 := by
  ext i hi
  simp [hi]

/-- The second byte leaves the low 8 bits of the pack register zero (R13). -/
theorem extractLsb'_second_byte {acc : BitVec 24} (b : Byte) (h : acc.extractLsb' 0 16 = 0) :
    (acc ||| b.setWidth 24 <<< 8).extractLsb' 0 8 = 0 := by
  ext i hi
  have hbit : (acc.extractLsb' 0 16).getLsbD i = false := by simp [h]
  have hacc : acc.getLsbD i = false := by simpa [show i < 16 by omega] using hbit
  simp [hi, ← BitVec.getLsbD_eq_getElem, hacc]

end

theorem EncEffect.keeps_encInv {lw : Nat} {cfg : BitVec (4 + lw)} {r r' : EncRegs lw} {i : Instr} {out : List EncOut}
    (hlw : 7 ≤ lw) (heffect : EncEffect cfg r i r' out) (hinv : EncInv r) : EncInv r' := by
  cases heffect with
  | start _ _ hcfg =>
    refine (encInv_iff_of_run rfl).2 ⟨hcfg, nofun, nofun, fun _ => rfl, fun _ => ?_⟩
    simp
  | first b hst _ =>
    obtain ⟨hcfg, -, -, hoff, hon⟩ := (encInv_iff_of_run hst).1 hinv
    exact (encInv_iff_of_run (by exact hst)).2 ⟨hcfg, fun _ => extractLsb'_first_byte b, nofun, hoff, hon⟩
  | second b hst hb =>
    obtain ⟨hcfg, hone, -, hoff, hon⟩ := (encInv_iff_of_run hst).1 hinv
    exact (encInv_iff_of_run (by exact hst)).2 ⟨hcfg, nofun, fun _ => extractLsb'_second_byte b (hone hb), hoff, hon⟩
  | third b hst _ =>
    obtain ⟨hcfg, -, -, hoff, hon⟩ := (encInv_iff_of_run hst).1 hinv
    refine (encInv_iff_of_run (by exact hst)).2 ⟨hcfg, nofun, nofun, fun hen => ?_, fun hen => ?_⟩
    · simpa [hen] using hoff hen
    · simpa [hen] using lcnt_after_group_le_lineCapacity (r := r) hlw hen hcfg (hon hen).1
  | finish _ hst =>
    obtain ⟨hcfg, -⟩ := (encInv_iff_of_run hst).1 hinv
    exact (encInv_iff_of_done rfl).2 ⟨hcfg, rfl, rfl, rfl⟩

end Sys2Proof.Machine
end

section
/-! PROOFS. The registers of DEC between steps (spec/10_state.md R16 to R22, R31): the cases of the invariant `DecInv`,
and that every effect keeps it. -/

namespace Sys2Proof.Machine

section
variable {pw : Nat} {r : DecRegs pw}

theorem decInv_iff_of_idle (h : r.st = .idle) : DecInv r ↔ r = DecRegs.reset pw := by
  simp only [DecInv, h]

theorem decInv_iff_of_accumulating (h : r.st = .accumulating) :
    DecInv r ↔ r.status = .none ∧ r.errByte = 0 ∧ r.errPos = 0 ∧ r.mod.toNat ≤ r.pos.toNat := by
  simp only [DecInv, h]

theorem decInv_iff_of_terminated (h : r.st = .terminatedByPad) :
    DecInv r ↔ r.status = .none ∧ r.errByte = 0 ∧ r.errPos = 0 ∧ r.mod.toNat < r.pos.toNat := by
  simp only [DecInv, h]

theorem decInv_iff_of_failed (h : r.st = .failed) :
    DecInv r ↔
      r.status = .invalidByte ∧ r.errPos = r.pos ∧ r.pos ≠ BitVec.allOnes pw ∧ r.mod.toNat ≤ r.pos.toNat := by
  simp only [DecInv, h]

theorem decInv_iff_of_done (h : r.st = .done) :
    DecInv r ↔ r.acc = 0 ∧ r.mod = 0 ∧ r.pos = 0 ∧ r.status ≠ .none ∧
      (r.status ≠ .invalidByte → r.errByte = 0 ∧ r.errPos = 0) := by
  simp only [DecInv, h]

theorem decInv_reset (pw : Nat) : DecInv (DecRegs.reset pw) :=
  (decInv_iff_of_idle rfl).2 rfl

/-- In both scanning states: no result and no error record, and at least as many bytes as characters pending. -/
theorem DecInv.scanning (hinv : DecInv r) (hst : r.st = .accumulating ∨ r.st = .terminatedByPad) :
    r.status = .none ∧ r.errByte = 0 ∧ r.errPos = 0 ∧ r.mod.toNat ≤ r.pos.toNat := by
  rcases hst with hst | hst
  · exact (decInv_iff_of_accumulating hst).1 hinv
  · obtain ⟨hstatus, hbyte, herr, hmod⟩ := (decInv_iff_of_terminated hst).1 hinv
    exact ⟨hstatus, hbyte, herr, hmod.le⟩

/-- Accumulate adds at most one pending character. -/
theorem toNat_mod_accumulate_le (v : Sextet) (r : DecRegs pw) : (accumulate v r).1.mod.toNat ≤ r.mod.toNat + 1 := by
  by_cases hmod : r.mod = 3
  · simp [accumulate_of_eq hmod]
  · rw [accumulate_of_ne hmod, BitVec.toNat_add]
    exact Nat.mod_le _ _

end

theorem DataEffect.keeps_decInv {pw : Nat} {c : Byte} {r r' : DecRegs pw} {out : List DecOut}
    (heffect : DataEffect c r r' out) (hinv : DecInv r) : DecInv r' := by
  cases heffect with
  | drained _ => exact hinv
  | accumulated v hst hpos =>
    obtain ⟨hstatus, hbyte, herr, hmod⟩ := (decInv_iff_of_accumulating hst).1 hinv
    obtain ⟨hst', -, hstatus', hbyte', herr'⟩ := accumulate_frame v r
    refine (decInv_iff_of_accumulating (by exact hst'.trans hst)).2
      ⟨hstatus'.trans hstatus, hbyte'.trans hbyte, herr'.trans herr, ?_⟩
    calc (accumulate v r).1.mod.toNat
        ≤ r.mod.toNat + 1 := toNat_mod_accumulate_le v r
      _ ≤ r.pos.toNat + 1 := Nat.succ_le_succ hmod
      _ = (r.pos + 1).toNat := (toNat_succ_of_ne hpos).symm
  | skipped hst hpos =>
    have hnext : (advance r.pos r).pos.toNat = r.pos.toNat + 1 := toNat_succ_of_ne hpos
    rcases hst with hst | hst
    · obtain ⟨hstatus, hbyte, herr, hmod⟩ := (decInv_iff_of_accumulating hst).1 hinv
      exact (decInv_iff_of_accumulating (by exact hst)).2 ⟨hstatus, hbyte, herr, hnext ▸ Nat.le_succ_of_le hmod⟩
    · obtain ⟨hstatus, hbyte, herr, hmod⟩ := (decInv_iff_of_terminated hst).1 hinv
      exact (decInv_iff_of_terminated (by exact hst)).2 ⟨hstatus, hbyte, herr, hnext ▸ Nat.lt_succ_of_lt hmod⟩
  | padded hst hpos =>
    obtain ⟨hstatus, hbyte, herr, hmod⟩ := (decInv_iff_of_accumulating hst).1 hinv
    have hnext : (r.pos + 1).toNat = r.pos.toNat + 1 := toNat_succ_of_ne hpos
    exact (decInv_iff_of_terminated (by rfl)).2 ⟨hstatus, hbyte, herr, hnext ▸ Nat.lt_succ_of_le hmod⟩
  | rejected hst hpos => exact (decInv_iff_of_failed (by rfl)).2 ⟨rfl, rfl, hpos, (hinv.scanning hst).2.2.2⟩

theorem DecEffect.keeps_decInv {pw : Nat} {r r' : DecRegs pw} {i : Instr} {out : List DecOut}
    (heffect : DecEffect r i r' out) (hinv : DecInv r) : DecInv r' := by
  cases heffect with
  | start _ _ => exact (decInv_iff_of_accumulating (by rfl)).2 ⟨rfl, rfl, rfl, le_refl 0⟩
  | data _ hdata => exact hdata.keeps_decInv hinv
  | finished _ hst =>
    obtain ⟨-, hbyte, herr, -⟩ := hinv.scanning hst
    obtain ⟨-, hbyte', herr', hstatus⟩ := finalize_frame r
    refine (decInv_iff_of_done (by rfl)).2
      ⟨rfl, rfl, rfl, ?_, fun _ => ⟨hbyte'.trans hbyte, herr'.trans herr⟩⟩
    rcases hstatus with hstatus | hstatus <;> simp [closeDec, hstatus]
  | closed _ hst =>
    obtain ⟨hstatus, -⟩ := (decInv_iff_of_failed hst).1 hinv
    refine (decInv_iff_of_done (by rfl)).2 ⟨rfl, rfl, rfl, ?_, fun h => absurd hstatus h⟩
    simp [closeDec, hstatus]

end Sys2Proof.Machine
end

section
/-! PROOFS. The tokens a step may put on the output streams (spec/30_encoding.md R61, spec/40_encoder.md R87). -/

namespace Sys2Proof.Machine

/-- Every entry of both ROMs is a byte of text. -/
theorem isTextByte_romRead (alpha : Bool) (i : Sextet) : isTextByte (romRead alpha i) = true := by
  have hmem : romRead alpha i ∈ (if alpha then romUrl else romStd) := by
    have hlength : i.toNat < (if alpha then romUrl else romStd).length := by
      cases alpha <;> exact i.isLt
    rw [romRead, List.getD_eq_getElem _ _ hlength]
    exact List.getElem_mem hlength
  cases alpha with
  | false =>
    have hstd : romRead false i ∈ romStd := hmem
    simp [isTextByte, hstd]
  | true =>
    have hurl : romRead true i ∈ romUrl := hmem
    simp [isTextByte, hurl]

section
variable {lw : Nat}

@[simp] theorem all_encOutAllowed_groupTokens (cfg : BitVec (4 + lw)) (n : BitVec 24) :
    (groupTokens cfg n).all encOutAllowed = true := by
  simp [groupTokens, encOutAllowed, isTextByte_romRead]

@[simp] theorem all_encOutAllowed_take_groupTokens (cfg : BitVec (4 + lw)) (n : BitVec 24) (k : Nat) :
    ((groupTokens cfg n).take k).all encOutAllowed = true :=
  List.all_eq_true.2 fun t ht =>
    List.all_eq_true.1 (all_encOutAllowed_groupTokens cfg n) t (List.mem_of_mem_take ht)

@[simp] theorem all_encOutAllowed_tokensBefore (cfg : BitVec (4 + lw)) (lcnt : BitVec (lw + 1)) :
    (tokensBefore cfg lcnt).all encOutAllowed = true := by
  unfold tokensBefore newlineTokens
  split_ifs <;> decide

@[simp] theorem all_encOutAllowed_padding (cfg : BitVec (4 + lw)) (k : Nat) :
    (padding cfg k).all encOutAllowed = true := by
  have hpad : encOutAllowed padChar = true := by decide
  unfold padding
  split_ifs
  · simp [hpad]
  · rfl

@[simp] theorem all_encOutAllowed_emitTail (r : EncRegs lw) : (emitTail r).all encOutAllowed = true := by
  rw [emitTail_eq]
  split <;> simp only [List.all_append, List.all_nil, all_encOutAllowed_tokensBefore, all_encOutAllowed_padding,
    all_encOutAllowed_take_groupTokens, Bool.and_self]

end

theorem EncEffect.all_encOutAllowed {lw : Nat} {cfg : BitVec (4 + lw)} {r r' : EncRegs lw} {i : Instr}
    {out : List EncOut} (heffect : EncEffect cfg r i r' out) : out.all encOutAllowed = true := by
  cases heffect with
  | start | first | second => rfl
  | third b _ _ =>
    rw [List.all_append, all_encOutAllowed_tokensBefore, all_encOutAllowed_groupTokens, Bool.and_self]
  | finish _ _ =>
    rw [List.all_append, all_encOutAllowed_emitTail]
    rfl

theorem all_decOutAllowed_accumulate {pw : Nat} (v : Sextet) (r : DecRegs pw) :
    (accumulate v r).2.all decOutAllowed = true := by
  unfold accumulate
  split <;> rfl

theorem all_decOutAllowed_finalize {pw : Nat} (r : DecRegs pw) : (finalize r).2.all decOutAllowed = true := by
  unfold finalize
  split_ifs <;> rfl

theorem DecEffect.all_decOutAllowed {pw : Nat} {r r' : DecRegs pw} {i : Instr} {out : List DecOut}
    (heffect : DecEffect r i r' out) : out.all decOutAllowed = true := by
  cases heffect with
  | start | closed => rfl
  | data _ hdata =>
    cases hdata with
    | drained | skipped | padded | rejected => rfl
    | accumulated v _ _ => exact all_decOutAllowed_accumulate v r
  | finished _ _ => exact all_decOutAllowed_finalize r

end Sys2Proof.Machine
end

section
/-! PROOFS. The invariant of the block (spec/10_state.md, spec/42_operations.md R141): it holds at reset and every step
keeps it. -/

namespace Sys2Proof.Machine

/-- The invariant does not speak of what the host does later. -/
theorem inv_withHost {s : State} (rest : List (HostEvent s.params.lw)) (h : Inv s) : Inv { s with host := rest } := h

/-- The invariant does not speak of the level on `enc_cfg_i`. -/
theorem inv_withCfg {s : State} (cfg : BitVec (4 + s.params.lw)) (h : Inv s) : Inv { s with encCfgI := cfg } := h

theorem seven_le_lw {s : State} (h : Inv s) : 7 ≤ s.params.lw := by
  have hwf := h.1
  simp only [Params.wf, Bool.and_eq_true, decide_eq_true_eq] at hwf
  exact hwf.1

theorem inv_putEnc {s : State} {r : EncRegs s.params.lw} {out : List EncOut} (h : Inv s) (hr : EncInv r)
    (hout : out.all encOutAllowed = true) : Inv (s.putEnc r out) := by
  obtain ⟨hwf, -, hdec, hencOut, hdecOut⟩ := h
  exact ⟨hwf, hr, hdec, by simp only [putEnc_encOut, List.all_append, hencOut, hout, Bool.and_self], hdecOut⟩

theorem inv_putDec {s : State} {r : DecRegs s.params.pw} {out : List DecOut} (h : Inv s) (hr : DecInv r)
    (hout : out.all decOutAllowed = true) : Inv (s.putDec r out) := by
  obtain ⟨hwf, henc, -, hencOut, hdecOut⟩ := h
  exact ⟨hwf, henc, hr, hencOut, by simp only [putDec_decOut, List.all_append, hdecOut, hout, Bool.and_self]⟩

theorem inv_applyRst {s : State} (h : Inv s) : Inv s.applyRst := by
  obtain ⟨hwf, -, -, hencOut, hdecOut⟩ := h
  exact ⟨hwf, encInv_reset _, decInv_reset _, hencOut, hdecOut⟩

theorem inv_resetWith {p : Params} (h : p.wf = true) : Inv (State.resetWith p) :=
  ⟨h, encInv_reset _, decInv_reset _, rfl, rfl⟩

/-- An instruction that completes keeps the invariant: its unit's registers by the cases of its effect, the rest because
it is left alone. -/
theorem exec_keeps_inv {i : Instr} {s t : State} (hinv : Inv s) (h : exec i s = .next t) : Inv t := by
  have ⟨_, henc, hdec, _⟩ := hinv
  rcases exec_next_effect h with ⟨-, r, out, heffect, rfl⟩ | ⟨-, r, out, heffect, rfl⟩
  · exact inv_putEnc hinv (heffect.keeps_encInv (seven_le_lw hinv) henc) heffect.all_encOutAllowed
  · exact inv_putDec hinv (heffect.keeps_decInv hdec) heffect.all_decOutAllowed

/-- Settles O45, by the cases of a step: nothing to do, a token executed, the port level driven, or `rst`. -/
theorem stepKeepsInvariant : Obligations.StepKeepsInvariant := by
  intro s t hinv hstep
  rcases step_next_cases hstep with ⟨-, rfl⟩ | ⟨e, rest, -, ⟨p, w, i, -, -, hexec⟩ | ⟨cfg, -, rfl⟩ | ⟨-, rfl⟩⟩
  · exact hinv
  · exact exec_keeps_inv (inv_withHost rest hinv) hexec
  · exact inv_withHost rest (inv_withCfg cfg hinv)
  · exact inv_applyRst (inv_withHost rest hinv)

/-- Settles O44: each register is at its reset value, and no token has been emitted. -/
theorem resetMeetsInvariant : Obligations.ResetMeetsInvariant :=
  ⟨fun _ => inv_resetWith, inv_resetWith (by decide)⟩

end Sys2Proof.Machine
end

section
/-! PROOFS. What the instructions of each unit leave alone (spec/10_state.md R10, R12, R21, R22, R52), the counters as
numbers (R15, R19), and the bits of `DEC_ACC` that nothing observes (R17). -/

namespace Sys2Proof.Machine

/-- Only ENC.START writes the configuration (R12). -/
theorem EncEffect.cfg_eq {lw : Nat} {cfg : BitVec (4 + lw)} {r r' : EncRegs lw} {i : Instr} {out : List EncOut}
    (heffect : EncEffect cfg r i r' out) (hi : ∀ ignored, i ≠ .encStart ignored) : r'.cfg = r.cfg := by
  cases heffect with
  | start ignored _ _ => exact absurd rfl (hi ignored)
  | first | second | third | finish => rfl

/-- Settles O20: a completing instruction of `enc_in` only replaces ENC's registers and appends to `enc_out`. -/
theorem encoderStepsTouchOnlyEnc : Obligations.EncoderStepsTouchOnlyEnc := by
  intro i s t hport hexec
  obtain ⟨r, out, heffect, rfl⟩ := exec_encIn_effect hport hexec
  exact ⟨r, out, rfl, heffect.cfg_eq⟩

/-- Settles O21: only a unit in RUN completes ENC.DATA, and the third byte of a group counts in `LW + 1` bits without
overflow. -/
theorem lineCountNeverOverflows : Obligations.LineCountNeverOverflows := by
  intro b s r out hinv hbcnt hen hexec
  obtain ⟨r', out', heffect, heq⟩ := exec_encIn_effect rfl hexec
  have hr : r = r' := by
    simp only [State.putEnc, State.mk.injEq, heq_eq_eq, true_and] at heq
    exact heq.1
  subst hr
  cases heffect with
  | first b _ hb => rw [hbcnt] at hb; cases hb
  | second b _ hb => rw [hbcnt] at hb; cases hb
  | third b _ _ => simpa only [hen, if_true] using toNat_lcnt_after_group (seven_le_lw hinv) hen

/-- The error record is written by DEC.START and by an invalid byte only (R21, R22). -/
theorem DecEffect.errRecord_eq {pw : Nat} {r r' : DecRegs pw} {i : Instr} {out : List DecOut}
    (heffect : DecEffect r i r' out) (hi : ∀ ignored, i ≠ .decStart ignored)
    (hout : DecOut.status .invalidByte ∉ out) : r'.errByte = r.errByte ∧ r'.errPos = r.errPos := by
  cases heffect with
  | start ignored _ => exact absurd rfl (hi ignored)
  | data _ hdata =>
    cases hdata with
    | drained | skipped | padded => exact ⟨rfl, rfl⟩
    | accumulated v _ _ =>
      obtain ⟨-, -, -, hbyte, hpos⟩ := accumulate_frame v r
      exact ⟨hbyte, hpos⟩
    | rejected _ _ => exact absurd (List.mem_singleton.2 rfl) hout
  | finished _ _ =>
    obtain ⟨-, hbyte, hpos, -⟩ := finalize_frame r
    exact ⟨hbyte, hpos⟩
  | closed _ _ => exact ⟨rfl, rfl⟩

/-- Settles O30: a completing instruction of `dec_in` only replaces DEC's registers and appends to `dec_out`. -/
theorem decoderStepsTouchOnlyDec : Obligations.DecoderStepsTouchOnlyDec := by
  intro i s t hport hexec
  obtain ⟨r, out, heffect, rfl⟩ := exec_decIn_effect hport hexec
  exact ⟨r, out, rfl, heffect.errRecord_eq⟩

/-- A DATA step leaves the position or, not being at the last one, adds one to its number (R19). -/
theorem DataEffect.toNat_pos {pw : Nat} {c : Byte} {r r' : DecRegs pw} {out : List DecOut}
    (heffect : DataEffect c r r' out) : r'.pos.toNat = r.pos.toNat ∨ r'.pos.toNat = r.pos.toNat + 1 := by
  cases heffect with
  | drained | rejected => exact .inl rfl
  | accumulated _ _ hpos | skipped _ hpos | padded _ hpos => exact .inr (toNat_succ_of_ne hpos)

/-- START and END clear the position (R100, R113). -/
theorem DecEffect.toNat_pos_of_control {pw : Nat} {r r' : DecRegs pw} {i : Instr} {out : List DecOut} {ignored : Byte}
    (heffect : DecEffect r i r' out) (hi : i = .decStart ignored ∨ i = .decEnd ignored) : r'.pos.toNat = 0 := by
  cases heffect with
  | start | finished | closed => rfl
  | data hdata => rcases hi with rfl | rfl <;> cases hdata

theorem port_of_decDataByte {i : Instr} {c : Byte} (h : decDataByte i = some c) : i.port = .decIn := by
  cases i with
  | encStart | encData | encEnd => cases h
  | _ => rfl

/-- Settles O43: a clause for each kind of instruction, from the effect of a completing one on its unit. -/
theorem positionNeverWraps : Obligations.PositionNeverWraps := by
  intro i s t hexec
  refine ⟨fun c hc => ?_, fun ignored hi => ?_, fun hport => ?_⟩
  · obtain ⟨r, out, heffect, rfl⟩ := exec_decIn_effect (port_of_decDataByte hc) hexec
    cases heffect with
    | start | finished | closed => cases hc
    | data _ hdata => exact hdata.toNat_pos
  · have hport : i.port = .decIn := by rcases hi with rfl | rfl <;> rfl
    obtain ⟨r, out, heffect, rfl⟩ := exec_decIn_effect hport hexec
    exact heffect.toNat_pos_of_control hi
  · obtain ⟨r, out, -, rfl⟩ := exec_encIn_effect hport hexec
    rfl

end Sys2Proof.Machine
end

section
/-! PROOFS. Noninterference of bits 31 to 24 of `DEC_ACC` (spec/10_state.md R17): a relation between two decoders that
agree on everything else, which every operation of DEC keeps and under which all emit the same tokens. -/

namespace Sys2Proof.Machine

/-- The registers agree but for bits 31 to 24 of the accumulator. -/
def SameLow {pw : Nat} (r q : DecRegs pw) : Prop :=
  q.acc.extractLsb' 0 24 = r.acc.extractLsb' 0 24 ∧ q = { r with acc := q.acc }

/-- The results agree: registers but for those bits, and the tokens. -/
def SameLowResult {pw : Nat} (x y : DecRegs pw × List DecOut) : Prop :=
  SameLow x.1 y.1 ∧ y.2 = x.2

/-- Whatever step `f` completes on one of two agreeing decoders, it completes on the other with an agreeing result. -/
def KeepsSameLow {pw : Nat} (f : DecRegs pw → DecResult pw) : Prop :=
  ∀ r q : DecRegs pw, SameLow r q → ∀ x, f r = .ok x → ∃ y, f q = .ok y ∧ SameLowResult x y

/-- The low `n` bits determine every field within them. -/
theorem extractLsb'_eq_of_low {w n start len : Nat} {a b : BitVec w} (h : a.extractLsb' 0 n = b.extractLsb' 0 n)
    (hfield : start + len ≤ n) : a.extractLsb' start len = b.extractLsb' start len := by
  ext i hi
  have hbit : (a.extractLsb' 0 n).getLsbD (start + i) = (b.extractLsb' 0 n).getLsbD (start + i) := by rw [h]
  simpa [show start + i < n by omega] using hbit

/-- Shifting a value in moves no bit down, so the low 24 bits of the sum depend on those of the accumulator. -/
theorem shiftIn_low {a b : BitVec 32} (v : Sextet) (h : a.extractLsb' 0 24 = b.extractLsb' 0 24) :
    (shiftIn a v).extractLsb' 0 24 = (shiftIn b v).extractLsb' 0 24 := by
  ext i hi
  have hbit : (a.extractLsb' 0 24).getLsbD (i - 6) = (b.extractLsb' 0 24).getLsbD (i - 6) := by rw [h]
  have hlow : a.getLsbD (i - 6) = b.getLsbD (i - 6) := by simpa [show i - 6 < 24 by omega] using hbit
  simp [shiftIn, hlow]

section
variable {pw : Nat} {r q : DecRegs pw}

theorem SameLow.of_acc {acc : BitVec 32} (h : acc.extractLsb' 0 24 = r.acc.extractLsb' 0 24) :
    SameLow r { r with acc := acc } :=
  ⟨h, rfl⟩

theorem SameLow.accumulate (v : Sextet) (h : SameLow r q) : SameLowResult (accumulate v r) (accumulate v q) := by
  obtain ⟨hlow, hq⟩ := h
  have hacc := shiftIn_low v hlow
  have hmod : q.mod = r.mod := by rw [hq]
  by_cases hthree : r.mod = 3
  · rw [accumulate_of_eq hthree, accumulate_of_eq (hmod.trans hthree)]
    refine ⟨⟨hacc, by rw [hq]⟩, ?_⟩
    simp only [extractLsb'_eq_of_low hacc (show 16 + 8 ≤ 24 by decide),
      extractLsb'_eq_of_low hacc (show 8 + 8 ≤ 24 by decide), extractLsb'_eq_of_low hacc (show 0 + 8 ≤ 24 by decide)]
  · rw [accumulate_of_ne hthree, accumulate_of_ne (hmod ▸ hthree)]
    exact ⟨⟨hacc, by rw [hq]⟩, rfl⟩

theorem SameLow.advance (p : BitVec pw) (h : SameLow r q) : SameLow (advance p r) (advance p q) := by
  obtain ⟨hlow, hq⟩ := h
  exact ⟨hlow, by rw [hq]; rfl⟩

theorem SameLow.failByte (c : Byte) (p : BitVec pw) (h : SameLow r q) :
    SameLowResult (failByte c p r) (failByte c p q) := by
  obtain ⟨hlow, hq⟩ := h
  exact ⟨⟨hlow, by rw [hq]; rfl⟩, rfl⟩

theorem SameLow.finalize (h : SameLow r q) : SameLowResult (finalize r) (finalize q) := by
  obtain ⟨hlow, hq⟩ := h
  have hmod : q.mod = r.mod := by rw [hq]
  have hsecond := extractLsb'_eq_of_low hlow (show 4 + 8 ≤ 24 by decide)
  have hthird := extractLsb'_eq_of_low hlow (show 10 + 8 ≤ 24 by decide)
  have hfourth := extractLsb'_eq_of_low hlow (show 2 + 8 ≤ 24 by decide)
  unfold Machine.finalize
  rw [hmod, hsecond, hthird, hfourth]
  split_ifs <;> exact ⟨⟨hlow, by rw [hq]; rfl⟩, rfl⟩

theorem SameLow.closeDec (h : SameLow r q) : SameLow (closeDec r) (closeDec q) := by
  obtain ⟨-, hq⟩ := h
  exact ⟨rfl, by rw [hq]; rfl⟩

end

section
variable {pw : Nat}

/-- The prologue reads the state and the position only; what it goes on with has to keep the relation. -/
theorem keepsSameLow_dataPrologue {inAcc inTbp : DecRegs pw → BitVec pw → DecRegs pw × List DecOut}
    (hacc : ∀ r q, SameLow r q → ∀ p, SameLowResult (inAcc r p) (inAcc q p))
    (htbp : ∀ r q, SameLow r q → ∀ p, SameLowResult (inTbp r p) (inTbp q p)) :
    KeepsSameLow (fun r => dataPrologue r (inAcc r) (inTbp r)) := by
  intro r q h x hx
  have hq := h.2
  have hst : q.st = r.st := by rw [hq]
  have hpos : q.pos = r.pos := by rw [hq]
  rcases dataPrologue_cases hx with ⟨hfailed, rfl⟩ | ⟨haccumulating, hroom, rfl⟩ | ⟨hterminated, hroom, rfl⟩
  · exact ⟨_, dataPrologue_failed (hst.trans hfailed), h, rfl⟩
  · exact ⟨_, dataPrologue_accumulating (hst.trans haccumulating) (hpos ▸ hroom), hpos ▸ hacc r q h r.pos⟩
  · exact ⟨_, dataPrologue_terminated (hst.trans hterminated) (hpos ▸ hroom), hpos ▸ htbp r q h r.pos⟩

theorem keepsSameLow_dataCharacter (v : Sextet) (c : Byte) : KeepsSameLow (dataCharacter (pw := pw) v c) :=
  keepsSameLow_dataPrologue (fun _ _ h p => ⟨(h.accumulate v).1.advance p, (h.accumulate v).2⟩)
    (fun _ _ h p => h.failByte c p)

theorem keepsSameLow_skippedByte : KeepsSameLow (skippedByte (pw := pw)) :=
  keepsSameLow_dataPrologue (fun _ _ h p => ⟨h.advance p, rfl⟩) (fun _ _ h p => ⟨h.advance p, rfl⟩)

theorem keepsSameLow_decPadUnit : KeepsSameLow (decPadUnit (pw := pw)) :=
  keepsSameLow_dataPrologue (fun _ _ ⟨hlow, hq⟩ _ => ⟨⟨hlow, by rw [hq]; rfl⟩, rfl⟩)
    (fun _ _ h p => ⟨h.advance p, rfl⟩)

theorem keepsSameLow_decInvalidUnit (c : Byte) : KeepsSameLow (decInvalidUnit (pw := pw) c) :=
  keepsSameLow_dataPrologue (fun _ _ h p => h.failByte c p) (fun _ _ h p => h.failByte c p)

theorem keepsSameLow_decStartUnit : KeepsSameLow (decStartUnit (pw := pw)) := by
  intro r q ⟨_, hq⟩ x hx
  have hst : q.st = r.st := by rw [hq]
  refine ⟨x, ?_, ⟨rfl, rfl⟩, rfl⟩
  rw [← hx]
  simp only [decStartUnit, hst]

theorem keepsSameLow_decEndUnit : KeepsSameLow (decEndUnit (pw := pw)) := by
  intro r q h x hx
  have hst : q.st = r.st := by rw [h.2]
  unfold decEndUnit at hx ⊢
  rw [hst]
  split at hx <;> cases hx
  · exact ⟨_, rfl, h.finalize.1.closeDec, h.finalize.2⟩
  · exact ⟨_, rfl, h.finalize.1.closeDec, h.finalize.2⟩
  · exact ⟨_, rfl, h.closeDec, rfl⟩

theorem keepsSameLow_decUnitOf {i : Instr} (hport : i.port = .decIn) : KeepsSameLow (decUnitOf (pw := pw) i) := by
  cases i with
  | encStart | encData | encEnd => cases hport
  | decStart _ => exact keepsSameLow_decStartUnit
  | decEnd _ => exact keepsSameLow_decEndUnit
  | decUpper | decLower | decDigit | decPlus | decMinus | decSlash | decUnder => exact keepsSameLow_dataCharacter _ _
  | decCr | decLf => exact keepsSameLow_skippedByte
  | decPad => exact keepsSameLow_decPadUnit
  | decInvalid c => exact keepsSameLow_decInvalidUnit c

end

/-- A row of the decoder's table: either it is taken, or a later row is. -/
theorem ite_ok_cases {taken : Prop} [Decidable taken] {i j : Instr} {later : Except DecodeError Instr}
    (h : (if taken then .ok j else later) = .ok i) : i = j ∨ later = .ok i := by
  by_cases htaken : taken
  · rw [if_pos htaken] at h
    cases h
    exact .inl rfl
  · rw [if_neg htaken] at h
    exact .inr h

/-- A token of `dec_in` decodes to an instruction of `dec_in`: every row of its table holds one. -/
theorem port_of_decode_decIn {w : Token} {i : Instr} (h : decode .decIn w = .ok i) : i.port = .decIn := by
  have hrows : decodeDecIn w = .ok i := h
  unfold decodeDecIn at hrows
  iterate 13
    rcases ite_ok_cases hrows with rfl | hrows
    · rfl
  cases hrows

/-- A token that `receiveToken` completes is an instruction's, and the step is that instruction's. -/
theorem receiveToken_next {p : Port} {w : Token} {s t : State} (h : receiveToken p w s = .next t) :
    ∃ i, decode p w = .ok i ∧ exec i s = .next t := by
  unfold receiveToken at h
  split at h
  · exact ⟨_, ‹_›, h⟩
  · cases h

/-- Settles O33: every instruction of `dec_in` keeps the relation `SameLow` and emits the same under it. -/
theorem highAccumulatorBitsNeverObserved : Obligations.HighAccumulatorBitsNeverObserved := by
  intro s acc w r out hlow hreceive
  obtain ⟨i, hdecode, hexec⟩ := receiveToken_next hreceive
  have hport := port_of_decode_decIn hdecode
  rw [exec_of_decIn hport] at hexec
  obtain ⟨r', out', hunit, heq⟩ := runDec_eq_next.1 hexec
  simp only [State.putDec, State.mk.injEq, heq_eq_eq, true_and, and_true] at heq
  obtain ⟨rfl, rfl⟩ := heq
  obtain ⟨⟨q, qout⟩, hother, ⟨hq, hregs⟩, rfl⟩ :=
    keepsSameLow_decUnitOf hport s.dec { s.dec with acc := acc } (.of_acc hlow) _ hunit
  refine ⟨q.acc, hq, ?_⟩
  rw [receiveToken_of_decode_ok hdecode, exec_of_decIn hport]
  exact runDec_eq_next.2 ⟨q, _, hother, by rw [← hregs]; rfl⟩

end Sys2Proof.Machine
end

section
/-! PROOFS. What the host reads and drives: the status ports (spec/10_state.md R23), the events other than tokens (R30,
spec/70_reset_and_hazards.md R170) and the reset values (R31). -/

namespace Sys2Proof.Machine

theorem encStPort_eq_iff (s : State) :
    (encStPort s = 0 ↔ s.enc.st = .idle) ∧ (encStPort s = 1 ↔ s.enc.st = .run) ∧
    (encStPort s = 2 ↔ s.enc.st = .done) := by
  unfold encStPort
  cases s.enc.st <;> decide

theorem decStPort_eq_iff (s : State) :
    (decStPort s = 0 ↔ s.dec.st = .idle) ∧ (decStPort s = 1 ↔ s.dec.st = .accumulating) ∧
    (decStPort s = 2 ↔ s.dec.st = .terminatedByPad) ∧ (decStPort s = 3 ↔ s.dec.st = .failed) ∧
    (decStPort s = 4 ↔ s.dec.st = .done) := by
  unfold decStPort
  cases s.dec.st <;> decide

/-- Different statuses have different codes (R20). -/
theorem statusCode_inj {a b : DecStatus} : statusCode a = statusCode b ↔ a = b := by
  cases a <;> cases b <;> decide

theorem encBusy_iff (s : State) : encBusy s = true ↔ s.enc.st = .run := by
  simp [encBusy]

theorem decBusy_iff (s : State) :
    decBusy s = true ↔ s.dec.st = .accumulating ∨ s.dec.st = .terminatedByPad ∨ s.dec.st = .failed := by
  simp [decBusy, or_assoc]

/-- Settles O38: the codes of each port tell the register's values apart. -/
theorem statusPorts : Obligations.StatusPorts := by
  intro s
  obtain ⟨hidle, hrun, hdone⟩ := encStPort_eq_iff s
  obtain ⟨hidle', haccumulating, hterminated, hfailed, hdone'⟩ := decStPort_eq_iff s
  exact ⟨hidle, hrun, hdone, hidle', haccumulating, hterminated, hfailed, hdone', statusCode_inj (b := .none),
    statusCode_inj (b := .ok), statusCode_inj (b := .invalidByte), statusCode_inj (b := .invalidLength), rfl, rfl,
    encBusy_iff s, decBusy_iff s⟩

/-- Settles O37: the reset values of R31, at power-up and at an `rst` event. -/
theorem resetRegisterValues : Obligations.ResetRegisterValues :=
  ⟨fun _ => ⟨rfl, rfl⟩, fun _ _ hhost => step_of_cons hhost⟩

/-- Settles O35: the events of `step` one by one, and the layer beyond a refusal by its law for each event. -/
theorem stepOfOtherEvents : Obligations.StepOfOtherEvents := by
  refine ⟨fun s cfg rest => ⟨fun h => step_of_cons h, fun h => step_of_cons h, fun h => step_of_nil h⟩,
    fun x s w rest why hrefused => ⟨fun h => ?_, fun h => ?_⟩, fun x s t h => blockStep_of_next x h,
    fun x b rest h => blockStep_of_rst x h⟩
  · exact ⟨_, _, blockStep_of_enc_refused x h hrefused⟩
  · exact ⟨_, _, blockStep_of_dec_refused x h hrefused⟩

end Sys2Proof.Machine
end

section
/-! PROOFS. The tables: the two alphabet ROMs (spec/10_state.md R24) and the class table (R26, spec/30_encoding.md R64,
R65). -/

namespace Sys2Proof.Machine

theorem romStd_nodup : romStd.Nodup := by decide

theorem romUrl_nodup : romUrl.Nodup := by decide

theorem toNat_romRead_upper (alpha : Bool) {i : Sextet} (h : i.toNat ≤ 25) :
    (romRead alpha i).toNat = 0x41 + i.toNat := by
  revert alpha i
  decide

theorem toNat_romRead_lower (alpha : Bool) {i : Sextet} (hlo : 26 ≤ i.toNat) (hhi : i.toNat ≤ 51) :
    (romRead alpha i).toNat = 0x47 + i.toNat := by
  revert alpha i
  decide

theorem toNat_romRead_digit (alpha : Bool) {i : Sextet} (hlo : 52 ≤ i.toNat) (hhi : i.toNat ≤ 61) :
    (romRead alpha i).toNat = i.toNat - 4 := by
  revert alpha i
  decide

/-- Settles O11: each clause of R24 is a fact about the 64 entries. -/
theorem romContents : Obligations.RomContents :=
  ⟨rfl, rfl, romStd_nodup, romUrl_nodup,
    fun alpha _ => ⟨toNat_romRead_upper alpha, toNat_romRead_lower alpha, toNat_romRead_digit alpha⟩, rfl, rfl, rfl, rfl⟩

theorem inByteRange_iff {lo hi c : Byte} : inByteRange lo hi c = true ↔ lo ≤ c ∧ c ≤ hi := by
  simp [inByteRange]

/-- The rows of R67 for a DATA token are the ranges of R64's table. -/
theorem decode_dataToken : ∀ c : Byte, decode .decIn (0b01#2 ++ c) = .ok (listedClass c) := by decide

section
variable {c : Byte}

theorem dataChar_listedClass_upper (hlo : 0x41 ≤ c) (hhi : c ≤ 0x5A) :
    dataChar (listedClass c) = some (c, (c - 0x41).setWidth 6) := by
  revert c
  decide

theorem dataChar_listedClass_lower (hlo : 0x61 ≤ c) (hhi : c ≤ 0x7A) :
    dataChar (listedClass c) = some (c, 26 + (c - 0x61).setWidth 6) := by
  revert c
  decide

theorem dataChar_listedClass_digit (hlo : 0x30 ≤ c) (hhi : c ≤ 0x39) :
    dataChar (listedClass c) = some (c, 52 + (c - 0x30).setWidth 6) := by
  revert c
  decide

end

/-- The entry says which instruction the byte's DATA token is, and its value (R26, R65). -/
def EntryDescribes (b : Byte) (i : Instr) : DClass → Prop
  | .value v => dataChar i = some (b, v)
  | .skip => i = .decCr ∨ i = .decLf
  | .pad => i = .decPad
  | .invalid => i = .decInvalid b

/-- Entry by entry of the class table, in its order. -/
theorem dclass_describes_listedClass (b : Byte) : EntryDescribes b (listedClass b) (dclass b) := by
  unfold dclass
  refine iteInduction (fun hlf => .inr (by rw [hlf]; decide)) fun hlf => ?_
  refine iteInduction (fun hcr => .inl (by rw [hcr]; decide)) fun hcr => ?_
  refine iteInduction (fun hplus => by rw [hplus]; rfl) fun hplus => ?_
  refine iteInduction (fun hminus => by rw [hminus]; rfl) fun hminus => ?_
  refine iteInduction (fun hslash => by rw [hslash]; rfl) fun hslash => ?_
  refine iteInduction (fun hdigit => dataChar_listedClass_digit hdigit.1 hdigit.2) fun hdigit => ?_
  refine iteInduction (fun hpad => by rw [hpad]; rfl) fun hpad => ?_
  refine iteInduction (fun hupper => dataChar_listedClass_upper hupper.1 hupper.2) fun hupper => ?_
  refine iteInduction (fun hunder => by rw [hunder]; rfl) fun hunder => ?_
  refine iteInduction (fun hlower => dataChar_listedClass_lower hlower.1 hlower.2) fun hlower => ?_
  simp only [EntryDescribes, listedClass, inByteRange_iff, hupper, hlower, hdigit, hplus, hminus, hslash, hunder, hcr,
    hlf, hpad, if_false]

/-- Settles O7: the token decodes to the instruction R64 lists for the byte, and the table's entry describes it. -/
theorem classTableIsTheClassification : Obligations.ClassTableIsTheClassification :=
  fun b => ⟨listedClass b, decode_dataToken b, dclass_describes_listedClass b⟩

end Sys2Proof.Machine
end

section
/-! PROOFS. What a step reads and what it leaves: only ENC.START reads the level on `enc_cfg_i` (spec/20_memory.md R54),
and the output streams only grow (R42, spec/70_reset_and_hazards.md R170). -/

namespace Sys2Proof.Machine

/-- Only ENC.START looks at the level on `enc_cfg_i` (R54 (b)). -/
theorem encUnitOf_eq_of_ne_start {i : Instr} (hi : ∀ ignored, i ≠ .encStart ignored) {lw : Nat}
    (cfg cfg' : BitVec (4 + lw)) : encUnitOf cfg i = encUnitOf cfg' i := by
  cases i with
  | encStart ignored => exact absurd rfl (hi ignored)
  | _ => rfl

/-- Settles O42: with the level changed, the instruction's unit runs the same function on the same registers, and the
next states agree in every field but the level. -/
theorem configurationSampledOnlyAtStart : Obligations.ConfigurationSampledOnlyAtStart := by
  intro i s cfg r q out dout hi
  cases hport : i.port with
  | encIn =>
    rw [exec_of_encIn hport, exec_of_encIn hport, encUnitOf_eq_of_ne_start hi cfg s.encCfgI,
      runEnc_eq_next, runEnc_eq_next]
    simp [State.putEnc]
  | decIn =>
    rw [exec_of_decIn hport, exec_of_decIn hport, runDec_eq_next, runDec_eq_next]
    simp [State.putDec]

/-- What R42 says of two states, the second one later: the same parameters, and each output stream continued. -/
def OutputExtends (s t : State) : Prop :=
  t.params = s.params ∧ (∃ out, t.encOut = s.encOut ++ out) ∧ (∃ out, t.decOut = s.decOut ++ out)

/-- A state whose output is that of `s` extends the output of `s`. -/
theorem OutputExtends.of_eq {s t : State} (hparams : t.params = s.params) (henc : t.encOut = s.encOut)
    (hdec : t.decOut = s.decOut) : OutputExtends s t :=
  ⟨hparams, ⟨[], by simp [henc]⟩, ⟨[], by simp [hdec]⟩⟩

/-- An instruction that completes appends to its unit's stream and leaves the other one (R42, R52). -/
theorem outputExtends_of_exec {i : Instr} {s t : State} (h : exec i s = .next t) : OutputExtends s t := by
  rcases exec_next_cases h with ⟨-, r, out, -, rfl⟩ | ⟨-, r, out, -, rfl⟩
  · exact ⟨rfl, ⟨out, rfl⟩, ⟨[], by simp⟩⟩
  · exact ⟨rfl, ⟨[], by simp⟩, ⟨out, rfl⟩⟩

/-- Settles O46, by the cases of a step: only an executed token emits, and `rst` takes nothing back. -/
theorem outputStreamsOnlyGrow : Obligations.OutputStreamsOnlyGrow := by
  intro s t hstep
  change OutputExtends s t
  rcases step_next_cases hstep with ⟨-, rfl⟩ | ⟨e, rest, -, ⟨p, w, i, -, -, hexec⟩ | ⟨cfg, -, rfl⟩ | ⟨-, rfl⟩⟩
  · exact .of_eq rfl rfl rfl
  · have hgrow : OutputExtends { s with host := rest } t := outputExtends_of_exec hexec
    exact hgrow
  · exact .of_eq rfl rfl rfl
  · exact .of_eq rfl rfl rfl

end Sys2Proof.Machine
end

section
/-! PROOFS. The interleaving of the two input streams (spec/20_memory.md R52): a run over delivered tokens is a run of ENC
over the tokens of `enc_in` beside a run of DEC over those of `dec_in`, so only these two sequences matter. -/

namespace Sys2Proof.Machine

/-- A token of `enc_in` decodes to an instruction of `enc_in`: every row of its table holds one. -/
theorem port_of_decode_encIn {w : Token} {i : Instr} (h : decode .encIn w = .ok i) : i.port = .encIn := by
  have hrows : decodeEncIn w = .ok i := h
  unfold decodeEncIn at hrows
  iterate 3
    rcases ite_ok_cases hrows with rfl | hrows
    · rfl
  cases hrows

/-- What ENC computes from one token of `enc_in` and its registers (R8), kind `11` being refused (R68 (a)). -/
def encTokenUnit {lw : Nat} (cfg : BitVec (4 + lw)) (w : Token) (r : EncRegs lw) : EncResult lw :=
  match decode .encIn w with
  | .ok i => encUnitOf cfg i r
  | .error _ => .error .reservedToken

/-- What DEC computes from one token of `dec_in` and its registers (R8), kind `11` being refused (R68 (a)). -/
def decTokenUnit {pw : Nat} (w : Token) (r : DecRegs pw) : DecResult pw :=
  match decode .decIn w with
  | .ok i => decUnitOf i r
  | .error _ => .error .reservedToken

theorem receiveToken_encIn (w : Token) (s : State) :
    receiveToken .encIn w s = runEnc s (encTokenUnit s.encCfgI w) := by
  cases h : decode .encIn w with
  | ok i =>
    rw [receiveToken_of_decode_ok h, exec_of_encIn (port_of_decode_encIn h)]
    simp [runEnc, encTokenUnit, h]
  | error e => simp [receiveToken, runEnc, encTokenUnit, h]

theorem receiveToken_decIn (w : Token) (s : State) : receiveToken .decIn w s = runDec s (decTokenUnit w) := by
  cases h : decode .decIn w with
  | ok i =>
    rw [receiveToken_of_decode_ok h, exec_of_decIn (port_of_decode_decIn h)]
    simp [runDec, decTokenUnit, h]
  | error e => simp [receiveToken, runDec, decTokenUnit, h]

/-- A unit with token step `f` goes from one register set to another over a sequence of tokens, emitting the listed
output, and refuses none of them. -/
inductive Consumes {ρ τ : Type} (f : Token → ρ → Except Refusal (ρ × List τ)) : ρ → List Token → ρ → List τ → Prop
  | nil (r : ρ) : Consumes f r [] r []
  | cons {w : Token} {ws : List Token} {r r' r'' : ρ} {out outs : List τ} (first : f w r = .ok (r', out))
      (later : Consumes f r' ws r'' outs) : Consumes f r (w :: ws) r'' (out ++ outs)

section
variable {lw : Nat} (w : Token) (events : List (HostEvent lw))

@[simp] theorem encTokensOf_nil : encTokensOf ([] : List (HostEvent lw)) = [] := rfl
@[simp] theorem decTokensOf_nil : decTokensOf ([] : List (HostEvent lw)) = [] := rfl
@[simp] theorem encTokensOf_cons_encToken : encTokensOf (.encToken w :: events) = w :: encTokensOf events := rfl
@[simp] theorem decTokensOf_cons_encToken : decTokensOf (.encToken w :: events) = decTokensOf events := rfl
@[simp] theorem encTokensOf_cons_decToken : encTokensOf (.decToken w :: events) = encTokensOf events := rfl
@[simp] theorem decTokensOf_cons_decToken : decTokensOf (.decToken w :: events) = w :: decTokensOf events := rfl

end

theorem run_succ_eq_next {k : Nat} {s t : State} :
    run (k + 1) s = .next t ↔ ∃ u, step s = .next u ∧ run k u = .next t := by
  cases h : step s with
  | next u => simp [run, h]
  | fault why => simp [run, h]
  | refused why => simp [run, h]

/-- The block with the units' registers, both output streams and the host's later events replaced: `s` gives the
parameters and the level on `enc_cfg_i`, which no token changes. -/
def State.withUnits (s : State) (r : EncRegs s.params.lw) (eout : List EncOut) (q : DecRegs s.params.pw)
    (dout : List DecOut) (host : List (HostEvent s.params.lw)) : State :=
  { s with enc := r, encOut := eout, dec := q, decOut := dout, host := host }

section
variable {s t : State} {r : EncRegs s.params.lw} {eout : List EncOut} {q : DecRegs s.params.pw} {dout : List DecOut}
  {w : Token} {host : List (HostEvent s.params.lw)}

/-- A step on a token of `enc_in` is ENC's step, in ENC's part of the state (R52). -/
theorem step_withUnits_encToken :
    step (s.withUnits r eout q dout (.encToken w :: host)) = .next t ↔
      ∃ r' out, encTokenUnit s.encCfgI w r = .ok (r', out) ∧ t = s.withUnits r' (eout ++ out) q dout host := by
  rw [step_of_cons rfl]
  change receiveToken .encIn w (s.withUnits r eout q dout host) = .next t ↔ _
  rw [receiveToken_encIn]
  exact runEnc_eq_next

/-- A step on a token of `dec_in` is DEC's step, in DEC's part of the state (R52). -/
theorem step_withUnits_decToken :
    step (s.withUnits r eout q dout (.decToken w :: host)) = .next t ↔
      ∃ q' out, decTokenUnit w q = .ok (q', out) ∧ t = s.withUnits r eout q' (dout ++ out) host := by
  rw [step_of_cons rfl]
  change receiveToken .decIn w (s.withUnits r eout q dout host) = .next t ↔ _
  rw [receiveToken_decIn]
  exact runDec_eq_next

end

/-- A run over delivered tokens completes exactly when each unit completes on its own tokens, and then each unit's part
of the state is what its own tokens make it. -/
theorem run_tokens_eq_next_iff {s t : State} {events rest : List (HostEvent s.params.lw)}
    (htokens : events.all isTokenEvent = true) (r : EncRegs s.params.lw) (eout : List EncOut)
    (q : DecRegs s.params.pw) (dout : List DecOut) :
    run events.length (s.withUnits r eout q dout (events ++ rest)) = .next t ↔
      ∃ r' out q' outs, Consumes (encTokenUnit s.encCfgI) r (encTokensOf events) r' out ∧
        Consumes decTokenUnit q (decTokensOf events) q' outs ∧
        t = s.withUnits r' (eout ++ out) q' (dout ++ outs) rest := by
  induction events generalizing r eout q dout with
  | nil =>
    constructor
    · intro h
      cases h
      exact ⟨r, [], q, [], .nil r, .nil q, by simp⟩
    · rintro ⟨r', out, q', outs, henc, hdec, rfl⟩
      cases henc
      cases hdec
      simp
  | cons e events ih =>
    rw [List.all_cons, Bool.and_eq_true] at htokens
    obtain ⟨htoken, htokens⟩ := htokens
    rw [List.length_cons, List.cons_append, run_succ_eq_next]
    cases e with
    | encToken w =>
      simp only [step_withUnits_encToken, encTokensOf_cons_encToken, decTokensOf_cons_encToken]
      constructor
      · rintro ⟨_, ⟨r₁, out₁, hunit, rfl⟩, hrun⟩
        obtain ⟨r', out, q', outs, henc, hdec, rfl⟩ := (ih htokens _ _ _ _).1 hrun
        exact ⟨r', _, q', outs, .cons hunit henc, hdec, by rw [List.append_assoc]⟩
      · rintro ⟨r', _, q', outs, henc, hdec, rfl⟩
        cases henc with
        | cons hunit henc =>
          exact ⟨_, ⟨_, _, hunit, rfl⟩,
            (ih htokens _ _ _ _).2 ⟨r', _, q', outs, henc, hdec, by rw [List.append_assoc]⟩⟩
    | decToken w =>
      simp only [step_withUnits_decToken, encTokensOf_cons_decToken, decTokensOf_cons_decToken]
      constructor
      · rintro ⟨_, ⟨q₁, out₁, hunit, rfl⟩, hrun⟩
        obtain ⟨r', out, q', outs, henc, hdec, rfl⟩ := (ih htokens _ _ _ _).1 hrun
        exact ⟨r', out, q', _, henc, .cons hunit hdec, by rw [List.append_assoc]⟩
      · rintro ⟨r', out, q', _, henc, hdec, rfl⟩
        cases hdec with
        | cons hunit hdec =>
          exact ⟨_, ⟨_, _, hunit, rfl⟩,
            (ih htokens _ _ _ _).2 ⟨r', out, q', _, henc, hdec, by rw [List.append_assoc]⟩⟩
    | driveCfg cfg => cases htoken
    | rst => cases htoken

/-- Settles O47: the run over either order is what each unit makes of its own tokens, which are the same. -/
theorem interleavingDoesNotMatter : Obligations.InterleavingDoesNotMatter := by
  intro s t one two rest hone htwo henc hdec hrun
  have hunits := (run_tokens_eq_next_iff hone s.enc s.encOut s.dec s.decOut).1 hrun
  rw [henc, hdec] at hunits
  exact (run_tokens_eq_next_iff htwo s.enc s.encOut s.dec s.decOut).2 hunits

end Sys2Proof.Machine
end

section
/-! PROOFS. The decoder and the encoder against each other (spec/30_encoding.md R60, R64, R67): what a token of each
kind decodes to on each port, and which instruction a DATA byte of `dec_in` stands for. -/

namespace Sys2Proof.Machine

/-- A row of the opcode map looks at the kind and at the data bits separately. -/
theorem matchesRow_iff {mask pattern w : Token} :
    matchesRow mask pattern w = true ↔
      tokenKind w &&& tokenKind mask = tokenKind pattern ∧ tokenData w &&& tokenData mask = tokenData pattern := by
  have hkind : tokenKind (w &&& mask) = tokenKind w &&& tokenKind mask := BitVec.extractLsb'_and
  have hdata : tokenData (w &&& mask) = tokenData w &&& tokenData mask := BitVec.extractLsb'_and
  rw [matchesRow, beq_iff_eq, ← hkind, ← hdata]
  constructor
  · rintro rfl
    exact ⟨rfl, rfl⟩
  · rintro ⟨hk, hd⟩
    rw [← mkToken_kind_data (w &&& mask), hk, hd, mkToken_kind_data]

section
variable {mask pattern : Token} {kind : BitVec 2} {data : Byte}

/-- A row that tests no data bit matches every token of its kind. -/
theorem matchesRow_of_kind (hkind : kind &&& tokenKind mask = tokenKind pattern) (hmask : tokenData mask = 0)
    (hpattern : tokenData pattern = 0) : matchesRow mask pattern (mkToken kind data) = true := by
  simp [matchesRow_iff, hkind, hmask, hpattern]

/-- A row does not match a token of another kind. -/
theorem matchesRow_of_kind_ne (hkind : kind &&& tokenKind mask ≠ tokenKind pattern) :
    matchesRow mask pattern (mkToken kind data) = false := by
  simp [Bool.eq_false_iff, matchesRow_iff, hkind]

end

section
variable (x : Byte)

theorem decode_encIn_start : decode .encIn (mkToken 0b00 x) = .ok (.encStart x) := by
  simp (disch := decide) only [decode, decodeEncIn, matchesRow_of_kind, ↓reduceIte, tokenData_mkToken]

theorem decode_encIn_data : decode .encIn (mkToken 0b01 x) = .ok (.encData x) := by
  simp (disch := decide) only [decode, decodeEncIn, matchesRow_of_kind, matchesRow_of_kind_ne, Bool.false_eq_true,
    ↓reduceIte, tokenData_mkToken]

theorem decode_encIn_end : decode .encIn (mkToken 0b10 x) = .ok (.encEnd x) := by
  simp (disch := decide) only [decode, decodeEncIn, matchesRow_of_kind, matchesRow_of_kind_ne, Bool.false_eq_true,
    ↓reduceIte, tokenData_mkToken]

theorem decode_decIn_start : decode .decIn (mkToken 0b00 x) = .ok (.decStart x) := by
  simp (disch := decide) only [decode, decodeDecIn, matchesRow_of_kind, ↓reduceIte, tokenData_mkToken]

theorem decode_decIn_data : decode .decIn (mkToken 0b01 x) = .ok (listedClass x) :=
  decode_dataToken x

theorem decode_decIn_end : decode .decIn (mkToken 0b10 x) = .ok (.decEnd x) := by
  simp (disch := decide) only [decode, decodeDecIn, matchesRow_of_kind, matchesRow_of_kind_ne, Bool.false_and,
    Bool.false_eq_true, ↓reduceIte, tokenData_mkToken]

/-- No row of either port has kind `11` (R68 (a)). -/
theorem decode_reserved (p : Port) : decode p (mkToken 0b11 x) = .error .reservedKind := by
  cases p with
  | encIn =>
    simp (disch := decide) only [decode, decodeEncIn, matchesRow_of_kind_ne, Bool.false_eq_true, ↓reduceIte]
  | decIn =>
    simp (disch := decide) only [decode, decodeDecIn, matchesRow_of_kind_ne, Bool.false_and, Bool.false_eq_true,
      ↓reduceIte]

end

/-! ### The DATA terms of `dec_in` -/

section
variable {i : Instr} {c : Byte}

theorem encode_of_decDataByte (h : decDataByte i = some c) : encode i = mkToken 0b01 c := by
  cases i <;> cases h <;> rfl

/-- The byte is an operand in three rows and the last one, and fixed by the row's condition in the others. -/
theorem decDataByte_listedClass (c : Byte) : decDataByte (listedClass c) = some c := by
  unfold listedClass
  iterate 3 refine iteInduction (motive := fun i => decDataByte i = some c) (fun _ => rfl) fun _ => ?_
  iterate 7 refine iteInduction (motive := fun i => decDataByte i = some c) (fun h => congrArg some h.symm) fun _ => ?_
  rfl

theorem listedClass_eq_upper_iff (c : Byte) : listedClass c = .decUpper c ↔ inByteRange 0x41 0x5A c = true := by
  revert c
  decide

theorem listedClass_eq_lower_iff (c : Byte) : listedClass c = .decLower c ↔ inByteRange 0x61 0x7A c = true := by
  revert c
  decide

theorem listedClass_eq_digit_iff (c : Byte) : listedClass c = .decDigit c ↔ inByteRange 0x30 0x39 c = true := by
  revert c
  decide

theorem listedClass_eq_invalid_iff (c : Byte) : listedClass c = .decInvalid c ↔ isListedInvalid c = true := by
  revert c
  decide

/-- A DATA term of `dec_in` is well-formed exactly when it is the one its byte stands for. -/
theorem wf_iff_listedClass (h : decDataByte i = some c) : i.wf = true ↔ listedClass c = i := by
  cases i <;> cases h
  case decUpper => exact (listedClass_eq_upper_iff c).symm
  case decLower => exact (listedClass_eq_lower_iff c).symm
  case decDigit => exact (listedClass_eq_digit_iff c).symm
  case decInvalid => exact (listedClass_eq_invalid_iff c).symm
  all_goals decide

theorem decode_encode_of_decDataByte (h : decDataByte i = some c) (hwf : i.wf = true) :
    decode i.port (encode i) = .ok i := by
  rw [port_of_decDataByte h, encode_of_decDataByte h, decode_decIn_data, (wf_iff_listedClass h).1 hwf]

end

/-! ### Both directions, and the reserved kind -/

/-- Settles O1: the row of each kind on each port; for a DATA token of `dec_in`, the class its byte stands for. -/
theorem decodeOfEncodeGivesInstruction : Obligations.DecodeOfEncodeGivesInstruction := by
  intro i hwf
  cases i with
  | encStart x => exact decode_encIn_start x
  | encData b => exact decode_encIn_data b
  | encEnd x => exact decode_encIn_end x
  | decStart x => exact decode_decIn_start x
  | decEnd x => exact decode_decIn_end x
  | _ => exact decode_encode_of_decDataByte rfl hwf

/-- Every token that is not of the reserved kind is the token of a well-formed instruction of either port. -/
theorem exists_encode_eq (p : Port) {w : Token} (h : tokenKind w ≠ 0b11) :
    ∃ i : Instr, i.wf = true ∧ i.port = p ∧ encode i = w := by
  obtain ⟨kind, data, rfl⟩ : ∃ kind data, w = mkToken kind data := ⟨_, _, (mkToken_kind_data w).symm⟩
  rw [tokenKind_mkToken] at h
  have hdata := decDataByte_listedClass data
  rcases mod_cases kind with rfl | rfl | rfl | rfl
  · cases p with
    | encIn => exact ⟨.encStart data, rfl, rfl, rfl⟩
    | decIn => exact ⟨.decStart data, rfl, rfl, rfl⟩
  · cases p with
    | encIn => exact ⟨.encData data, rfl, rfl, rfl⟩
    | decIn =>
      exact ⟨listedClass data, (wf_iff_listedClass hdata).2 rfl, port_of_decDataByte hdata, encode_of_decDataByte hdata⟩
  · cases p with
    | encIn => exact ⟨.encEnd data, rfl, rfl, rfl⟩
    | decIn => exact ⟨.decEnd data, rfl, rfl, rfl⟩
  · exact absurd rfl h

theorem decode_eq_error_iff (p : Port) (w : Token) : decode p w = .error .reservedKind ↔ tokenKind w = 0b11 := by
  constructor
  · intro herror
    by_contra hkind
    obtain ⟨i, hwf, rfl, rfl⟩ := exists_encode_eq p hkind
    rw [decodeOfEncodeGivesInstruction i hwf] at herror
    cases herror
  · intro hkind
    rw [← mkToken_kind_data w, hkind]
    exact decode_reserved _ p

/-- Settles O2: the token is that of some well-formed instruction of the port, and decoding gives that one back. -/
theorem encodeOfDecodeGivesToken : Obligations.EncodeOfDecodeGivesToken := by
  intro p w i hdecode
  have hkind : tokenKind w ≠ 0b11 := by
    intro hkind
    rw [(decode_eq_error_iff p w).2 hkind] at hdecode
    cases hdecode
  obtain ⟨j, hwf, rfl, rfl⟩ := exists_encode_eq p hkind
  rw [decodeOfEncodeGivesInstruction j hwf] at hdecode
  cases hdecode
  exact ⟨hwf, rfl, rfl⟩

/-- Settles O3: the rejected tokens are those of kind `11`, and `step` receives the delivered token. -/
theorem reservedKindExactlyRefused : Obligations.ReservedKindExactlyRefused := by
  refine ⟨decode_eq_error_iff, fun s p w rest hhost hkind => ?_⟩
  rw [step_of_tokenEvent hhost, receiveToken, (decode_eq_error_iff p w).2 hkind]

/-! ### The rows of R67 and the classes of R64 -/

theorem decode_upperRow : ∀ u : BitVec 5, 1 ≤ u → u ≤ 26 →
    decode .decIn (0b01010#5 ++ u) = .ok (.decUpper (0b010#3 ++ u)) ∧
      (upperValue (0b010#3 ++ u)).toNat = u.toNat - 1 := by
  decide

theorem decode_lowerRow : ∀ u : BitVec 5, 1 ≤ u → u ≤ 26 →
    decode .decIn (0b01011#5 ++ u) = .ok (.decLower (0b011#3 ++ u)) ∧
      (lowerValue (0b011#3 ++ u)).toNat = u.toNat + 25 := by
  decide

theorem decode_digitRow : ∀ d : BitVec 4, d ≤ 9 →
    decode .decIn (0b010011#6 ++ d) = .ok (.decDigit (0b0011#4 ++ d)) ∧
      (digitValue (0b0011#4 ++ d)).toNat = d.toNat + 52 := by
  decide

theorem decode_invalidRow (b : Byte) (h : isListedInvalid b = true) :
    decode .decIn (0b01#2 ++ b) = .ok (.decInvalid b) := by
  rw [decode_dataToken b, (listedClass_eq_invalid_iff b).2 h]

/-- Settles O4: row by row; a row of one byte is the class of that byte. -/
theorem opcodeMapRows : Obligations.OpcodeMapRows :=
  ⟨decode_encIn_start, decode_encIn_data, decode_encIn_end, decode_decIn_start, decode_upperRow, decode_lowerRow,
    decode_digitRow, decode_decIn_data 0x2B, decode_decIn_data 0x2D, decode_decIn_data 0x2F, decode_decIn_data 0x5F,
    decode_decIn_data 0x0D, decode_decIn_data 0x0A, decode_decIn_data 0x3D, decode_invalidRow, decode_decIn_end⟩

/-- Settles O5: each token is the row of its kind at one data byte. -/
theorem writtenTokensDecode : Obligations.WrittenTokensDecode :=
  ⟨decode_encIn_start 0xA7, decode_encIn_data 0x66, decode_encIn_end 0xFF, decode_decIn_start 0x00,
    decode_decIn_data 0x5A, decode_decIn_data 0x61, decode_decIn_data 0x39, decode_decIn_data 0x40,
    decode_decIn_data 0x3D, decode_decIn_end 0x00⟩

/-- Settles O6: the DATA row, the class INVALID as a set, and the eleven counts by enumerating the 256 bytes. -/
theorem byteClassesAsListed : Obligations.ByteClassesAsListed :=
  ⟨decode_decIn_data, listedClass_eq_invalid_iff, rfl, rfl, rfl, rfl, rfl, rfl, rfl, rfl, rfl, rfl, rfl⟩

end Sys2Proof.Machine
end

section
/-! PROOFS. The configuration word (spec/30_encoding.md R62) and its presets (R63): a word is its five fields, and its
number is their weighted sum. -/

namespace Sys2Proof.Machine

section
variable {lw : Nat} (alpha nl pad wrapEn : Bool) (len : BitVec lw)

@[simp] theorem cfgAlpha_cfgWord : cfgAlpha (cfgWord alpha nl pad wrapEn len) = alpha := by
  simp [cfgAlpha, cfgWord]

@[simp] theorem cfgNl_cfgWord : cfgNl (cfgWord alpha nl pad wrapEn len) = nl := by
  simp [cfgNl, cfgWord, show 1 < 4 + lw by omega]

@[simp] theorem cfgPad_cfgWord : cfgPad (cfgWord alpha nl pad wrapEn len) = pad := by
  simp [cfgPad, cfgWord, show 2 < 4 + lw by omega]

@[simp] theorem cfgWrapEn_cfgWord : cfgWrapEn (cfgWord alpha nl pad wrapEn len) = wrapEn := by
  simp [cfgWrapEn, cfgWord, show 3 < 4 + lw by omega]

@[simp] theorem cfgWrapLen_cfgWord : cfgWrapLen (cfgWord alpha nl pad wrapEn len) = len := by
  apply BitVec.eq_of_getLsbD_eq
  intro i hi
  simp [cfgWrapLen, cfgWord, hi, show 4 + i - 2 ≠ 0 by omega, show 4 + i - 3 ≠ 0 by omega]

theorem toNat_eq_fields (word : BitVec (4 + lw)) :
    word.toNat = (cfgAlpha word).toNat + 2 * (cfgNl word).toNat + 4 * (cfgPad word).toNat +
      8 * (cfgWrapEn word).toNat + 16 * (cfgWrapLen word).toNat := by
  have hlt : word.toNat < 16 * 2 ^ lw := by simpa [Nat.pow_add] using word.isLt
  have hlen : (cfgWrapLen word).toNat = word.toNat / 16 := by
    rw [cfgWrapLen, BitVec.extractLsb'_toNat, Nat.shiftRight_eq_div_pow, Nat.mod_eq_of_lt]
    omega
  simp only [cfgAlpha, cfgNl, cfgPad, cfgWrapEn, hlen, BitVec.getLsbD, Nat.toNat_testBit]
  omega

theorem toNat_cfgWord : (cfgWord alpha nl pad wrapEn len).toNat =
    alpha.toNat + 2 * nl.toNat + 4 * pad.toNat + 8 * wrapEn.toNat + 16 * len.toNat := by
  simpa using toNat_eq_fields (cfgWord alpha nl pad wrapEn len)

theorem cfgWord_fields (word : BitVec (4 + lw)) :
    cfgWord (cfgAlpha word) (cfgNl word) (cfgPad word) (cfgWrapEn word) (cfgWrapLen word) = word := by
  apply BitVec.eq_of_toNat_eq
  rw [toNat_cfgWord, ← toNat_eq_fields]

theorem cfgLegal_eq_false_iff (word : BitVec (4 + lw)) :
    cfgLegal word = false ↔ cfgWrapEn word = true ∧ cfgWrapLen word = 0 := by
  simp [cfgLegal]

end

/-- Settles O8: the fields read back from a word, and the number of a word from its fields. -/
theorem configurationWordLayout : Obligations.ConfigurationWordLayout :=
  fun _ alpha nl pad wrapEn len word =>
    ⟨toNat_cfgWord alpha nl pad wrapEn len, cfgAlpha_cfgWord .., cfgNl_cfgWord .., cfgPad_cfgWord ..,
      cfgWrapEn_cfgWord .., cfgWrapLen_cfgWord .., cfgWord_fields word, cfgLegal_eq_false_iff word⟩

/-- MIME's wrap length fits the field (R4: LW is at least 7). -/
theorem toNat_wrapLen_mime {lw : Nat} (h : 7 ≤ lw) : (76 : BitVec lw).toNat = 76 := by
  have hpow : 2 ^ 7 ≤ 2 ^ lw := Nat.pow_le_pow_right (by decide) h
  exact (BitVec.toNat_ofNat 76 lw).trans (Nat.mod_eq_of_lt (by omega))

/-- Settles O9: the presets are words of their fields, so their numbers are the sums of O8. -/
theorem presetWords : Obligations.PresetWords := by
  intro lw hlw
  have hlen := toNat_wrapLen_mime hlw
  have hne : (76 : BitVec lw) ≠ 0 := by
    intro hzero
    rw [hzero] at hlen
    simp at hlen
  refine ⟨?_, ?_, ?_, rfl, rfl, rfl, ?_, ?_, ?_, ?_⟩
  · simp [presetStandard, toNat_cfgWord]
  · simp [presetUrlSafe, toNat_cfgWord]
  · rw [presetMime, toNat_cfgWord, hlen]
    rfl
  · rw [presetMime, cfgWrapLen_cfgWord, hlen]
  · simp [presetStandard, cfgLegal_iff]
  · simp [presetUrlSafe, cfgLegal_iff]
  · rw [presetMime, cfgLegal_iff, cfgWrapLen_cfgWord]
    exact fun _ => hne

end Sys2Proof.Machine
end

section
/-! PROOFS. Operands and output tokens: the ROM indices of a group (spec/30_encoding.md R66), the values of the data
characters (R65), and the output token formats (R61). -/

namespace Sys2Proof.Machine

/-- The pack register holds the three bytes of a group side by side, the first one highest (R43). -/
theorem packGroup_eq_append (b0 b1 b2 : Byte) : packGroup b0 b1 b2 = (b0 ++ b1 ++ b2 : BitVec (8 + 8 + 8)) := by
  apply BitVec.eq_of_getLsbD_eq
  intro i hi
  simp only [packGroup, BitVec.getLsbD_or, BitVec.getLsbD_shiftLeft, BitVec.getLsbD_setWidth, BitVec.getLsbD_append]
  split_ifs with hlow hmid
  · simp [hlow, hi, show i < 16 by omega]
  · simp [hlow, hi, show i < 16 by omega, show i - 8 < 24 by omega, BitVec.getLsbD_of_ge b2 i (by omega)]
  · simp [hlow, hi, show ¬ i < 16 by omega, show i - 16 < 24 by omega, BitVec.getLsbD_of_ge b2 i (by omega),
      BitVec.getLsbD_of_ge b1 (i - 8) (by omega), Nat.sub_sub]

/-- Settles O13: an index lies within one byte of the group, or takes the low bits of one and the high bits of the
next. -/
theorem romIndicesFromBytes : Obligations.RomIndicesFromBytes := by
  intro b0 b1 b2
  simp only [packGroup_eq_append]
  refine ⟨?_, ?_, ?_, ?_⟩
  · rw [sextet0, BitVec.extractLsb'_append_eq_of_le (by omega), BitVec.extractLsb'_append_eq_of_le (by omega)]
  · rw [sextet1, BitVec.extractLsb'_append_eq_of_le (by omega), BitVec.extractLsb'_append_eq_ite, dif_pos (by decide),
      dif_neg (by decide)]
    rfl
  · rw [sextet2, BitVec.extractLsb'_append_eq_ite, dif_pos (by decide), dif_neg (by decide),
      BitVec.extractLsb'_append_eq_of_add_le (by omega)]
    rfl
  · rw [sextet3, BitVec.extractLsb'_append_eq_of_add_le (by omega)]

section
variable {c : Byte}

theorem charValue_upper (hlo : 0x41 ≤ c) (hhi : c ≤ 0x5A) : charValue c = some (upperValue c) :=
  if_pos ⟨hlo, hhi⟩

theorem charValue_lower (hlo : 0x61 ≤ c) (hhi : c ≤ 0x7A) : charValue c = some (lowerValue c) := by
  rw [charValue, if_neg (fun h => absurd (BitVec.le_trans hlo h.2) (by decide)), if_pos ⟨hlo, hhi⟩, lowerValue]

theorem charValue_digit (hlo : 0x30 ≤ c) (hhi : c ≤ 0x39) : charValue c = some (digitValue c) := by
  rw [charValue, if_neg (fun h => absurd (BitVec.le_trans h.1 hhi) (by decide)),
    if_neg (fun h => absurd (BitVec.le_trans h.1 hhi) (by decide)), if_pos ⟨hlo, hhi⟩, digitValue]

theorem toNat_upperValue (hlo : 0x41 ≤ c) (hhi : c ≤ 0x5A) : (upperValue c).toNat = c.toNat - 0x41 := by
  unfold upperValue
  bv_omega

theorem toNat_lowerValue (hlo : 0x61 ≤ c) (hhi : c ≤ 0x7A) : (lowerValue c).toNat = c.toNat - 0x47 := by
  unfold lowerValue
  bv_omega

theorem toNat_digitValue (hlo : 0x30 ≤ c) (hhi : c ≤ 0x39) : (digitValue c).toNat = c.toNat + 0x04 := by
  unfold digitValue
  bv_omega

theorem charValue_eq_none_iff (c : Byte) :
    charValue c = none ↔ isListedInvalid c = true ∨ c = 0x0D ∨ c = 0x0A ∨ c = 0x3D := by
  revert c
  decide

end

/-- The value of an entry is its index: by the three ranges of the ROMs, and the two entries where they differ. -/
theorem charValue_romRead (alpha : Bool) (i : Sextet) : charValue (romRead alpha i) = some i := by
  have hranges : i.toNat ≤ 25 ∨ (26 ≤ i.toNat ∧ i.toNat ≤ 51) ∨ (52 ≤ i.toNat ∧ i.toNat ≤ 61) ∨ i = 62 ∨ i = 63 := by
    bv_omega
  rcases hranges with hle | ⟨hge, hle⟩ | ⟨hge, hle⟩ | rfl | rfl
  · have hc := toNat_romRead_upper alpha hle
    have hlo : 0x41 ≤ romRead alpha i := by bv_omega
    have hhi : romRead alpha i ≤ 0x5A := by bv_omega
    rw [charValue_upper hlo hhi, Option.some_inj, ← BitVec.toNat_inj, toNat_upperValue hlo hhi]
    omega
  · have hc := toNat_romRead_lower alpha hge hle
    have hlo : 0x61 ≤ romRead alpha i := by bv_omega
    have hhi : romRead alpha i ≤ 0x7A := by bv_omega
    rw [charValue_lower hlo hhi, Option.some_inj, ← BitVec.toNat_inj, toNat_lowerValue hlo hhi]
    omega
  · have hc := toNat_romRead_digit alpha hge hle
    have hlo : 0x30 ≤ romRead alpha i := by bv_omega
    have hhi : romRead alpha i ≤ 0x39 := by bv_omega
    rw [charValue_digit hlo hhi, Option.some_inj, ← BitVec.toNat_inj, toNat_digitValue hlo hhi]
    omega
  · cases alpha <;> rfl
  · cases alpha <;> rfl

/-- Settles O12: the classes one by one, and the entries of the ROMs range by range. -/
theorem characterValuesInvertBothRoms : Obligations.CharacterValuesInvertBothRoms :=
  ⟨fun _ => ⟨fun hlo hhi => ⟨charValue_upper hlo hhi, toNat_upperValue hlo hhi⟩,
      fun hlo hhi => ⟨charValue_lower hlo hhi, toNat_lowerValue hlo hhi⟩,
      fun hlo hhi => ⟨charValue_digit hlo hhi, toNat_digitValue hlo hhi⟩⟩,
    rfl, rfl, rfl, rfl, charValue_eq_none_iff, charValue_romRead⟩

/-- Settles O10: CHAR and BYTE are tokens built from kind `01` and the byte; the others are fixed tokens. -/
theorem outputTokenFormats : Obligations.OutputTokenFormats :=
  ⟨fun c => ⟨tokenKind_mkToken 0b01 c, tokenData_mkToken 0b01 c⟩, rfl,
    fun b => ⟨tokenKind_mkToken 0b01 b, tokenData_mkToken 0b01 b⟩, rfl, rfl, rfl⟩

end Sys2Proof.Machine
end

section
/-! PROOFS. The assembler (spec/30_encoding.md R70, R71): the word of a configuration operand, the lines that name a
class, and the lines that stand for several. -/

namespace Sys2Proof.Machine

/-! ### The configuration operand -/

section
variable {lw : Nat} {f : CfgFields} {n : Nat}

theorem word_number_of_lt (h : n < 2 ^ (4 + lw)) :
    CfgOperand.word lw (.number n) = some (BitVec.ofNat (4 + lw) n) :=
  if_pos h

theorem word_number_of_le (h : 2 ^ (4 + lw) ≤ n) : CfgOperand.word lw (.number n) = none :=
  if_neg (Nat.not_lt.2 h)

theorem word_fields_of_none (h : f.wrap = none) : CfgOperand.word lw (.fields f) = some (f.wordWith false 0) := by
  simp only [CfgOperand.word, h]

theorem word_fields_of_fits (h : f.wrap = some n) (hlo : 1 ≤ n) (hhi : n < 2 ^ lw) :
    CfgOperand.word lw (.fields f) = some (f.wordWith true (BitVec.ofNat lw n)) := by
  simp only [CfgOperand.word, h, if_pos (And.intro hlo hhi)]

theorem word_fields_of_not_fits (h : f.wrap = some n) (hn : n = 0 ∨ 2 ^ lw ≤ n) :
    CfgOperand.word lw (.fields f) = none := by
  have hfit : ¬ (1 ≤ n ∧ n < 2 ^ lw) := by omega
  simp only [CfgOperand.word, h, if_neg hfit]

/-- What R70 says of the word of a field list: a field written has its value, one omitted has STANDARD's. -/
def FieldsWord (f : CfgFields) (word : BitVec (4 + lw)) : Prop :=
  (∀ url, f.url = some url → cfgAlpha word = url) ∧ (f.url = none → cfgAlpha word = cfgAlpha (presetStandard lw)) ∧
  (∀ crlf, f.crlf = some crlf → cfgNl word = crlf) ∧ (f.crlf = none → cfgNl word = cfgNl (presetStandard lw)) ∧
  (∀ pad, f.pad = some pad → cfgPad word = pad) ∧ (f.pad = none → cfgPad word = cfgPad (presetStandard lw)) ∧
  (∀ n, f.wrap = some n → cfgWrapEn word = true ∧ (cfgWrapLen word).toNat = n) ∧
  (f.wrap = none → cfgWrapEn word = false ∧ cfgWrapLen word = 0)

/-- The word built from a field list is right in the first three fields; the wrap fields are what they are given. -/
theorem fieldsWord_wordWith {wrapEn : Bool} {len : BitVec lw}
    (hsome : ∀ n, f.wrap = some n → wrapEn = true ∧ len.toNat = n) (hnone : f.wrap = none → wrapEn = false ∧ len = 0) :
    FieldsWord f (f.wordWith wrapEn len) := by
  simp +contextual only [FieldsWord, CfgFields.wordWith, presetStandard, cfgAlpha_cfgWord, cfgNl_cfgWord,
    cfgPad_cfgWord, cfgWrapEn_cfgWord, cfgWrapLen_cfgWord, Option.getD_some, Option.getD_none, implies_true, true_and]
  exact ⟨hsome, hnone⟩

theorem exists_word_fields (h : f.wrap = none ∨ ∃ n, f.wrap = some n ∧ 1 ≤ n ∧ n < 2 ^ lw) :
    ∃ word, CfgOperand.word lw (.fields f) = some word ∧ FieldsWord f word := by
  rcases h with hnone | ⟨n, hsome, hlo, hhi⟩
  · exact ⟨_, word_fields_of_none hnone, fieldsWord_wordWith (by simp [hnone]) fun _ => ⟨rfl, rfl⟩⟩
  · have hlen : (BitVec.ofNat lw n).toNat = n := (BitVec.toNat_ofNat n lw).trans (Nat.mod_eq_of_lt hhi)
    exact ⟨_, word_fields_of_fits hsome hlo hhi, fieldsWord_wordWith (by simpa [hsome] using hlen) (by simp [hsome])⟩

end

/-! ### The lines -/

/-- A DATA token as a number (R70). -/
theorem mkToken_data_eq_ofNat (b : Byte) : mkToken 0b01 b = BitVec.ofNat 10 (0x100 + b.toNat) := by
  apply BitVec.eq_of_toNat_eq
  have happend : (mkToken 0b01 b).toNat = 1 <<< 8 ||| b.toNat := BitVec.toNat_append 0b01#2 b
  rw [happend, ← Nat.shiftLeft_add_eq_or_of_lt b.isLt, BitVec.toNat_ofNat]
  omega

section
variable {lw : Nat} {i : Instr} {c : Byte}

theorem isClassLine_of_decDataByte (h : decDataByte i = some c) : isClassLine i = i.wf := by
  simp [isClassLine, port_of_decDataByte h, encode_of_decDataByte h]

/-- An instruction without a data byte on `dec_in` is one of `enc_in`, or its token is not of kind `01`. -/
theorem isClassLine_of_decDataByte_eq_none (h : decDataByte i = none) : isClassLine i = false := by
  cases i <;> cases h
  all_goals simp [isClassLine, Instr.port, encode]

theorem assemble_decClass_of_listedClass (h : decDataByte i = some c) (hclass : listedClass c = i) :
    assemble lw (.decClass i) = some [.decToken (BitVec.ofNat 10 (0x100 + c.toNat))] := by
  rw [assemble, isClassLine_of_decDataByte h, if_pos ((wf_iff_listedClass h).2 hclass), encode_of_decDataByte h,
    mkToken_data_eq_ofNat]

theorem assemble_decClass_of_listedClass_ne (h : decDataByte i = some c) (hclass : listedClass c ≠ i) :
    assemble lw (.decClass i) = none := by
  rw [assemble, isClassLine_of_decDataByte h, if_neg (mt (wf_iff_listedClass h).1 hclass)]

theorem assemble_decClass_of_decDataByte_eq_none (h : decDataByte i = none) : assemble lw (.decClass i) = none := by
  rw [assemble, isClassLine_of_decDataByte_eq_none h, if_neg Bool.false_ne_true]

end

/-! ### Programs -/

section
variable {lw : Nat} {rest : List AsmLine} {later : List (HostEvent lw)}

theorem assembleProgram_cons {line : AsmLine} {events : List (HostEvent lw)} (h : assemble lw line = some events)
    (hrest : assembleProgram lw rest = some later) : assembleProgram lw (line :: rest) = some (events ++ later) := by
  simp only [assembleProgram, h, hrest]

section
variable {line : Byte → AsmLine} {event : Byte → HostEvent lw} (h : ∀ b, assemble lw (line b) = some [event b])
  (bytes : List Byte)
include h

/-- One line a byte, then further lines. -/
theorem assembleProgram_map_append (hrest : assembleProgram lw rest = some later) :
    assembleProgram lw (bytes.map line ++ rest) = some (bytes.map event ++ later) := by
  induction bytes with
  | nil => exact hrest
  | cons b bytes ih => simpa using assembleProgram_cons (h b) ih

theorem assembleProgram_map : assembleProgram lw (bytes.map line) = some (bytes.map event) := by
  simpa using assembleProgram_map_append h bytes (rest := []) rfl

end

/-- The events of one operation, token by token. -/
theorem operationEvents_eq (p : Port) (bytes : List Byte) :
    operationEvents lw p bytes =
      tokenEvent lw p 0x000 :: bytes.map (fun b => tokenEvent lw p (mkToken 0b01 b)) ++ [tokenEvent lw p 0x200] := by
  simp [operationEvents, operationTokens, Function.comp_def]

theorem assemble_encData (b : Byte) : assemble lw (.encData b) = some [.encToken (mkToken 0b01 b)] := rfl

theorem assemble_decData (b : Byte) : assemble lw (.decData b) = some [.decToken (mkToken 0b01 b)] := rfl

theorem assemble_encStart {cfg : CfgOperand} {word : BitVec (4 + lw)} (h : cfg.word lw = some word) :
    assemble lw (.encStart cfg) = some [.driveCfg word, .encToken 0x000] := by
  rw [assemble, h, Option.map_some]

/-- `encode(bytes, cfg)` is the lines of R71. -/
theorem assemble_encode {cfg : CfgOperand} {word : BitVec (4 + lw)} (h : cfg.word lw = some word) (bytes : List Byte) :
    assemble lw (.encode bytes cfg) =
      assembleProgram lw (.encStart cfg :: bytes.map AsmLine.encData ++ [AsmLine.encEnd]) := by
  have hdata : assembleProgram lw (bytes.map AsmLine.encData ++ [AsmLine.encEnd]) =
      some (bytes.map (fun b => HostEvent.encToken (mkToken 0b01 b)) ++ [HostEvent.encToken 0x200]) :=
    assembleProgram_map_append assemble_encData bytes rfl
  rw [List.cons_append, assembleProgram_cons (assemble_encStart h) hdata, assemble, h, operationEvents_eq]
  rfl

/-- `decode(bytes)` is the lines of R71. -/
theorem assemble_decode (bytes : List Byte) :
    assemble lw (.decode bytes) = assembleProgram lw (.decStart :: bytes.map AsmLine.decData ++ [AsmLine.decEnd]) := by
  have hdata : assembleProgram lw (bytes.map AsmLine.decData ++ [AsmLine.decEnd]) =
      some (bytes.map (fun b => HostEvent.decToken (mkToken 0b01 b)) ++ [HostEvent.decToken 0x200]) :=
    assembleProgram_map_append assemble_decData bytes rfl
  rw [List.cons_append, assembleProgram_cons rfl hdata, assemble, operationEvents_eq]
  rfl

/-- `ENC.STR` is one ENC.DATA line a character (R71). -/
theorem assemble_encStr (text : List Byte) :
    assemble lw (.encStr text) = assembleProgram lw (text.map .encData) :=
  (assembleProgram_map assemble_encData text).symm

/-- `DEC.STR` is one DEC.DATA line a character (R71). -/
theorem assemble_decStr (text : List Byte) :
    assemble lw (.decStr text) = assembleProgram lw (text.map .decData) :=
  (assembleProgram_map assemble_decData text).symm

end

/-- Settles O14: the operands, the class lines, and the lines as the programs they expand to. -/
theorem assemblerLines : Obligations.AssemblerLines := by
  refine ⟨fun lw => ⟨rfl, rfl, rfl, word_fields_of_none rfl, fun n hn => ?_, fun n => word_number_of_le,
      fun f => exists_word_fields, fun f n => word_fields_of_not_fits⟩,
    fun lw i => ⟨fun c hdata => ⟨assemble_decClass_of_listedClass hdata, assemble_decClass_of_listedClass_ne hdata⟩,
      assemble_decClass_of_decDataByte_eq_none⟩,
    fun lw b bytes cfg word => ⟨?_, ?_, rfl, rfl, rfl,
      fun hword => ⟨assemble_encStart hword, assemble_encode hword bytes⟩, assemble_decode bytes, assemble_encStr bytes,
      assemble_decStr bytes⟩⟩
  · exact ⟨_, word_number_of_lt hn, (BitVec.toNat_ofNat n _).trans (Nat.mod_eq_of_lt hn)⟩
  · rw [assemble_encData, mkToken_data_eq_ofNat]
  · rw [assemble_decData, mkToken_data_eq_ofNat]

end Sys2Proof.Machine
end

section
/-! PROOFS. The encoder's instructions (spec/40_encoder.md R80 to R82): each unit function in each of its cases, and the
exact next states they give. -/

namespace Sys2Proof.Machine

theorem putEnc_nil (s : State) (r : EncRegs s.params.lw) : s.putEnc r [] = { s with enc := r } := by
  simp [State.putEnc]

section
variable {lw : Nat} {cfg : BitVec (4 + lw)} {r : EncRegs lw} {b : Byte}

theorem encStartUnit_of_run (h : r.st = .run) : encStartUnit cfg r = .error .protocolViolation :=
  if_pos h

theorem encStartUnit_of_illegal (h : r.st ≠ .run) (hcfg : ¬ cfgLegal cfg = true) :
    encStartUnit cfg r = .error .illegalConfiguration := by
  rw [encStartUnit, if_neg h, if_neg hcfg]

theorem encStartUnit_of_legal (h : r.st ≠ .run) (hcfg : cfgLegal cfg = true) :
    encStartUnit cfg r = .ok ({ st := .run, cfg := cfg, acc := 0, bcnt := .zero, lcnt := 0 }, []) := by
  rw [encStartUnit, if_neg h, if_pos hcfg]

theorem encDataUnit_of_ne_run (h : r.st ≠ .run) : encDataUnit b r = .error .protocolViolation :=
  if_neg h

theorem encDataUnit_first (h : r.st = .run) (hb : r.bcnt = .zero) :
    encDataUnit b r = .ok ({ r with acc := b.setWidth 24 <<< 16, bcnt := .one }, []) := by
  rw [encDataUnit, if_pos h, hb]

theorem encDataUnit_second (h : r.st = .run) (hb : r.bcnt = .one) :
    encDataUnit b r = .ok ({ r with acc := r.acc ||| b.setWidth 24 <<< 8, bcnt := .two }, []) := by
  rw [encDataUnit, if_pos h, hb]

theorem encEndUnit_of_ne_run (h : r.st ≠ .run) : encEndUnit r = .error .protocolViolation :=
  if_neg h

theorem encEndUnit_of_run (h : r.st = .run) :
    encEndUnit r =
      .ok ({ st := .done, cfg := r.cfg, acc := 0, bcnt := .zero, lcnt := 0 }, emitTail r ++ [.finish]) :=
  if_pos h

end

/-- An instruction of `enc_in` that emits nothing changes ENC's registers only. -/
theorem exec_of_encUnitOf_silent {i : Instr} {s : State} {r : EncRegs s.params.lw} (hport : i.port = .encIn)
    (h : encUnitOf s.encCfgI i s.enc = .ok (r, [])) : exec i s = .next { s with enc := r } := by
  rw [exec_of_encIn hport, runEnc_ok h, putEnc_nil]

/-- Settles O15: the three cases of ENC.START's unit function. -/
theorem encStartLatchesConfiguration : Obligations.EncStartLatchesConfiguration := by
  intro ignored s
  refine ⟨fun hrun => ?_, fun hrest hen hlen => ?_, fun hrest hlegal => ?_⟩
  · exact runEnc_eq_refused.2 (encStartUnit_of_run hrun)
  · exact runEnc_eq_refused.2 (encStartUnit_of_illegal hrest fun h => (cfgLegal_iff _).1 h hen hlen)
  · exact exec_of_encUnitOf_silent rfl (encStartUnit_of_legal hrest ((cfgLegal_iff _).2 hlegal))

/-- Settles O16: one case a byte of the group, the third by what the wrap check finds. -/
theorem encDataPacksAndEmits : Obligations.EncDataPacksAndEmits := by
  intro b s
  refine ⟨fun hrest => ?_, fun hrun hb => ?_, fun hrun hb => ?_, fun hrun hb hen => ?_, fun hrun hb hen hlt => ?_,
    fun hrun hb hen hle => ?_⟩
  · exact runEnc_eq_refused.2 (encDataUnit_of_ne_run hrest)
  · exact exec_of_encUnitOf_silent rfl (encDataUnit_first hrun hb)
  · exact exec_of_encUnitOf_silent rfl (encDataUnit_second hrun hb)
  · have hthird := encDataUnit_third b s.enc hrun hb
    simp only [hen, tokensBefore, Bool.false_eq_true, false_and, if_false, List.nil_append] at hthird
    exact runEnc_ok hthird
  · have hdue : ¬ wrapDue s.enc = true := fun h => absurd ((wrapDue_iff _).1 h).2 (by omega)
    have hthird := encDataUnit_third b s.enc hrun hb
    simp only [hen, hdue, tokensBefore, Nat.not_le.2 hlt, and_false, if_true, if_false, List.nil_append] at hthird
    exact runEnc_ok hthird
  · have hdue : wrapDue s.enc = true := (wrapDue_iff _).2 ⟨hen, hle⟩
    have hthird := encDataUnit_third b s.enc hrun hb
    simp only [hen, hdue, tokensBefore, hle, and_self, if_true] at hthird
    rw [List.append_assoc]
    exact runEnc_ok hthird

/-- Settles O17: the registers are written alike in every case; the tail is read off the number of bytes pending. -/
theorem encEndEmitsTail : Obligations.EncEndEmitsTail := by
  intro ignored s n lead ended
  have hnext : s.enc.st = .run → exec (.encEnd ignored) s = .next (s.putEnc ended (emitTail s.enc ++ [.finish])) :=
    fun hrun => runEnc_ok (encEndUnit_of_run hrun)
  refine ⟨fun hrest => ?_, fun hrun hb => ?_, fun hrun hb => ?_, fun hrun hb => ?_⟩
  · exact runEnc_eq_refused.2 (encEndUnit_of_ne_run hrest)
  · rw [hnext hrun, emitTail_eq, hb]
    rfl
  · rw [hnext hrun, emitTail_eq, hb]
    rfl
  · rw [hnext hrun, emitTail_eq, hb]
    rfl

end Sys2Proof.Machine
end

section
/-! PROOFS. The encoder's transition table (spec/40_encoder.md R85): a step completes to the table's next state exactly
where the table does not say refuse, and the bounds on what it emits. -/

namespace Sys2Proof.Machine

section
variable {lw : Nat} {cfg : BitVec (4 + lw)} {r r' : EncRegs lw} {i : Instr} {out : List EncOut}

/-- The table has an entry for every step that completes: the state it ends in. -/
theorem EncEffect.encTransition_eq (heffect : EncEffect cfg r i r' out) :
    encTransition r.st (tokenKind (encode i)) (cfgLegal cfg) = some r'.st := by
  cases heffect with
  | start x hst hcfg =>
    cases h : r.st with
    | idle | done => simp [encTransition, encode, hcfg]
    | run => exact absurd h hst
  | first _ hst _ | second _ hst _ | third _ hst _ | finish _ hst => simp [encTransition, encode, hst]

/-- The table says refuse for every token that a state refuses. -/
theorem encTransition_eq_none_of_error {why : Refusal} (hport : i.port = .encIn) (h : encUnitOf cfg i r = .error why) :
    encTransition r.st (tokenKind (encode i)) (cfgLegal cfg) = none := by
  cases i with
  | encStart x =>
    by_cases hcfg : cfgLegal cfg = true
    · by_cases hst : r.st = .run
      · simp [encTransition, encode, hst]
      · rw [encUnitOf, encStartUnit_of_legal hst hcfg] at h
        cases h
    · cases r.st <;> simp [encTransition, encode, hcfg]
  | encData b =>
    cases hst : r.st with
    | idle | done => simp [encTransition, encode]
    | run =>
      cases hb : r.bcnt <;>
        simp [encUnitOf, encDataUnit_first, encDataUnit_second, encDataUnit_third, hst, hb] at h
  | encEnd x =>
    cases hst : r.st with
    | idle | done => simp [encTransition, encode]
    | run =>
      rw [encUnitOf, encEndUnit_of_run hst] at h
      cases h
  | _ => cases hport

/-- The table says refuse for the reserved kind in every state (R68 (a)). -/
theorem encTransition_reserved (st : EncSt) (legal : Bool) : encTransition st 0b11 legal = none := by
  cases st <;> rfl

theorem length_tokensBefore_le (lcnt : BitVec (lw + 1)) : (tokensBefore cfg lcnt).length ≤ 2 := by
  unfold tokensBefore newlineTokens
  split_ifs <;> decide

theorem length_padding_le (k : Nat) : (padding cfg k).length ≤ k := by
  unfold padding
  split_ifs <;> simp

theorem length_groupTokens (n : BitVec 24) : (groupTokens cfg n).length = 4 := rfl

theorem length_emitTail_le (r : EncRegs lw) : (emitTail r).length ≤ 6 := by
  have hlead := length_tokensBefore_le (cfg := r.cfg) r.lcnt
  have hpads := length_padding_le (cfg := r.cfg)
  rw [emitTail_eq]
  cases r.bcnt with
  | zero => exact Nat.zero_le 6
  | one =>
    have := hpads 2
    simp only [List.length_append, List.length_take, length_groupTokens]
    omega
  | two =>
    have := hpads 1
    simp only [List.length_append, List.length_take, length_groupTokens]
    omega

/-- A step of ENC ends after at most 7 emits (R81, R82). -/
theorem EncEffect.length_out_le (heffect : EncEffect cfg r i r' out) : out.length ≤ 7 := by
  cases heffect with
  | start | first | second => exact Nat.zero_le 7
  | third b _ _ =>
    have := length_tokensBefore_le (cfg := r.cfg) r.lcnt
    rw [List.length_append, length_groupTokens]
    omega
  | finish _ _ =>
    have := length_emitTail_le r
    rw [List.length_append, List.length_singleton]
    omega

/-- `ENC_BCNT` cycles 0, 1, 2, 0 on DATA tokens and is 0 after the others (R85). -/
theorem EncEffect.bcnt_cycle (heffect : EncEffect cfg r i r' out) :
    (tokenKind (encode i) = 0b01 →
      (r.bcnt = .zero → r'.bcnt = .one) ∧ (r.bcnt = .one → r'.bcnt = .two) ∧ (r.bcnt = .two → r'.bcnt = .zero)) ∧
    (tokenKind (encode i) ≠ 0b01 → r'.bcnt = .zero) := by
  cases heffect with
  | start _ _ _ | finish _ _ => exact ⟨fun h => by simp [encode] at h, fun _ => rfl⟩
  | first _ _ hb | second _ _ hb | third _ _ hb => simp [encode, hb]

end

/-- Settles O18: a token is reserved, or its instruction is refused, or it has an effect, and the table knows which. -/
theorem encoderTransitionTable : Obligations.EncoderTransitionTable := by
  intro s w
  cases hdecode : decode .encIn w with
  | error e =>
    have hkind : tokenKind w = 0b11 := (decode_eq_error_iff .encIn w).1 hdecode
    rw [hkind, encTransition_reserved]
    exact ⟨.reservedToken, by rw [receiveToken, hdecode]⟩
  | ok i =>
    obtain ⟨-, hport, rfl⟩ := encodeOfDecodeGivesToken .encIn w i hdecode
    rw [receiveToken_of_decode_ok hdecode, exec_of_encIn hport]
    cases hunit : encUnitOf s.encCfgI i s.enc with
    | error why =>
      rw [encTransition_eq_none_of_error hport hunit]
      exact ⟨why, runEnc_eq_refused.2 hunit⟩
    | ok x =>
      have heffect := encUnitOf_effect hport hunit
      rw [heffect.encTransition_eq]
      exact ⟨x.1, x.2, runEnc_ok hunit, rfl, heffect.length_out_le, heffect.bcnt_cycle⟩

end Sys2Proof.Machine
end

section
/-! PROOFS. The characters a configuration allows (spec/40_encoder.md R87): where each character of a step comes from, a
ROM, the newline sequence or the padding, and what such a character is. -/

namespace Sys2Proof.Machine

theorem romRead_mem (alpha : Bool) (i : Sextet) : romRead alpha i ∈ (if alpha then romUrl else romStd) := by
  have hlength : i.toNat < (if alpha then romUrl else romStd).length := by
    cases alpha <;> exact i.isLt
  rw [romRead, List.getD_eq_getElem _ _ hlength]
  exact List.getElem_mem hlength

/-- The entries of the ROMs are data characters, so none of CR, LF and `=`. -/
theorem romRead_ne_of_charValue_eq_none {c : Byte} (hc : charValue c = none) (alpha : Bool) (i : Sextet) :
    romRead alpha i ≠ c := by
  rintro rfl
  rw [charValue_romRead] at hc
  cases hc

theorem romRead_ne_pad (alpha : Bool) (i : Sextet) : romRead alpha i ≠ 0x3D :=
  romRead_ne_of_charValue_eq_none (by decide) alpha i

/-- Bit 7 is clear in both ROMs, `=`, LF and CR. -/
theorem getLsbD_seven_of_textByteOf {lw : Nat} {cfg : BitVec (4 + lw)} {c : Byte} (h : textByteOf cfg c = true) :
    c.getLsbD 7 = false := by
  have hrom : ∀ alpha : Bool, ∀ d ∈ (if alpha then romUrl else romStd), d.getLsbD 7 = false := by decide
  simp only [textByteOf, Bool.or_eq_true, Bool.and_eq_true, beq_iff_eq, List.contains_iff_mem] at h
  rcases h with ((h | ⟨rfl, -⟩) | ⟨rfl, -⟩) | ⟨⟨rfl, -⟩, -⟩
  · exact hrom _ c h
  · decide
  · decide
  · decide

section
variable {lw : Nat} {cfg : BitVec (4 + lw)} {c : Byte}

theorem textByteOf_romRead (i : Sextet) : textByteOf cfg (romRead (cfgAlpha cfg) i) = true := by
  simp [textByteOf, romRead_mem]

theorem textByteOf_of_mem_groupTokens {n : BitVec 24} (h : .char c ∈ groupTokens cfg n) :
    textByteOf cfg c = true ∧ c ≠ 0x3D := by
  have hrom : ∃ i, c = romRead (cfgAlpha cfg) i := by
    simp only [groupTokens, List.mem_cons, EncOut.char.injEq, List.not_mem_nil, or_false] at h
    rcases h with h | h | h | h <;> exact ⟨_, h⟩
  obtain ⟨i, rfl⟩ := hrom
  exact ⟨textByteOf_romRead i, romRead_ne_pad _ i⟩

theorem textByteOf_of_mem_tokensBefore {lcnt : BitVec (lw + 1)} (h : .char c ∈ tokensBefore cfg lcnt) :
    textByteOf cfg c = true ∧ c ≠ 0x3D := by
  unfold tokensBefore newlineTokens at h
  split_ifs at h with hdue hnl
  · simp only [List.mem_cons, EncOut.char.injEq, List.not_mem_nil, or_false] at h
    rcases h with rfl | rfl <;> simp [textByteOf, hdue.1, hnl]
  · simp only [List.mem_cons, EncOut.char.injEq, List.not_mem_nil, or_false] at h
    subst h
    simp [textByteOf, hdue.1]
  · cases h

theorem textByteOf_of_mem_padding {k : Nat} (h : .char c ∈ padding cfg k) : textByteOf cfg c = true := by
  unfold padding at h
  split_ifs at h with hpad
  · obtain ⟨-, hc⟩ := List.mem_replicate.1 h
    cases hc
    simp [textByteOf, hpad]
  · cases h

/-- A token of the tail is of the newline sequence, of the group, or of the padding. -/
theorem mem_emitTail_cases {r : EncRegs lw} {t : EncOut} (h : t ∈ emitTail r) :
    t ∈ tokensBefore r.cfg r.lcnt ∨ t ∈ groupTokens r.cfg r.acc ∨ ∃ k, t ∈ padding r.cfg k := by
  rw [emitTail_eq] at h
  cases hb : r.bcnt with
  | zero =>
    rw [hb] at h
    cases h
  | one | two =>
    simp only [hb, List.mem_append, or_assoc] at h
    exact h.imp_right (Or.imp List.mem_of_mem_take (Exists.intro _))

theorem textByteOf_of_mem_emitTail {r : EncRegs lw} (h : .char c ∈ emitTail r) : textByteOf r.cfg c = true := by
  rcases mem_emitTail_cases h with hlead | hgroup | ⟨k, hpads⟩
  · exact (textByteOf_of_mem_tokensBefore hlead).1
  · exact (textByteOf_of_mem_groupTokens hgroup).1
  · exact textByteOf_of_mem_padding hpads

end

/-- Every character of a step is allowed by the latched configuration, and only ENC.END emits `=`. -/
theorem EncEffect.textByteOf_of_mem {lw : Nat} {cfg : BitVec (4 + lw)} {r r' : EncRegs lw} {i : Instr} {out : List EncOut}
    {c : Byte} (heffect : EncEffect cfg r i r' out) (h : .char c ∈ out) :
    textByteOf r.cfg c = true ∧ (c = 0x3D → ∃ ignored, i = .encEnd ignored) := by
  cases heffect with
  | start | first | second => cases h
  | third b _ _ =>
    obtain ⟨htext, hne⟩ :=
      (List.mem_append.1 h).elim textByteOf_of_mem_tokensBefore textByteOf_of_mem_groupTokens
    exact ⟨htext, fun hc => absurd hc hne⟩
  | finish ignored _ =>
    have htail : .char c ∈ emitTail r := by simpa using h
    exact ⟨textByteOf_of_mem_emitTail htail, fun _ => ⟨ignored, rfl⟩⟩

/-- Settles O19: the registers and tokens are those of the instruction's effect. -/
theorem encoderEmitsOnlyAllowedText : Obligations.EncoderEmitsOnlyAllowedText := by
  intro i s r out c hport hexec hmem
  obtain ⟨r', out', heffect, heq⟩ := exec_encIn_effect hport hexec
  obtain ⟨rfl, rfl⟩ := putEnc_inj s heq
  obtain ⟨htext, hpad⟩ := heffect.textByteOf_of_mem hmem
  exact ⟨htext, getLsbD_seven_of_textByteOf htext, hpad⟩

end Sys2Proof.Machine
end

section
/-! PROOFS. Wrapping cuts the text into lines (spec/40_encoder.md R84, the consequences (a) to (c)): group by group, what
stands on the current line and what the wrap check puts before the next characters. -/

namespace Sys2Proof.Machine

section
variable {lw : Nat} {cfg flatCfg : BitVec (4 + lw)}

/-- `text` is `flat` in lines of the capacity, a newline sequence after each of them but the last, which is neither empty
nor longer. -/
def SplitsIntoLines (cfg : BitVec (4 + lw)) (text flat : List Byte) : Prop :=
  ∃ (lines : List (List Byte)) (last : List Byte),
    text = (lines.map (fun l => l ++ newlineText cfg)).flatten ++ last ∧ lines.flatten ++ last = flat ∧
    (∀ l ∈ lines, l.length = lineCapacity cfg) ∧ 0 < last.length ∧ last.length ≤ lineCapacity cfg

theorem splitsIntoLines_last {last : List Byte} (hpos : 0 < last.length) (hle : last.length ≤ lineCapacity cfg) :
    SplitsIntoLines cfg last last :=
  ⟨[], last, rfl, rfl, by simp, hpos, hle⟩

theorem SplitsIntoLines.cons {line text flat : List Byte} (hline : line.length = lineCapacity cfg)
    (h : SplitsIntoLines cfg text flat) : SplitsIntoLines cfg (line ++ newlineText cfg ++ text) (line ++ flat) := by
  obtain ⟨lines, last, rfl, rfl, hlines, hpos, hle⟩ := h
  exact ⟨line :: lines, last, by simp, by simp, List.forall_mem_cons.2 ⟨hline, hlines⟩, hpos, hle⟩

theorem four_le_lineCapacity (hcfg : cfgLegal cfg = true) (hen : cfgWrapEn cfg = true) : 4 ≤ lineCapacity cfg := by
  have hlen : (cfgWrapLen cfg).toNat ≠ 0 := fun h =>
    (cfgLegal_iff cfg).1 hcfg hen (BitVec.eq_of_toNat_eq (by simpa using h))
  rw [lineCapacity]
  omega

/-- At a group boundary the newline sequence is due exactly when the line is full. -/
theorem newlineDue_iff_full {cnt : Nat} (hen : cfgWrapEn cfg = true) (hmod : cnt % 4 = 0) (hle : cnt ≤ lineCapacity cfg) :
    newlineDue cfg cnt = true ↔ cnt = lineCapacity cfg := by
  rw [lineCapacity] at hle
  simp only [newlineDue, hen, Bool.true_and, decide_eq_true_eq, lineCapacity]
  omega

/-- The next characters, on the current line `line` or after it: if the text splits with them at the end of the line
they are put on, it splits from `line` on. -/
theorem splitsIntoLines_append_lead {line chunk text flat : List Byte} (hcfg : cfgLegal cfg = true)
    (hen : cfgWrapEn cfg = true) (hmod : line.length % 4 = 0) (hle : line.length ≤ lineCapacity cfg)
    (hchunk : chunk.length ≤ 4)
    (h : ∀ start : List Byte, start.length = (if newlineDue cfg line.length then 0 else line.length) →
      start.length + chunk.length ≤ lineCapacity cfg →
      SplitsIntoLines cfg (start ++ chunk ++ text) (start ++ chunk ++ flat)) :
    SplitsIntoLines cfg (line ++ (groupLead cfg line.length ++ chunk ++ text)) (line ++ (chunk ++ flat)) := by
  have hfour := four_le_lineCapacity hcfg hen
  by_cases hdue : newlineDue cfg line.length = true
  · have hfull := (newlineDue_iff_full hen hmod hle).1 hdue
    have hnext := h [] (by simp [hdue]) (by simpa using hchunk.trans hfour)
    simpa [groupLead, hdue] using hnext.cons hfull
  · have hroom : line.length + chunk.length ≤ lineCapacity cfg := by
      have hne := mt (newlineDue_iff_full hen hmod hle).2 hdue
      rw [lineCapacity] at hne hle ⊢
      omega
    simpa [groupLead, hdue] using h line (by simp [hdue]) hroom

theorem groupLead_of_not_wrapping (h : cfgWrapEn cfg = false) (cnt : Nat) : groupLead cfg cnt = [] := by
  simp [groupLead, newlineDue, h]

theorem padText_congr (h : cfgPad flatCfg = cfgPad cfg) (k : Nat) : padText flatCfg k = padText cfg k := by
  rw [padText, h, padText]

theorem length_padText_le (k : Nat) : (padText cfg k).length ≤ k := by
  unfold padText
  split_ifs <;> simp

/-- The tail is on the current line or on the next one, which it ends. -/
theorem splitsIntoLines_tail {line chars : List Byte} {k : Nat} (hcfg : cfgLegal cfg = true)
    (hen : cfgWrapEn cfg = true) (hmod : line.length % 4 = 0) (hle : line.length ≤ lineCapacity cfg)
    (hpos : 0 < chars.length) (htail : chars.length + k ≤ 4) :
    SplitsIntoLines cfg (line ++ (groupLead cfg line.length ++ chars ++ padText cfg k))
      (line ++ (chars ++ padText cfg k)) := by
  have hchunk : (chars ++ padText cfg k).length ≤ 4 := by
    rw [List.length_append]
    exact (Nat.add_le_add_left (length_padText_le k) _).trans htail
  have hsplit := splitsIntoLines_append_lead (text := []) (flat := []) hcfg hen hmod hle hchunk fun start _ hroom => by
    rw [List.append_nil]
    refine splitsIntoLines_last ?_ (by rwa [List.length_append])
    simp only [List.length_append]
    omega
  simpa only [List.append_nil, List.append_assoc] using hsplit

/-- The text from a group boundary on, `line` being what stands on the current line, against the text of a configuration
that differs in not wrapping. -/
theorem splitsIntoLines_encodeFrom (hcfg : cfgLegal cfg = true) (hen : cfgWrapEn cfg = true)
    (halpha : cfgAlpha flatCfg = cfgAlpha cfg) (hpad : cfgPad flatCfg = cfgPad cfg)
    (hflat : cfgWrapEn flatCfg = false) (cnt k : Nat) (bytes line : List Byte) (hcnt : line.length = cnt)
    (hmod : line.length % 4 = 0) (hle : line.length ≤ lineCapacity cfg) (hne : 0 < line.length ∨ bytes ≠ []) :
    SplitsIntoLines cfg (line ++ encodeFrom cfg cnt bytes) (line ++ encodeFrom flatCfg k bytes) := by
  have hlead := groupLead_of_not_wrapping hflat
  fun_induction encodeFrom cfg cnt bytes generalizing line k with
  | case1 cnt =>
    have hpos : 0 < line.length := hne.resolve_right (fun h => h rfl)
    simpa only [encodeFrom, List.append_nil] using splitsIntoLines_last hpos hle
  | case2 cnt b0 n a =>
    subst hcnt
    simp only [encodeFrom, hlead, halpha, padText_congr hpad, List.nil_append]
    exact splitsIntoLines_tail hcfg hen hmod hle (Nat.succ_pos _) (le_refl 4)
  | case3 cnt b0 b1 n a =>
    subst hcnt
    simp only [encodeFrom, hlead, halpha, padText_congr hpad, List.nil_append]
    exact splitsIntoLines_tail hcfg hen hmod hle (Nat.succ_pos _) (le_refl 4)
  | case4 cnt b0 b1 b2 rest n a ih =>
    subst hcnt
    simp only [encodeFrom, hlead, halpha, List.nil_append]
    refine splitsIntoLines_append_lead hcfg hen hmod hle (le_refl 4) fun start hstart hroom => ?_
    refine ih _ _ ?_ ?_ ?_ (.inl ?_)
    · simp [countAfterGroup, hstart]
    · rw [List.length_append, hstart]
      split_ifs <;> simp [hmod]
    · rwa [List.length_append]
    · simp

theorem ne_break_of_mem_padText {k : Nat} {c : Byte} (h : c ∈ padText cfg k) : c ≠ 0x0D ∧ c ≠ 0x0A := by
  unfold padText at h
  split_ifs at h
  · obtain ⟨-, rfl⟩ := List.mem_replicate.1 h
    decide
  · cases h

theorem ne_break_of_mem_romReads (alpha : Bool) (indices : List Sextet) :
    ∀ c ∈ indices.map (romRead alpha), c ≠ 0x0D ∧ c ≠ 0x0A :=
  List.forall_mem_map.2 fun i _ =>
    ⟨romRead_ne_of_charValue_eq_none (by decide) alpha i, romRead_ne_of_charValue_eq_none (by decide) alpha i⟩

/-- Without wrapping there is no line break in the text. -/
theorem ne_break_of_mem_encodeFrom (hen : cfgWrapEn cfg = false) (cnt : Nat) (bytes : List Byte) :
    ∀ c ∈ encodeFrom cfg cnt bytes, c ≠ 0x0D ∧ c ≠ 0x0A := by
  have hlead := groupLead_of_not_wrapping hen
  fun_induction encodeFrom cfg cnt bytes with
  | case1 => simp
  | case2 cnt b0 n a =>
    rw [hlead, List.nil_append, List.forall_mem_append]
    exact ⟨ne_break_of_mem_romReads a [sextet0 n, sextet1 n], fun _ => ne_break_of_mem_padText⟩
  | case3 cnt b0 b1 n a =>
    rw [hlead, List.nil_append, List.forall_mem_append]
    exact ⟨ne_break_of_mem_romReads a [sextet0 n, sextet1 n, sextet2 n], fun _ => ne_break_of_mem_padText⟩
  | case4 cnt b0 b1 b2 rest n a ih =>
    rw [hlead, List.nil_append, List.forall_mem_append]
    exact ⟨ne_break_of_mem_romReads a [sextet0 n, sextet1 n, sextet2 n, sextet3 n], ih⟩

end

/-- Settles O56: the text split from an empty first line on; its lines hold the characters of the unwrapped text. -/
theorem wrappedTextIsLinesOfUnwrappedText : Obligations.WrappedTextIsLinesOfUnwrappedText := by
  intro lw cfg bytes hcfg hen hne
  obtain ⟨lines, last, htext, hflat, hlines, hpos, hle⟩ := splitsIntoLines_encodeFrom
    (flatCfg := cfgWord (cfgAlpha cfg) (cfgNl cfg) (cfgPad cfg) false (cfgWrapLen cfg)) hcfg hen
    (cfgAlpha_cfgWord ..) (cfgPad_cfgWord ..) (cfgWrapEn_cfgWord ..) 0 0 bytes [] rfl rfl (Nat.zero_le _) (.inr hne)
  have hbreak : ∀ c ∈ lines.flatten ++ last, c ≠ 0x0D ∧ c ≠ 0x0A := by
    rw [hflat]
    exact ne_break_of_mem_encodeFrom (cfgWrapEn_cfgWord ..) 0 bytes
  obtain ⟨hbreakLines, hbreakLast⟩ := List.forall_mem_append.1 hbreak
  exact ⟨lines, last, htext, hflat, hlines, hpos, hle,
    fun l hl c hc => hbreakLines c (List.mem_flatten_of_mem hl hc), hbreakLast⟩

end Sys2Proof.Machine
end

section
/-! PROOFS. The decoder's DATA instructions (spec/41_decoder.md R102 to R112, R115): the prologue they all begin with,
each unit function in each of its cases, and the exact next states they give. -/

namespace Sys2Proof.Machine

theorem putDec_nil (s : State) (r : DecRegs s.params.pw) : s.putDec r [] = { s with dec := r } := by
  simp [State.putDec]

/-- An instruction of `dec_in` that emits nothing changes DEC's registers only. -/
theorem exec_of_decUnitOf_silent {i : Instr} {s : State} {r : DecRegs s.params.pw} (hport : i.port = .decIn)
    (h : decUnitOf i s.dec = .ok (r, [])) : exec i s = .next { s with dec := r } := by
  rw [exec_of_decIn hport, runDec_ok h, putDec_nil]

/-! ### The prologue of every class -/

section
variable {pw : Nat} {i : Instr} {c : Byte} {r r' : DecRegs pw} {out : List DecOut}

/-- A DATA instruction is DataPrologue with what its class does in the two scanning states. -/
theorem exists_dataPrologue (h : decDataByte i = some c) (r : DecRegs pw) :
    ∃ inAcc inTbp, decUnitOf i r = dataPrologue r inAcc inTbp := by
  cases i with
  | encStart | encData | encEnd | decStart | decEnd => cases h
  | _ =>
    simp only [decUnitOf, dataCharacter, skippedByte, decPadUnit, decInvalidUnit]
    exact ⟨_, _, rfl⟩

theorem exists_decUnitOf_eq_ok (h : decDataByte i = some c) (hst : r.st = .accumulating ∨ r.st = .terminatedByPad)
    (hpos : r.pos ≠ BitVec.allOnes pw) : ∃ r' out, decUnitOf i r = .ok (r', out) := by
  obtain ⟨inAcc, inTbp, hunit⟩ := exists_dataPrologue h r
  rcases hst with hst | hst
  · exact ⟨_, _, hunit.trans (dataPrologue_accumulating hst hpos)⟩
  · exact ⟨_, _, hunit.trans (dataPrologue_terminated hst hpos)⟩

theorem DecEffect.dataEffect (heffect : DecEffect r i r' out) (hi : decDataByte i = some c) :
    DataEffect c r r' out := by
  cases heffect with
  | start | finished | closed => cases hi
  | data hi' h =>
    rw [hi] at hi'
    cases hi'
    exact h

/-- Advance (R115): the position of a scanned byte is passed over unless the byte fails. -/
theorem DataEffect.pos_eq (heffect : DataEffect c r r' out) (hst : r.st ≠ .failed) :
    r'.pos = if r'.st = .failed then r.pos else r.pos + 1 := by
  cases heffect with
  | drained hfailed => exact absurd hfailed hst
  | accumulated v _ _ =>
    have hkept : (accumulate v r).1.st = r.st := (accumulate_frame v r).1
    exact (if_neg fun h => hst (hkept.symm.trans h)).symm
  | skipped _ _ => exact (if_neg hst).symm
  | padded _ _ => rfl
  | rejected _ _ => rfl

end

theorem prologueHolds_of_decDataByte {i : Instr} {c : Byte} (h : decDataByte i = some c) (s : State) :
    PrologueHolds i s := by
  obtain ⟨inAcc, inTbp, hunit⟩ := exists_dataPrologue h s.dec
  rw [PrologueHolds, exec_of_decIn (port_of_decDataByte h)]
  refine ⟨fun hrest => ?_, fun hfailed => ?_, fun hscan hlast => ?_⟩
  · exact runDec_eq_refused.2 (hunit.trans (dataPrologue_resting hrest))
  · rw [runDec_ok (hunit.trans (dataPrologue_failed hfailed)), putDec_self]
  · exact runDec_eq_refused.2 (hunit.trans (dataPrologue_full hscan ((eq_allOnes_iff _).2 hlast)))

/-- A position that is not the last one, as a number, leaves room for the byte. -/
theorem pos_ne_allOnes {pw : Nat} {p : BitVec pw} (h : p.toNat ≠ 2 ^ pw - 1) : p ≠ BitVec.allOnes pw :=
  mt (eq_allOnes_iff p).1 h

/-- Settles O23: with room in a scanning state the prologue lets the step complete, and its effect is that of a byte. -/
theorem dataPrologueOfEveryClass : Obligations.DataPrologueOfEveryClass := by
  intro i c s hi
  refine ⟨prologueHolds_of_decDataByte hi s, fun hscan hroom => ?_⟩
  have hport := port_of_decDataByte hi
  obtain ⟨r, out, hunit⟩ := exists_decUnitOf_eq_ok hi hscan (pos_ne_allOnes hroom)
  have heffect : DataEffect c s.dec r out := (decUnitOf_effect hport hunit).dataEffect hi
  refine ⟨r, out, ?_, heffect.pos_eq ?_⟩
  · rw [exec_of_decIn hport]
    exact runDec_ok hunit
  · rcases hscan with h | h <;> simp [h]

/-! ### The classes -/

section
variable {pw : Nat} {v : Sextet} {c : Byte} {r : DecRegs pw}

theorem dataCharacter_of_mod_ne (hst : r.st = .accumulating) (hpos : r.pos ≠ BitVec.allOnes pw) (hmod : r.mod ≠ 3) :
    dataCharacter v c r = .ok ({ r with acc := shiftIn r.acc v, mod := r.mod + 1, pos := r.pos + 1 }, []) := by
  rw [dataCharacter, dataPrologue_accumulating hst hpos, accumulate_of_ne hmod, advance]

theorem dataCharacter_of_mod_eq (hst : r.st = .accumulating) (hpos : r.pos ≠ BitVec.allOnes pw) (hmod : r.mod = 3) :
    dataCharacter v c r =
      .ok ({ r with acc := shiftIn r.acc v, mod := 0, pos := r.pos + 1 },
        [.byte ((shiftIn r.acc v).extractLsb' 16 8), .byte ((shiftIn r.acc v).extractLsb' 8 8),
          .byte ((shiftIn r.acc v).extractLsb' 0 8)]) := by
  rw [dataCharacter, dataPrologue_accumulating hst hpos, accumulate_of_eq hmod, advance]

theorem dataCharacter_of_terminated (hst : r.st = .terminatedByPad) (hpos : r.pos ≠ BitVec.allOnes pw) :
    dataCharacter v c r = .ok (failByte c r.pos r) :=
  dataPrologue_terminated hst hpos

theorem skippedByte_of_scanning (hst : r.st = .accumulating ∨ r.st = .terminatedByPad)
    (hpos : r.pos ≠ BitVec.allOnes pw) : skippedByte r = .ok (advance r.pos r, []) := by
  rcases hst with hst | hst
  · exact dataPrologue_accumulating hst hpos
  · exact dataPrologue_terminated hst hpos

theorem decPadUnit_of_scanning (hst : r.st = .accumulating ∨ r.st = .terminatedByPad)
    (hpos : r.pos ≠ BitVec.allOnes pw) :
    decPadUnit r = .ok ({ r with st := .terminatedByPad, pos := r.pos + 1 }, []) := by
  rcases hst with hst | hst
  · exact dataPrologue_accumulating hst hpos
  · rw [decPadUnit, dataPrologue_terminated hst hpos, advance, hst]

theorem decInvalidUnit_of_scanning (hst : r.st = .accumulating ∨ r.st = .terminatedByPad)
    (hpos : r.pos ≠ BitVec.allOnes pw) : decInvalidUnit c r = .ok (failByte c r.pos r) := by
  rcases hst with hst | hst
  · exact dataPrologue_accumulating hst hpos
  · exact dataPrologue_terminated hst hpos

theorem ofNat_eq_of_toNat_eq {w n : Nat} {x : BitVec w} (h : x.toNat = n) : BitVec.ofNat w n = x := by
  rw [← h, BitVec.ofNat_toNat, BitVec.setWidth_eq]

theorem decDataByte_of_dataChar {i : Instr} (h : dataChar i = some (c, v)) : decDataByte i = some c := by
  cases i <;> cases h <;> rfl

/-- The values computed by the instructions of the seven valid classes are those R65 lists. -/
theorem decUnitOf_of_dataChar {i : Instr} (h : dataChar i = some (c, v)) (hwf : i.wf = true) (r : DecRegs pw) :
    decUnitOf i r = dataCharacter v c r := by
  cases i with
  | decUpper b =>
    cases h
    obtain ⟨hlo, hhi⟩ := inByteRange_iff.1 hwf
    rw [decUnitOf, ofNat_eq_of_toNat_eq (toNat_upperValue hlo hhi)]
  | decLower b =>
    cases h
    obtain ⟨hlo, hhi⟩ := inByteRange_iff.1 hwf
    rw [decUnitOf, ofNat_eq_of_toNat_eq (toNat_lowerValue hlo hhi)]
  | decDigit b =>
    cases h
    obtain ⟨hlo, hhi⟩ := inByteRange_iff.1 hwf
    rw [decUnitOf, ofNat_eq_of_toNat_eq (toNat_digitValue hlo hhi)]
  | decPlus | decMinus | decSlash | decUnder =>
    cases h
    rfl
  | _ => cases h

end

/-- Settles O24: the instruction is `dataCharacter` of its listed value, whose three cases these are. -/
theorem dataCharacterAccumulates : Obligations.DataCharacterAccumulates := by
  intro i c v s hi hwf
  have hbyte := decDataByte_of_dataChar hi
  have hport := port_of_decDataByte hbyte
  have hunit := decUnitOf_of_dataChar hi hwf s.dec
  refine ⟨prologueHolds_of_decDataByte hbyte s, fun hroom => ?_⟩
  have hpos := pos_ne_allOnes hroom
  refine ⟨fun hst hmod => ?_, fun hst hmod => ?_, fun hst => ?_⟩
  · exact exec_of_decUnitOf_silent hport (hunit.trans (dataCharacter_of_mod_ne hst hpos hmod))
  · rw [exec_of_decIn hport]
    exact runDec_ok (hunit.trans (dataCharacter_of_mod_eq hst hpos hmod))
  · rw [exec_of_decIn hport]
    exact runDec_ok (hunit.trans (dataCharacter_of_terminated hst hpos))

/-- Settles O25: both instructions are `skippedByte`. -/
theorem lineBreaksOnlyAdvance : Obligations.LineBreaksOnlyAdvance := by
  rintro i s (rfl | rfl) <;>
    exact ⟨prologueHolds_of_decDataByte rfl s, fun hscan hroom =>
      exec_of_decUnitOf_silent rfl (skippedByte_of_scanning hscan (pos_ne_allOnes hroom))⟩

/-- Settles O26: a later pad leaves the state code that the first one wrote. -/
theorem padEndsData : Obligations.PadEndsData :=
  fun s => ⟨prologueHolds_of_decDataByte rfl s, fun hscan hroom =>
    exec_of_decUnitOf_silent rfl (decPadUnit_of_scanning hscan (pos_ne_allOnes hroom))⟩

/-- Settles O27: the error action is the same in both scanning states. -/
theorem invalidByteIsRecorded : Obligations.InvalidByteIsRecorded :=
  fun _ s => ⟨prologueHolds_of_decDataByte rfl s, fun hscan hroom =>
    runDec_ok (decInvalidUnit_of_scanning hscan (pos_ne_allOnes hroom))⟩

end Sys2Proof.Machine
end

section
/-! PROOFS. DEC.START and DEC.END (spec/41_decoder.md R100, R113): the unit functions by state, and the finalization by
the modulus. -/

namespace Sys2Proof.Machine

section
variable {pw : Nat} {r : DecRegs pw}

theorem decStartUnit_of_open (h : r.st = .accumulating ∨ r.st = .terminatedByPad ∨ r.st = .failed) :
    decStartUnit r = .error .protocolViolation := by
  rcases h with h | h | h <;> rw [decStartUnit, h]

theorem decStartUnit_of_resting (h : r.st = .idle ∨ r.st = .done) :
    decStartUnit r = .ok ({ DecRegs.reset pw with st := .accumulating }, []) := by
  rcases h with h | h <;> rw [decStartUnit, h]

theorem decEndUnit_of_resting (h : r.st = .idle ∨ r.st = .done) : decEndUnit r = .error .protocolViolation := by
  rcases h with h | h <;> rw [decEndUnit, h]

theorem decEndUnit_of_scanning (h : r.st = .accumulating ∨ r.st = .terminatedByPad) :
    decEndUnit r = .ok (closeDec (finalize r).1, (finalize r).2) := by
  rcases h with h | h <;> rw [decEndUnit, h]

theorem decEndUnit_of_failed (h : r.st = .failed) : decEndUnit r = .ok (closeDec r, []) := by
  rw [decEndUnit, h]

theorem finalize_of_mod_zero (h : r.mod = 0) : finalize r = finishOk [] r :=
  if_pos h

theorem finalize_of_mod_one (h : r.mod = 1) : finalize r = failLength r := by
  simp [finalize, h]

theorem finalize_of_mod_two (h : r.mod = 2) : finalize r = finishOk [r.acc.extractLsb' 4 8] r := by
  simp [finalize, h]

theorem finalize_of_mod_three (h : r.mod = 3) :
    finalize r = finishOk [r.acc.extractLsb' 10 8, r.acc.extractLsb' 2 8] r := by
  simp [finalize, h]

end

/-- Settles O22: the two cases of DEC.START's unit function. -/
theorem decStartOpensOperation : Obligations.DecStartOpensOperation :=
  fun _ _ => ⟨fun hopen => runDec_eq_refused.2 (decStartUnit_of_open hopen),
    fun hrest => exec_of_decUnitOf_silent rfl (decStartUnit_of_resting hrest)⟩

/-- Settles O28: the last four lines of DEC.END close whatever the finalization of the modulus gave. -/
theorem decEndFinalizes : Obligations.DecEndFinalizes := by
  intro ignored s a ended scanning
  have hnext : scanning →
      exec (.decEnd ignored) s = .next (s.putDec (closeDec (finalize s.dec).1) (finalize s.dec).2) :=
    fun hscan => runDec_ok (decEndUnit_of_scanning hscan)
  refine ⟨fun hrest => ?_, fun hscan hmod => ?_, fun hscan hmod => ?_, fun hscan hmod => ?_, fun hscan hmod => ?_,
    fun hfailed => ?_⟩
  · exact runDec_eq_refused.2 (decEndUnit_of_resting hrest)
  · rw [hnext hscan, finalize_of_mod_zero hmod]
    rfl
  · rw [hnext hscan, finalize_of_mod_one hmod]
    rfl
  · rw [hnext hscan, finalize_of_mod_two hmod]
    rfl
  · rw [hnext hscan, finalize_of_mod_three hmod]
    rfl
  · exact exec_of_decUnitOf_silent rfl (decEndUnit_of_failed hfailed)

end Sys2Proof.Machine
end

section
/-! PROOFS. The decoder's transition table (spec/41_decoder.md R116): a step that completes ends in the table's next
state, and one that is refused has no room for its byte or stands where the table says refuse. -/

namespace Sys2Proof.Machine

theorem port_of_decColumn {i : Instr} {col : DecColumn} (hcol : decColumn i = some col) : i.port = .decIn := by
  cases i with
  | encStart | encData | encEnd => cases hcol
  | _ => rfl

/-- The columns of the DATA instructions are the four between START and END. -/
theorem exists_decDataByte_iff {i : Instr} {col : DecColumn} (hcol : decColumn i = some col) :
    (∃ c, decDataByte i = some c) ↔ col ≠ .start ∧ col ≠ .finish := by
  cases i <;> cases hcol <;> simp [decDataByte]

section
variable {pw : Nat} {i : Instr} {col : DecColumn} {r r' : DecRegs pw} {out : List DecOut} {why : Refusal}
  {inAcc inTbp : BitVec pw → DecRegs pw × List DecOut}

/-- Everything the prologue can do when the step is refused. -/
theorem dataPrologue_error_cases (h : dataPrologue r inAcc inTbp = .error why) :
    ((r.st = .idle ∨ r.st = .done) ∧ why = .protocolViolation) ∨
    ((r.st = .accumulating ∨ r.st = .terminatedByPad) ∧ r.pos = BitVec.allOnes pw ∧ why = .positionOverflow) := by
  unfold dataPrologue at h
  split at h
  · cases h
    exact .inl ⟨.inl ‹_›, rfl⟩
  · cases h
    exact .inl ⟨.inr ‹_›, rfl⟩
  · cases h
  · split_ifs at h with hlast
    cases h
    exact .inr ⟨.inl ‹_›, hlast, rfl⟩
  · split_ifs at h with hlast
    cases h
    exact .inr ⟨.inr ‹_›, hlast, rfl⟩

/-- The table follows a DATA instruction's prologue when it agrees with its class in the two scanning states. -/
theorem decTransition_of_dataPrologue (hfailed : decTransition .failed col = some .failed)
    (hacc : r.st = .accumulating → decTransition .accumulating col = some (inAcc r.pos).1.st)
    (htbp : r.st = .terminatedByPad → decTransition .terminatedByPad col = some (inTbp r.pos).1.st)
    (h : dataPrologue r inAcc inTbp = .ok (r', out)) : decTransition r.st col = some r'.st := by
  rcases dataPrologue_cases h with ⟨hst, hx⟩ | ⟨hst, -, hx⟩ | ⟨hst, -, hx⟩
  · cases hx
    rw [hst, hfailed]
  · rw [hst, hacc hst, ← hx]
  · rw [hst, htbp hst, ← hx]

/-- The table has an entry for every step that completes: the state it ends in. -/
theorem decTransition_eq_some_of_ok (hcol : decColumn i = some col) (h : decUnitOf i r = .ok (r', out)) :
    decTransition r.st col = some r'.st := by
  cases i with
  | encStart | encData | encEnd => cases hcol
  | decStart x =>
    cases hcol
    cases decStartUnit_effect x h with
    | start _ hst => rcases hst with hst | hst <;> rw [hst] <;> rfl
    | data hi _ => cases hi
  | decEnd x =>
    cases hcol
    cases decEndUnit_effect x h with
    | finished _ hst => rcases hst with hst | hst <;> rw [hst] <;> rfl
    | closed _ hst => rw [hst]; rfl
    | data hi _ => cases hi
  | decUpper | decLower | decDigit | decPlus | decMinus | decSlash | decUnder =>
    cases hcol
    rw [decUnitOf, dataCharacter] at h
    refine decTransition_of_dataPrologue rfl (fun hst => ?_) (fun _ => rfl) h
    exact congrArg some (((accumulate_frame _ r).1.trans hst).symm)
  | decCr | decLf =>
    cases hcol
    rw [decUnitOf, skippedByte] at h
    exact decTransition_of_dataPrologue rfl (fun hst => congrArg some hst.symm) (fun hst => congrArg some hst.symm) h
  | decPad =>
    cases hcol
    rw [decUnitOf, decPadUnit] at h
    exact decTransition_of_dataPrologue rfl (fun _ => rfl) (fun hst => congrArg some hst.symm) h
  | decInvalid =>
    cases hcol
    rw [decUnitOf, decInvalidUnit] at h
    exact decTransition_of_dataPrologue rfl (fun _ => rfl) (fun _ => rfl) h

theorem decTransition_resting (hst : r.st = .idle ∨ r.st = .done) (hcol : col ≠ .start) :
    decTransition r.st col = none := by
  cases col with
  | start => exact absurd rfl hcol
  | _ => rcases hst with hst | hst <;> rw [hst] <;> rfl

theorem decStartUnit_eq_error (h : decStartUnit r = .error why) :
    why = .protocolViolation ∧ decTransition r.st .start = none := by
  unfold decStartUnit at h
  split at h <;> cases h <;> rename_i hst
  all_goals exact ⟨rfl, by rw [hst]; rfl⟩

theorem decEndUnit_eq_error (h : decEndUnit r = .error why) :
    why = .protocolViolation ∧ decTransition r.st .finish = none := by
  unfold decEndUnit at h
  split at h <;> cases h <;> rename_i hst
  all_goals exact ⟨rfl, by rw [hst]; rfl⟩

/-- A step is refused for want of room, or as the table says. -/
theorem decUnitOf_error_cases (hcol : decColumn i = some col) (h : decUnitOf i r = .error why) :
    (why = .protocolViolation ∧ decTransition r.st col = none) ∨
    (why = .positionOverflow ∧ (r.st = .accumulating ∨ r.st = .terminatedByPad) ∧ r.pos = BitVec.allOnes pw ∧
      col ≠ .start ∧ col ≠ .finish) := by
  by_cases hdata : ∃ c, decDataByte i = some c
  · have hcolumn := (exists_decDataByte_iff hcol).1 hdata
    obtain ⟨c, hc⟩ := hdata
    obtain ⟨inAcc, inTbp, hunit⟩ := exists_dataPrologue hc r
    rcases dataPrologue_error_cases (hunit.symm.trans h) with ⟨hst, hwhy⟩ | ⟨hst, hpos, hwhy⟩
    · exact .inl ⟨hwhy, decTransition_resting hst hcolumn.1⟩
    · exact .inr ⟨hwhy, hst, hpos, hcolumn⟩
  · cases i with
    | encStart | encData | encEnd => cases hcol
    | decStart x =>
      cases hcol
      exact .inl (decStartUnit_eq_error h)
    | decEnd x =>
      cases hcol
      exact .inl (decEndUnit_eq_error h)
    | _ => exact absurd ⟨_, rfl⟩ hdata

end

/-- Settles O29: an instruction is refused or completes, and the table knows which. -/
theorem decoderTransitionTable : Obligations.DecoderTransitionTable := by
  constructor
  · intro i col s hcol full
    refine ⟨fun ⟨hscan, hlast, hcolumn⟩ => ?_, fun hroom => ?_⟩
    · obtain ⟨c, hc⟩ := (exists_decDataByte_iff hcol).2 hcolumn
      obtain ⟨-, -, hfull⟩ := prologueHolds_of_decDataByte hc s
      exact hfull hscan hlast
    · rw [exec_of_decIn (port_of_decColumn hcol)]
      cases hunit : decUnitOf i s.dec with
      | error why =>
        rcases decUnitOf_error_cases hcol hunit with ⟨rfl, hnone⟩ | ⟨-, hscan, hlast, hcolumn⟩
        · rw [hnone]
          exact runDec_eq_refused.2 hunit
        · exact absurd ⟨hscan, (eq_allOnes_iff _).1 hlast, hcolumn⟩ hroom
      | ok x =>
        rw [decTransition_eq_some_of_ok hcol hunit]
        exact ⟨x.1, x.2, runDec_ok hunit, rfl⟩
  · intro w s hkind
    rw [receiveToken, (decode_eq_error_iff .decIn w).2 hkind]

end Sys2Proof.Machine
end

section
/-! PROOFS. The scan of `decode` (spec/42_operations.md R131): a relation says which bytes are passed without an error and
which values they bring; every input is passed to its end, or up to a first offending byte. -/

namespace Sys2Proof.Machine

/-- The byte `c` is an error, before the first `=` or (`padded`) after it (R112, R131). -/
def byteOffends (padded : Bool) (c : Byte) : Bool :=
  if padded then !(c == 0x3D || c == 0x0D || c == 0x0A) else isListedInvalid c

/-- The scan passes `bytes` without an error and takes `values` from them; the flags say whether a `=` was seen before
and whether one was seen after (R131). -/
inductive Passes : Bool → List Byte → List Sextet → Bool → Prop
  | nil (padded : Bool) : Passes padded [] [] padded
  | value {c : Byte} {v : Sextet} {rest : List Byte} {values : List Sextet} {after : Bool}
      (hvalue : charValue c = some v) (later : Passes false rest values after) :
      Passes false (c :: rest) (v :: values) after
  | skip {c : Byte} {rest : List Byte} {values : List Sextet} {padded after : Bool} (hbreak : c = 0x0D ∨ c = 0x0A)
      (later : Passes padded rest values after) : Passes padded (c :: rest) values after
  | pad {rest : List Byte} {values : List Sextet} {padded after : Bool} (later : Passes true rest values after) :
      Passes padded (0x3D :: rest) values after

section
variable {c : Byte} {v : Sextet}

theorem ne_pad_of_charValue (h : charValue c = some v) : c ≠ 0x3D := by
  rintro rfl
  cases h

theorem byteOffends_of_charValue (h : charValue c = some v) : byteOffends false c = false := by
  rw [byteOffends, if_neg Bool.false_ne_true, Bool.eq_false_iff]
  intro hinvalid
  rw [(charValue_eq_none_iff c).2 (.inl hinvalid)] at h
  cases h

theorem byteOffends_of_break (padded : Bool) (h : c = 0x0D ∨ c = 0x0A) : byteOffends padded c = false := by
  rcases h with rfl | rfl <;> cases padded <;> decide

theorem byteOffends_pad (padded : Bool) : byteOffends padded 0x3D = false := by
  cases padded <;> decide

/-- A byte is an error, or one of the three things the scan passes. -/
theorem byteOffends_or_passed (padded : Bool) (c : Byte) :
    byteOffends padded c = true ∨ (padded = false ∧ ∃ v, charValue c = some v) ∨ (c = 0x0D ∨ c = 0x0A) ∨ c = 0x3D := by
  cases padded with
  | true =>
    by_cases h : byteOffends true c = true
    · exact .inl h
    · have hpassed : (c = 0x3D ∨ c = 0x0D) ∨ c = 0x0A := by
        simpa only [byteOffends, if_true, Bool.not_eq_true', Bool.not_eq_false, Bool.or_eq_true, beq_iff_eq] using h
      tauto
  | false =>
    cases hc : charValue c with
    | some v => exact .inr (.inl ⟨rfl, v, rfl⟩)
    | none =>
      rcases (charValue_eq_none_iff c).1 hc with h | h | h | h
      · exact .inl h
      · exact .inr (.inr (.inl (.inl h)))
      · exact .inr (.inr (.inl (.inr h)))
      · exact .inr (.inr (.inr h))

end

/-- The scan passes the whole input, or it ends at a byte that is an error where it stands. -/
def ScanEnds (padded : Bool) (bytes : List Byte) : Prop :=
  (∃ values after, Passes padded bytes values after) ∨
  ∃ before c later values after, bytes = before ++ c :: later ∧ Passes padded before values after ∧
    byteOffends after c = true

theorem ScanEnds.cons {padded padded' : Bool} {c : Byte} {bytes : List Byte} (f : List Sextet → List Sextet)
    (hcons : ∀ {rest values after}, Passes padded' rest values after → Passes padded (c :: rest) (f values) after)
    (h : ScanEnds padded' bytes) : ScanEnds padded (c :: bytes) := by
  rcases h with ⟨values, after, h⟩ | ⟨before, d, later, values, after, rfl, h, hd⟩
  · exact .inl ⟨_, _, hcons h⟩
  · exact .inr ⟨c :: before, d, later, _, after, rfl, hcons h, hd⟩

theorem scanEnds (padded : Bool) (bytes : List Byte) : ScanEnds padded bytes := by
  induction bytes generalizing padded with
  | nil => exact .inl ⟨_, _, .nil padded⟩
  | cons c rest ih =>
    rcases byteOffends_or_passed padded c with h | ⟨rfl, v, h⟩ | h | rfl
    · exact .inr ⟨[], c, rest, [], padded, rfl, .nil padded, h⟩
    · exact (ih false).cons (v :: ·) (.value h)
    · exact (ih padded).cons id (.skip h)
    · exact (ih true).cons id .pad

section
variable {xs ys : List Byte} {values more : List Sextet} {padded middle after : Bool}

theorem Passes.append (h : Passes padded xs values middle) (h' : Passes middle ys more after) :
    Passes padded (xs ++ ys) (values ++ more) after := by
  induction h with
  | nil => exact h'
  | value hvalue _ ih => exact .value hvalue (ih h')
  | skip hbreak _ ih => exact .skip hbreak (ih h')
  | pad _ ih => exact .pad (ih h')

theorem Passes.split (h : Passes padded (xs ++ ys) values after) :
    ∃ front back middle, values = front ++ back ∧ Passes padded xs front middle ∧ Passes middle ys back after := by
  induction xs generalizing padded values with
  | nil => exact ⟨[], values, padded, rfl, .nil padded, h⟩
  | cons c xs ih =>
    cases h with
    | value hvalue later =>
      obtain ⟨front, back, middle, rfl, hfront, hback⟩ := ih later
      exact ⟨_, back, middle, rfl, .value hvalue hfront, hback⟩
    | skip hbreak later =>
      obtain ⟨front, back, middle, rfl, hfront, hback⟩ := ih later
      exact ⟨front, back, middle, rfl, .skip hbreak hfront, hback⟩
    | pad later =>
      obtain ⟨front, back, middle, rfl, hfront, hback⟩ := ih later
      exact ⟨front, back, middle, rfl, .pad hfront, hback⟩

theorem Passes.not_byteOffends {c : Byte} (h : Passes padded (c :: ys) values after) : byteOffends padded c = false := by
  cases h with
  | value hvalue _ => exact byteOffends_of_charValue hvalue
  | skip hbreak _ => exact byteOffends_of_break padded hbreak
  | pad _ => exact byteOffends_pad padded

/-- After the scan a `=` was seen exactly if one was seen before or stands in the bytes passed. -/
theorem Passes.after_eq (h : Passes padded xs values after) : after = (padded || xs.contains 0x3D) := by
  induction h with
  | nil => simp
  | @value c _ _ _ _ hvalue _ ih =>
    rw [ih, List.contains_cons, beq_false_of_ne (ne_pad_of_charValue hvalue).symm]
    rfl
  | skip hbreak _ ih => rcases hbreak with rfl | rfl <;> simp [ih]
  | pad _ ih => simp [ih]

/-- Pad characters are passed anywhere and bring no value. -/
theorem passes_pads (padded : Bool) (k : Nat) : ∃ after, Passes padded (List.replicate k 0x3D) [] after := by
  induction k generalizing padded with
  | zero => exact ⟨padded, .nil padded⟩
  | succ k ih =>
    obtain ⟨after, h⟩ := ih true
    exact ⟨after, .pad h⟩

end

/-! ### The readings `dataValues` and `offends` along the scan -/

section
variable {c : Byte} {rest : List Byte}

theorem dataValues_cons_value {v : Sextet} (h : charValue c = some v) :
    dataValues (c :: rest) = v :: dataValues rest := by
  have hvalid : isListedInvalid c = false := byteOffends_of_charValue h
  rw [dataValues, List.takeWhile_cons, beq_false_of_ne (ne_pad_of_charValue h), hvalid]
  exact List.filterMap_cons_some h

theorem dataValues_cons_break (h : c = 0x0D ∨ c = 0x0A) : dataValues (c :: rest) = dataValues rest := by
  rcases h with rfl | rfl <;> rfl

theorem dataValues_cons_pad : dataValues (0x3D :: rest) = [] := rfl

theorem dataValues_cons_invalid (h : isListedInvalid c = true) : dataValues (c :: rest) = [] := by
  simp [dataValues, h]

/-- The values `dataValues` lists are those the scan takes, and then those of the rest unless a `=` was seen. -/
theorem Passes.dataValues_append {bytes : List Byte} {values : List Sextet} {padded after : Bool}
    (h : Passes padded bytes values after) (rest : List Byte) :
    (if padded then [] else dataValues (bytes ++ rest)) = values ++ if after then [] else dataValues rest := by
  induction h with
  | nil => rfl
  | value hvalue _ ih => simpa [dataValues_cons_value hvalue] using ih
  | skip hbreak _ ih => simpa [dataValues_cons_break hbreak] using ih
  | @pad _ _ padded _ _ ih =>
    rw [List.cons_append, dataValues_cons_pad, ite_self]
    exact ih

theorem Passes.dataValues_eq {bytes : List Byte} {values : List Sextet} {after : Bool}
    (h : Passes false bytes values after) : dataValues bytes = values := by
  have hvalues := h.dataValues_append []
  cases after <;> simpa [dataValues] using hvalues

theorem Passes.dataValues_of_offends {bytes : List Byte} {values : List Sextet} {after : Bool}
    (h : Passes false bytes values after) (hc : byteOffends after c = true) (rest : List Byte) :
    dataValues (bytes ++ c :: rest) = values := by
  have hvalues := h.dataValues_append (c :: rest)
  cases after with
  | true => simpa using hvalues
  | false => simpa [dataValues_cons_invalid hc] using hvalues

theorem offends_append_cons (before : List Byte) (c : Byte) (rest : List Byte) :
    offends (before ++ c :: rest) before.length = byteOffends (before.contains 0x3D) c := by
  simp [offends, byteOffends]

theorem offends_append_of_lt {before : List Byte} (rest : List Byte) {j : Nat} (h : j < before.length) :
    offends (before ++ rest) j = offends before j := by
  simp [offends, List.getElem?_append_left h, List.take_append_of_le_length h.le]

theorem offends_of_length_le {bytes : List Byte} {j : Nat} (h : bytes.length ≤ j) : offends bytes j = false := by
  simp [offends, List.getElem?_eq_none h]

theorem Passes.offends_eq_false {bytes : List Byte} {values : List Sextet} {after : Bool}
    (h : Passes false bytes values after) (j : Nat) : offends bytes j = false := by
  rcases Nat.lt_or_ge j bytes.length with hj | hj
  · have hbytes : bytes = bytes.take j ++ bytes[j] :: bytes.drop (j + 1) := by simp
    have hlength : (bytes.take j).length = j := List.length_take_of_le hj.le
    rw [hbytes] at h ⊢
    obtain ⟨_, _, middle, -, hfront, hback⟩ := h.split
    have hmiddle : (bytes.take j).contains 0x3D = middle := by simp [hfront.after_eq]
    have hoffends := offends_append_cons (bytes.take j) bytes[j] (bytes.drop (j + 1))
    rw [hlength, hmiddle, hback.not_byteOffends] at hoffends
    exact hoffends
  · exact offends_of_length_le hj

end

end Sys2Proof.Machine
end

section
/-! PROOFS. What `decode` returns, without its loop (spec/42_operations.md R131): the accumulator as the values it holds,
the bytes of the complete groups and of the tail, and the result of an input from its scan. -/

namespace Sys2Proof.Machine

/-- The values that follow the complete groups. -/
def pendingValues : List Sextet → List Sextet
  | _ :: _ :: _ :: _ :: rest => pendingValues rest
  | values => values

/-- The bytes of an incomplete group of two or three values (R47, R113). -/
def tailBytes : List Sextet → List Byte
  | [v0, v1] => [(v0 ++ v1.extractLsb' 4 2 : BitVec (6 + 2))]
  | [v0, v1, v2] =>
    [(v0 ++ v1.extractLsb' 4 2 : BitVec (6 + 2)), (v1.extractLsb' 0 4 ++ v2.extractLsb' 2 4 : BitVec (4 + 4))]
  | _ => []

/-- The three bytes a full accumulator gives (R101). -/
def groupBytes (acc : BitVec 32) : List Byte := [acc.extractLsb' 16 8, acc.extractLsb' 8 8, acc.extractLsb' 0 8]

/-- The result of an input without an invalid byte, from its values. -/
def valuesResult (values : List Sextet) : DecodeResult :=
  if (pendingValues values).length = 1 then .invalidLength
  else .ok (completeGroupBytes values ++ tailBytes (pendingValues values))

theorem length_pendingValues (values : List Sextet) : (pendingValues values).length = values.length % 4 := by
  fun_induction pendingValues values with
  | case1 v0 v1 v2 v3 rest ih => simp [ih, Nat.add_assoc]
  | case2 values hshort =>
    match values with
    | [] | [_] | [_, _] | [_, _, _] => rfl
    | v0 :: v1 :: v2 :: v3 :: rest => exact (hshort v0 v1 v2 v3 rest rfl).elim

theorem length_tailBytes (values : List Sextet) :
    (tailBytes (pendingValues values)).length = values.length % 4 - 1 := by
  have hlt : (pendingValues values).length < 4 := by
    rw [length_pendingValues]
    exact Nat.mod_lt _ (by decide)
  rw [← length_pendingValues]
  match pendingValues values, hlt with
  | [], _ | [_], _ | [_, _], _ | [_, _, _], _ => rfl

/-! ### The accumulator -/

/-- The accumulator holds the values of an incomplete group, the last one lowest; above them stands anything (R17). -/
def HoldsValues (acc : BitVec 32) (held : List Sextet) : Prop :=
  held.length < 4 ∧ ∃ below, acc = held.foldl shiftIn below

theorem getLsbD_shiftIn (acc : BitVec 32) (v : Sextet) (i : Nat) :
    (shiftIn acc v).getLsbD i = if i < 6 then v.getLsbD i else decide (i < 32) && acc.getLsbD (i - 6) := by
  simp only [shiftIn, BitVec.getLsbD_or, BitVec.getLsbD_shiftLeft, BitVec.getLsbD_setWidth]
  split_ifs with h
  · simp [h, show i < 32 by omega]
  · simp [h, BitVec.getLsbD_of_ge v i (by omega)]

section
variable {acc below : BitVec 32} {held : List Sextet} {v v0 v1 v2 v3 : Sextet}

/-- Above the value shifted in stands what the accumulator held. -/
theorem extractLsb'_shiftIn_above (start : Nat) (h : start + 8 ≤ 26) :
    (shiftIn acc v).extractLsb' (start + 6) 8 = acc.extractLsb' start 8 := by
  apply BitVec.eq_of_getLsbD_eq
  intro i hi
  rw [BitVec.getLsbD_extractLsb', BitVec.getLsbD_extractLsb', getLsbD_shiftIn, if_neg (by omega),
    decide_eq_true (show start + 6 + i < 32 by omega), Bool.true_and, show start + 6 + i - 6 = start + i by omega]

theorem extractLsb'_shiftIn_high :
    (shiftIn (shiftIn below v0) v1).extractLsb' 4 8 = (v0 ++ v1.extractLsb' 4 2 : BitVec (6 + 2)) := by
  apply BitVec.eq_of_getLsbD_eq
  intro i hi
  simp only [BitVec.getLsbD_extractLsb', BitVec.getLsbD_append, getLsbD_shiftIn]
  interval_cases i <;> simp

theorem extractLsb'_shiftIn_middle :
    (shiftIn (shiftIn below v0) v1).extractLsb' 2 8 = (v0.extractLsb' 0 4 ++ v1.extractLsb' 2 4 : BitVec (4 + 4)) := by
  apply BitVec.eq_of_getLsbD_eq
  intro i hi
  simp only [BitVec.getLsbD_extractLsb', BitVec.getLsbD_append, getLsbD_shiftIn]
  interval_cases i <;> simp

theorem extractLsb'_shiftIn_low :
    (shiftIn (shiftIn below v0) v1).extractLsb' 0 8 = (v0.extractLsb' 0 2 ++ v1 : BitVec (2 + 6)) := by
  apply BitVec.eq_of_getLsbD_eq
  intro i hi
  simp only [BitVec.getLsbD_extractLsb', BitVec.getLsbD_append, getLsbD_shiftIn]
  interval_cases i <;> simp

theorem groupBytes_shiftIn :
    groupBytes (shiftIn (shiftIn (shiftIn (shiftIn below v0) v1) v2) v3) =
      [(v0 ++ v1.extractLsb' 4 2 : BitVec (6 + 2)), (v1.extractLsb' 0 4 ++ v2.extractLsb' 2 4 : BitVec (4 + 4)),
        (v2.extractLsb' 0 2 ++ v3 : BitVec (2 + 6))] := by
  rw [groupBytes, extractLsb'_shiftIn_above 10 (by decide), extractLsb'_shiftIn_above 4 (by decide),
    extractLsb'_shiftIn_high, extractLsb'_shiftIn_above 2 (by decide), extractLsb'_shiftIn_middle,
    extractLsb'_shiftIn_low]

theorem holdsValues_nil (acc : BitVec 32) : HoldsValues acc [] := ⟨by decide, acc, rfl⟩

theorem HoldsValues.snoc (h : HoldsValues acc held) (hne : held.length ≠ 3) (v : Sextet) :
    HoldsValues (shiftIn acc v) (held ++ [v]) := by
  obtain ⟨hlt, below, rfl⟩ := h
  refine ⟨?_, below, by simp⟩
  simp only [List.length_append, List.length_singleton]
  omega

/-- The fourth value completes a group. -/
theorem HoldsValues.complete (h : HoldsValues acc held) (heq : held.length = 3) (v : Sextet) (later : List Sextet) :
    completeGroupBytes (held ++ v :: later) = groupBytes (shiftIn acc v) ++ completeGroupBytes later ∧
      pendingValues (held ++ v :: later) = pendingValues later := by
  obtain ⟨-, below, rfl⟩ := h
  match held, heq with
  | [v0, v1, v2], _ => exact ⟨by simp [completeGroupBytes, groupBytes_shiftIn], rfl⟩

theorem pendingValues_of_short (h : held.length < 4) : pendingValues held = held ∧ completeGroupBytes held = [] := by
  match held, h with
  | [], _ | [_], _ | [_, _], _ | [_, _, _], _ => exact ⟨rfl, rfl⟩

/-- The bytes that END recovers from the accumulator are those of the values it holds. -/
theorem HoldsValues.tailBytes_two (h : HoldsValues acc held) (heq : held.length = 2) :
    tailBytes held = [acc.extractLsb' 4 8] := by
  obtain ⟨-, below, rfl⟩ := h
  match held, heq with
  | [v0, v1], _ => exact congrArg (· :: []) extractLsb'_shiftIn_high.symm

theorem HoldsValues.tailBytes_three (h : HoldsValues acc held) (heq : held.length = 3) :
    tailBytes held = [acc.extractLsb' 10 8, acc.extractLsb' 2 8] := by
  obtain ⟨-, below, rfl⟩ := h
  match held, heq with
  | [v0, v1, v2], _ =>
    simp only [List.foldl_cons, List.foldl_nil]
    rw [extractLsb'_shiftIn_above 4 (by decide), extractLsb'_shiftIn_high, extractLsb'_shiftIn_middle, tailBytes]

theorem decodeEnd_of_holdsValues (h : HoldsValues acc held) (out : List Byte) :
    decodeEnd acc held.length out = if held.length = 1 then .invalidLength else .ok (out ++ tailBytes held) := by
  obtain hzero | hone | htwo | hthree : held.length = 0 ∨ held.length = 1 ∨ held.length = 2 ∨ held.length = 3 := by
    have := h.1
    omega
  · rw [List.length_eq_zero_iff.1 hzero]
    simp [decodeEnd, tailBytes]
  · simp [hone, decodeEnd]
  · simp [htwo, decodeEnd, h.tailBytes_two htwo]
  · simp [hthree, decodeEnd, h.tailBytes_three hthree]

end

/-! ### The loop of `decode` -/

/-- The two loops of `decode`, before the first `=` and after it. -/
def decodeScan (padded : Bool) (acc : BitVec 32) (mod : Nat) (out : List Byte) (i : Nat) (bytes : List Byte) :
    DecodeResult :=
  if padded then decodePadded acc mod out i bytes else decodeFrom acc mod out i bytes

section
variable {acc : BitVec 32} {mod i : Nat} {out rest : List Byte} {c : Byte} {padded : Bool}

theorem decodeScan_value {v : Sextet} (h : charValue c = some v) :
    decodeScan false acc mod out i (c :: rest) =
      if mod = 3 then decodeScan false (shiftIn acc v) 0 (out ++ groupBytes (shiftIn acc v)) (i + 1) rest
      else decodeScan false (shiftIn acc v) (mod + 1) out (i + 1) rest := by
  simp only [decodeScan, decodeFrom, h, Bool.false_eq_true, if_false, Nat.reduceEqDiff]
  rfl

theorem decodeScan_break (h : c = 0x0D ∨ c = 0x0A) :
    decodeScan padded acc mod out i (c :: rest) = decodeScan padded acc mod out (i + 1) rest := by
  rcases h with rfl | rfl <;> cases padded <;> rfl

theorem decodeScan_pad : decodeScan padded acc mod out i (0x3D :: rest) = decodeScan true acc mod out (i + 1) rest := by
  cases padded <;> rfl

theorem decodeScan_offends (h : byteOffends padded c = true) :
    decodeScan padded acc mod out i (c :: rest) = .invalidByte c i := by
  cases padded with
  | true =>
    have hc : ¬ (c = 0x3D ∨ c = 0x0D ∨ c = 0x0A) := by
      rintro (rfl | rfl | rfl) <;> cases h
    simp only [decodeScan, if_true, decodePadded, hc, if_false]
  | false =>
    have hnone : charValue c = none := (charValue_eq_none_iff c).2 (.inl h)
    have hbreak : ¬ (c = 0x0D ∨ c = 0x0A) := by
      rintro (rfl | rfl) <;> cases h
    have hpad : c ≠ 0x3D := by
      rintro rfl
      cases h
    simp only [decodeScan, Bool.false_eq_true, if_false, decodeFrom, hnone, hbreak, hpad]

end

/-- What the loop has done once the scan has passed `bytes`. -/
theorem Passes.decodeScan_eq {padded after : Bool} {bytes : List Byte} {values held : List Sextet} {acc : BitVec 32}
    (h : Passes padded bytes values after) (hacc : HoldsValues acc held) (out : List Byte) (i : Nat)
    (rest : List Byte) :
    ∃ acc', HoldsValues acc' (pendingValues (held ++ values)) ∧
      decodeScan padded acc held.length out i (bytes ++ rest) =
        decodeScan after acc' (pendingValues (held ++ values)).length (out ++ completeGroupBytes (held ++ values))
          (i + bytes.length) rest := by
  induction h generalizing acc held out i with
  | nil padded =>
    obtain ⟨hpending, hgroups⟩ := pendingValues_of_short hacc.1
    exact ⟨acc, by simpa [hpending] using hacc, by simp [hpending, hgroups]⟩
  | @value c v bytes values after hvalue _ ih =>
    rw [List.cons_append, decodeScan_value hvalue]
    by_cases hfull : held.length = 3
    · obtain ⟨hgroups, hpending⟩ := hacc.complete hfull v values
      obtain ⟨acc', hacc', hscan⟩ :=
        ih (holdsValues_nil (shiftIn acc v)) (out ++ groupBytes (shiftIn acc v)) (i + 1)
      refine ⟨acc', by simpa [hpending] using hacc', ?_⟩
      simpa [hfull, hgroups, hpending, Nat.add_assoc, Nat.add_comm 1] using hscan
    · obtain ⟨acc', hacc', hscan⟩ := ih (hacc.snoc hfull v) out (i + 1)
      refine ⟨acc', by simpa using hacc', ?_⟩
      simpa [hfull, Nat.add_assoc, Nat.add_comm 1] using hscan
  | skip hbreak _ ih =>
    obtain ⟨acc', hacc', hscan⟩ := ih hacc out (i + 1)
    refine ⟨acc', hacc', ?_⟩
    rw [List.cons_append, decodeScan_break hbreak, hscan, List.length_cons, Nat.add_right_comm, Nat.add_assoc]
  | pad _ ih =>
    obtain ⟨acc', hacc', hscan⟩ := ih hacc out (i + 1)
    refine ⟨acc', hacc', ?_⟩
    rw [List.cons_append, decodeScan_pad, hscan, List.length_cons, Nat.add_right_comm, Nat.add_assoc]

section
variable {bytes : List Byte} {values : List Sextet} {after : Bool}

theorem Passes.decodeText_eq (h : Passes false bytes values after) : decodeText bytes = valuesResult values := by
  obtain ⟨acc, hacc, hscan⟩ := h.decodeScan_eq (holdsValues_nil 0) [] 0 []
  rw [List.append_nil] at hscan
  calc decodeText bytes
      = decodeEnd acc (pendingValues values).length (completeGroupBytes values) := by
        refine hscan.trans ?_
        cases after <;> rfl
    _ = valuesResult values := decodeEnd_of_holdsValues hacc _

theorem Passes.decodeText_of_offends {c : Byte} (h : Passes false bytes values after)
    (hc : byteOffends after c = true) (rest : List Byte) :
    decodeText (bytes ++ c :: rest) = .invalidByte c bytes.length := by
  obtain ⟨acc, -, hscan⟩ := h.decodeScan_eq (holdsValues_nil 0) [] 0 (c :: rest)
  rw [decodeScan_offends hc, Nat.zero_add] at hscan
  exact hscan

end

/-! ### Which result `decode` gives (R139) -/

section
variable {values : List Sextet}

theorem valuesResult_of_mod_one (h : values.length % 4 = 1) : valuesResult values = .invalidLength := by
  rw [valuesResult, length_pendingValues, if_pos h]

theorem valuesResult_of_mod_ne_one (h : values.length % 4 ≠ 1) :
    valuesResult values = .ok (completeGroupBytes values ++ tailBytes (pendingValues values)) := by
  rw [valuesResult, length_pendingValues, if_neg h]

end

/-- Settles O57: the scan passes the whole input, which then offends nowhere, or ends at the first byte that offends. -/
theorem decodeErrorPrecedence : Obligations.DecodeErrorPrecedence := by
  intro bytes
  rcases scanEnds false bytes with ⟨values, after, h⟩ | ⟨before, c, later, values, after, rfl, h, hc⟩
  · have hclean := h.offends_eq_false
    rw [h.dataValues_eq, h.decodeText_eq]
    by_cases hmod : values.length % 4 = 1
    · rw [valuesResult_of_mod_one hmod]
      simp [hclean, hmod]
    · rw [valuesResult_of_mod_ne_one hmod]
      simp [hclean, hmod, length_tailBytes]
  · have hafter : before.contains 0x3D = after := by simp [h.after_eq]
    have hfirst : offends (before ++ c :: later) before.length = true := by rw [offends_append_cons, hafter, hc]
    have hclean : ∀ j, j < before.length → offends (before ++ c :: later) j = false := by
      intro j hj
      rw [offends_append_of_lt _ hj, h.offends_eq_false]
    have hdirty : ¬ ∀ j, offends (before ++ c :: later) j = false := fun h => by simp [h] at hfirst
    rw [h.decodeText_of_offends hc]
    simp only [reduceCtorEq, exists_const, hdirty, false_and, IsEmpty.forall_iff, implies_true, and_true]
    intro d i
    constructor
    · rintro ⟨⟩
      exact ⟨hfirst, by simp, hclean⟩
    · rintro ⟨hoffends, hd, hbefore⟩
      obtain rfl : i = before.length := by
        rcases Nat.lt_trichotomy i before.length with hlt | heq | hgt
        · simp [hclean i hlt] at hoffends
        · exact heq
        · simp [hbefore _ hgt] at hfirst
      have hcd : c = d := by simpa using hd
      rw [hcd]

end Sys2Proof.Machine
end

section
/-! PROOFS. What does not matter to `decode` (spec/42_operations.md R137, R138): line breaks, pad characters at the end,
and the alphabet a text was written with. -/

namespace Sys2Proof.Machine

/-! ### Line breaks and pad characters -/

/-- The result when one more byte that is passed stands at index `k` of the input: the positions from there on are one
more (R138). -/
def DecodeResult.shiftFrom (k : Nat) : DecodeResult → DecodeResult
  | .invalidByte c i => .invalidByte c (if i < k then i else i + 1)
  | .ok bytes => .ok bytes
  | .invalidLength => .invalidLength

theorem shiftFrom_inj {k : Nat} {x y : DecodeResult} : x.shiftFrom k = y.shiftFrom k ↔ x = y := by
  refine ⟨fun h => ?_, congrArg _⟩
  cases x <;> cases y <;>
    simp only [DecodeResult.shiftFrom, DecodeResult.ok.injEq, DecodeResult.invalidByte.injEq, reduceCtorEq] at h ⊢
  · exact h
  · obtain ⟨rfl, hi⟩ := h
    refine ⟨rfl, ?_⟩
    split_ifs at hi <;> omega

theorem shiftFrom_valuesResult (k : Nat) (values : List Sextet) :
    (valuesResult values).shiftFrom k = valuesResult values := by
  unfold valuesResult
  split_ifs <;> rfl

theorem decodeText_insert_break {b : Byte} (hb : b = 0x0D ∨ b = 0x0A) (xs ys : List Byte) :
    decodeText (xs ++ b :: ys) = (decodeText (xs ++ ys)).shiftFrom xs.length := by
  rcases scanEnds false (xs ++ ys) with ⟨values, after, h⟩ | ⟨before, c, later, values, after, heq, h, hc⟩
  · obtain ⟨front, back, middle, rfl, hfront, hback⟩ := h.split
    rw [h.decodeText_eq, shiftFrom_valuesResult]
    exact (hfront.append (.skip hb hback)).decodeText_eq
  · have hresult := h.decodeText_of_offends hc later
    rw [← heq] at hresult
    rw [hresult, DecodeResult.shiftFrom]
    rcases List.append_eq_append_iff.1 heq with ⟨back, rfl, rfl⟩ | ⟨_ | ⟨d, front⟩, rfl, hrest⟩
    · obtain ⟨_, _, _, rfl, hfront, hback⟩ := h.split
      have hinsert := (hfront.append (.skip hb hback)).decodeText_of_offends hc later
      simpa [Nat.add_assoc] using hinsert
    · obtain rfl : c :: later = ys := hrest
      have hinsert := (h.append (.skip hb (.nil after))).decodeText_of_offends hc later
      simpa using hinsert
    · cases hrest
      have hinsert := h.decodeText_of_offends hc (front ++ b :: ys)
      simpa using hinsert

theorem decodeText_append_pads (xs : List Byte) (k : Nat) : decodeText (xs ++ List.replicate k 0x3D) = decodeText xs := by
  rcases scanEnds false xs with ⟨values, middle, h⟩ | ⟨before, c, later, values, after, rfl, h, hc⟩
  · obtain ⟨after, hpads⟩ := passes_pads middle k
    rw [(h.append hpads).decodeText_eq, h.decodeText_eq, List.append_nil]
  · rw [List.append_assoc, List.cons_append, h.decodeText_of_offends hc, h.decodeText_of_offends hc]

/-- Settles O58: the inserted byte only shifts positions, and pad characters at the end bring no value and no error. -/
theorem decodeToleratesBreaksAndPads : Obligations.DecodeToleratesBreaksAndPads := by
  intro xs ys out b k hb
  rw [decodeText_insert_break hb]
  exact ⟨shiftFrom_inj (y := .ok out), shiftFrom_inj (y := .invalidLength),
    fun c i => shiftFrom_inj (y := .invalidByte c i), decodeText_append_pads xs k⟩

/-! ### The alphabet -/

section
variable {c d : Byte}

theorem sameCharacter_cases (h : sameCharacter c d = true) :
    c = d ∨ (c = 0x2B ∧ d = 0x2D) ∨ (c = 0x2D ∧ d = 0x2B) ∨ (c = 0x2F ∧ d = 0x5F) ∨ (c = 0x5F ∧ d = 0x2F) := by
  simpa only [sameCharacter, Bool.or_eq_true, Bool.and_eq_true, beq_iff_eq, or_assoc] using h

theorem charValue_of_sameCharacter (h : sameCharacter c d = true) : charValue c = charValue d := by
  rcases sameCharacter_cases h with rfl | ⟨rfl, rfl⟩ | ⟨rfl, rfl⟩ | ⟨rfl, rfl⟩ | ⟨rfl, rfl⟩ <;> rfl

theorem byteOffends_of_sameCharacter (h : sameCharacter c d = true) (padded : Bool) :
    byteOffends padded c = byteOffends padded d := by
  rcases sameCharacter_cases h with rfl | ⟨rfl, rfl⟩ | ⟨rfl, rfl⟩ | ⟨rfl, rfl⟩ | ⟨rfl, rfl⟩ <;> cases padded <;> rfl

/-- Only `+`, `-`, `/` and `_` have a counterpart. -/
theorem eq_of_sameCharacter_of_charValue_eq_none (h : sameCharacter c d = true) (hc : charValue c = none) : d = c := by
  rcases sameCharacter_cases h with rfl | ⟨rfl, rfl⟩ | ⟨rfl, rfl⟩ | ⟨rfl, rfl⟩ | ⟨rfl, rfl⟩
  · rfl
  all_goals cases hc

end

theorem Passes.exchange {padded after : Bool} {xs ys : List Byte} {values : List Sextet}
    (h : Passes padded xs values after) (hxs : List.Forall₂ (fun c d => sameCharacter c d = true) xs ys) :
    Passes padded ys values after := by
  induction h generalizing ys with
  | nil =>
    cases hxs
    exact .nil _
  | value hvalue _ ih =>
    obtain ⟨d, rest, hd, hrest, rfl⟩ := List.forall₂_cons_left_iff.1 hxs
    exact .value (charValue_of_sameCharacter hd ▸ hvalue) (ih hrest)
  | skip hbreak _ ih =>
    obtain ⟨d, rest, hd, hrest, rfl⟩ := List.forall₂_cons_left_iff.1 hxs
    obtain rfl := eq_of_sameCharacter_of_charValue_eq_none hd (by rcases hbreak with rfl | rfl <;> rfl)
    exact .skip hbreak (ih hrest)
  | pad _ ih =>
    obtain ⟨d, rest, hd, hrest, rfl⟩ := List.forall₂_cons_left_iff.1 hxs
    obtain rfl := eq_of_sameCharacter_of_charValue_eq_none hd rfl
    exact .pad (ih hrest)

/-- Settles O59: the exchanged text is passed as the text is, and an error is met at the counterpart of its byte. -/
theorem alphabetNeverMattersToDecode : Obligations.AlphabetNeverMattersToDecode := by
  intro xs ys hxs
  rcases scanEnds false xs with ⟨values, after, h⟩ | ⟨before, c, later, values, after, rfl, h, hc⟩
  · rw [h.decodeText_eq, (h.exchange hxs).decodeText_eq]
    unfold valuesResult
    split_ifs <;> rfl
  · have hbefore := List.forall₂_take before.length hxs
    have htail := List.forall₂_drop before.length hxs
    rw [List.take_left] at hbefore
    rw [List.drop_left] at htail
    obtain ⟨d, later', hd, -, hys⟩ := List.forall₂_cons_left_iff.1 htail
    rw [h.decodeText_of_offends hc]
    refine ⟨d, ?_, hd⟩
    rw [byteOffends_of_sameCharacter hd] at hc
    rw [← List.take_append_drop before.length ys, hys, (h.exchange hbefore).decodeText_of_offends hc, ← hbefore.length_eq]

/-- Refutes O60: after a `=` both `+` and `-` are errors, and each is reported as itself. -/
theorem not_alphabetExchangeKeepsReportedByte : ¬ Obligations.AlphabetExchangeKeepsReportedByte := by
  intro h
  have hplus : decodeText [0x3D, 0x2B] = .invalidByte 0x2B 1 := by decide
  have hminus : decodeText [0x3D, 0x2D] = .invalidByte 0x2D 1 := by decide
  have hexchange : List.Forall₂ (fun c d => sameCharacter c d = true) [0x3D, 0x2B] [0x3D, 0x2D] :=
    .cons (by decide) (.cons (by decide) .nil)
  have heq := h _ _ hexchange
  rw [hplus, hminus] at heq
  exact absurd heq (by decide)

end Sys2Proof.Machine
end

section
/-! PROOFS. The text of `encode` (spec/42_operations.md R130): the values it carries, which `decode` brings back to the
bytes (R134), and its length (R136). -/

namespace Sys2Proof.Machine

/-! ### The values a text carries -/

/-- The 6-bit groups of an input, the missing bytes of the last group being zero (R43, R130). -/
def encodedValues : List Byte → List Sextet
  | [] => []
  | [b0] => [sextet0 (packGroup b0 0 0), sextet1 (packGroup b0 0 0)]
  | [b0, b1] => [sextet0 (packGroup b0 b1 0), sextet1 (packGroup b0 b1 0), sextet2 (packGroup b0 b1 0)]
  | b0 :: b1 :: b2 :: rest =>
    [sextet0 (packGroup b0 b1 b2), sextet1 (packGroup b0 b1 b2), sextet2 (packGroup b0 b1 b2),
      sextet3 (packGroup b0 b1 b2)] ++ encodedValues rest

theorem passes_romReads (alpha : Bool) (values : List Sextet) :
    Passes false (values.map (romRead alpha)) values false := by
  induction values with
  | nil => exact .nil false
  | cons v values ih => exact .value (charValue_romRead alpha v) ih

section
variable {lw : Nat} (cfg : BitVec (4 + lw))

theorem passes_groupLead (cnt : Nat) : Passes false (groupLead cfg cnt) [] false := by
  unfold groupLead newlineText
  split_ifs
  · exact .skip (.inl rfl) (.skip (.inr rfl) (.nil false))
  · exact .skip (.inr rfl) (.nil false)
  · exact .nil false

theorem passes_padText (k : Nat) : ∃ after, Passes false (padText cfg k) [] after := by
  unfold padText
  split_ifs
  · exact passes_pads false k
  · exact ⟨false, .nil false⟩

/-- What stands before the characters of a group, and the characters. -/
theorem passes_lead_romReads (cnt : Nat) (values : List Sextet) :
    Passes false (groupLead cfg cnt ++ values.map (romRead (cfgAlpha cfg))) values false :=
  (passes_groupLead cfg cnt).append (passes_romReads (cfgAlpha cfg) values)

theorem passes_tail (cnt k : Nat) (values : List Sextet) :
    ∃ after, Passes false (groupLead cfg cnt ++ values.map (romRead (cfgAlpha cfg)) ++ padText cfg k) values after := by
  obtain ⟨after, hpads⟩ := passes_padText cfg k
  exact ⟨after, by simpa using (passes_lead_romReads cfg cnt values).append hpads⟩

theorem passes_encodeFrom (cnt : Nat) (bytes : List Byte) :
    ∃ after, Passes false (encodeFrom cfg cnt bytes) (encodedValues bytes) after := by
  fun_induction encodeFrom cfg cnt bytes with
  | case1 => exact ⟨false, .nil false⟩
  | case2 cnt b0 n a => exact passes_tail cfg cnt 2 [sextet0 n, sextet1 n]
  | case3 cnt b0 b1 n a => exact passes_tail cfg cnt 1 [sextet0 n, sextet1 n, sextet2 n]
  | case4 cnt b0 b1 b2 rest n a ih =>
    obtain ⟨after, hrest⟩ := ih
    exact ⟨after, (passes_lead_romReads cfg cnt [sextet0 n, sextet1 n, sextet2 n, sextet3 n]).append hrest⟩

end

/-! ### The bytes of these values -/

section
variable (b0 b1 b2 : Byte)

theorem first_byte_of_sextets :
    (sextet0 (packGroup b0 b1 b2) ++ (sextet1 (packGroup b0 b1 b2)).extractLsb' 4 2 : BitVec (6 + 2)) = b0 := by
  obtain ⟨h0, h1, -, -⟩ := romIndicesFromBytes b0 b1 b2
  rw [h0, h1]
  apply BitVec.eq_of_getLsbD_eq
  intro i hi
  simp only [BitVec.getLsbD_extractLsb', BitVec.getLsbD_append]
  interval_cases i <;> simp

theorem second_byte_of_sextets :
    ((sextet1 (packGroup b0 b1 b2)).extractLsb' 0 4 ++ (sextet2 (packGroup b0 b1 b2)).extractLsb' 2 4 :
      BitVec (4 + 4)) = b1 := by
  obtain ⟨-, h1, h2, -⟩ := romIndicesFromBytes b0 b1 b2
  rw [h1, h2]
  apply BitVec.eq_of_getLsbD_eq
  intro i hi
  simp only [BitVec.getLsbD_extractLsb', BitVec.getLsbD_append]
  interval_cases i <;> simp

theorem third_byte_of_sextets :
    ((sextet2 (packGroup b0 b1 b2)).extractLsb' 0 2 ++ sextet3 (packGroup b0 b1 b2) : BitVec (2 + 6)) = b2 := by
  obtain ⟨-, -, h2, h3⟩ := romIndicesFromBytes b0 b1 b2
  rw [h2, h3]
  apply BitVec.eq_of_getLsbD_eq
  intro i hi
  simp only [BitVec.getLsbD_extractLsb', BitVec.getLsbD_append]
  interval_cases i <;> simp

end

theorem length_encodedValues_mod_ne_one (bytes : List Byte) : (encodedValues bytes).length % 4 ≠ 1 := by
  fun_induction encodedValues bytes with
  | case1 | case2 | case3 => simp
  | case4 b0 b1 b2 rest ih =>
    simp only [List.length_append, List.length_cons, List.length_nil]
    omega

theorem bytes_of_encodedValues (bytes : List Byte) :
    completeGroupBytes (encodedValues bytes) ++ tailBytes (pendingValues (encodedValues bytes)) = bytes := by
  fun_induction encodedValues bytes with
  | case1 => rfl
  | case2 b0 => exact congrArg (· :: []) (first_byte_of_sextets b0 0 0)
  | case3 b0 b1 =>
    exact congrArg₂ (fun x y => [x, y]) (first_byte_of_sextets b0 b1 0) (second_byte_of_sextets b0 b1 0)
  | case4 b0 b1 b2 rest ih =>
    simpa only [List.cons_append, List.nil_append, completeGroupBytes, pendingValues, first_byte_of_sextets,
      second_byte_of_sextets, third_byte_of_sextets, List.cons.injEq, true_and] using ih

/-- Settles O52: the text is passed with the values of the bytes, of which there is never one left over. -/
theorem decodeOfEncodeIsIdentity : Obligations.DecodeOfEncodeIsIdentity := by
  intro lw cfg v _
  obtain ⟨after, htext⟩ := passes_encodeFrom cfg 0 v
  calc decodeText (encodeText cfg v)
      = valuesResult (encodedValues v) := htext.decodeText_eq
    _ = .ok v := by rw [valuesResult_of_mod_ne_one (length_encodedValues_mod_ne_one v), bytes_of_encodedValues]

/-! ### The length of the text -/

section
variable {lw : Nat} {cfg : BitVec (4 + lw)}

/-- The newline sequences before `groups` more groups when `cnt` characters stand on the current line. -/
def newlinesFrom (cfg : BitVec (4 + lw)) (cnt groups : Nat) : Nat :=
  if cfgWrapEn cfg then (cnt / 4 + groups - 1) / (((cfgWrapLen cfg).toNat + 3) / 4) else 0

/-- The pad characters that a padded text of `length` bytes has at its end (R136). -/
def padCount (length : Nat) : Nat := if length % 3 = 0 then 0 else if length % 3 = 1 then 2 else 1

/-- The line count between groups: a multiple of 4 up to the line capacity (R141 (d)). -/
def LineCount (cfg : BitVec (4 + lw)) (cnt : Nat) : Prop :=
  cnt % 4 = 0 ∧ (cfgWrapEn cfg = true → cnt ≤ lineCapacity cfg)

theorem LineCount.afterGroup (hcfg : cfgLegal cfg = true) {cnt : Nat} (h : LineCount cfg cnt) :
    LineCount cfg (countAfterGroup cfg cnt) := by
  obtain ⟨hmod, hle⟩ := h
  refine ⟨?_, fun hen => ?_⟩
  · unfold countAfterGroup
    split_ifs <;> omega
  · have hfour := four_le_lineCapacity hcfg hen
    have hfull := newlineDue_iff_full hen hmod (hle hen)
    have hle := hle hen
    rw [lineCapacity] at hfour hfull hle ⊢
    unfold countAfterGroup
    split_ifs with hdue
    · exact hfour
    · have hne := mt hfull.2 hdue
      omega

theorem newlinesFrom_zero (hcfg : cfgLegal cfg = true) {cnt : Nat} (h : LineCount cfg cnt) :
    newlinesFrom cfg cnt 0 = 0 := by
  obtain ⟨hmod, hle⟩ := h
  unfold newlinesFrom
  split_ifs with hen
  · have hfour := four_le_lineCapacity hcfg hen
    have hle := hle hen
    rw [lineCapacity] at hfour hle
    exact Nat.div_eq_of_lt (by omega)
  · rfl

/-- One group more: the newline sequence before it, if it is due, and those before the groups after it. -/
theorem newlinesFrom_succ (hcfg : cfgLegal cfg = true) {cnt : Nat} (h : LineCount cfg cnt) (groups : Nat) :
    newlinesFrom cfg cnt (groups + 1) * (newlineText cfg).length =
      (groupLead cfg cnt).length + newlinesFrom cfg (countAfterGroup cfg cnt) groups * (newlineText cfg).length := by
  obtain ⟨hmod, hle⟩ := h
  cases hen : cfgWrapEn cfg with
  | false => simp [newlinesFrom, hen, groupLead_of_not_wrapping hen]
  | true =>
    have hfour := four_le_lineCapacity hcfg hen
    have hfull := newlineDue_iff_full hen hmod (hle hen)
    rw [lineCapacity] at hfour hfull
    simp only [newlinesFrom, hen, if_true, countAfterGroup, groupLead]
    split_ifs with hdue
    · have hcnt : cnt / 4 + (groups + 1) - 1 = groups + ((cfgWrapLen cfg).toNat + 3) / 4 := by
        have := hfull.1 hdue
        omega
      rw [hcnt, Nat.add_div_right _ (by omega), Nat.succ_mul, Nat.add_comm]
      simp
    · have hcnt : (cnt + 4) / 4 + groups - 1 = cnt / 4 + (groups + 1) - 1 := by omega
      rw [hcnt, List.length_nil, Nat.zero_add]

theorem newlinesFrom_one (hcfg : cfgLegal cfg = true) {cnt : Nat} (h : LineCount cfg cnt) :
    newlinesFrom cfg cnt 1 * (newlineText cfg).length = (groupLead cfg cnt).length := by
  rw [newlinesFrom_succ hcfg h 0, newlinesFrom_zero hcfg (h.afterGroup hcfg), Nat.zero_mul, Nat.add_zero]

theorem length_padText (k : Nat) : (padText cfg k).length + (if cfgPad cfg then 0 else k) = k := by
  unfold padText
  split_ifs <;> simp

theorem length_encodeFrom (hcfg : cfgLegal cfg = true) (cnt : Nat) (bytes : List Byte) (h : LineCount cfg cnt) :
    (encodeFrom cfg cnt bytes).length + (if cfgPad cfg then 0 else padCount bytes.length) =
      4 * ((bytes.length + 2) / 3) +
        newlinesFrom cfg cnt ((bytes.length + 2) / 3) * (newlineText cfg).length := by
  fun_induction encodeFrom cfg cnt bytes with
  | case1 => simp [newlinesFrom_zero hcfg h, padCount]
  | case2 cnt b0 n a =>
    have hlead := newlinesFrom_one hcfg h
    have hpad := length_padText (cfg := cfg) 2
    simp only [List.length_append, List.length_cons, List.length_nil, padCount, Nat.reduceAdd, Nat.reduceDiv,
      Nat.reduceMod, Nat.reduceEqDiff, if_true, if_false, hlead]
    omega
  | case3 cnt b0 b1 n a =>
    have hlead := newlinesFrom_one hcfg h
    have hpad := length_padText (cfg := cfg) 1
    simp only [List.length_append, List.length_cons, List.length_nil, padCount, Nat.reduceAdd, Nat.reduceDiv,
      Nat.reduceMod, Nat.reduceEqDiff, if_false, hlead]
    omega
  | case4 cnt b0 b1 b2 rest n a ih =>
    have hrest := ih (h.afterGroup hcfg)
    have hpads : padCount (rest.length + 3) = padCount rest.length := by simp [padCount]
    have hgroups : (rest.length + 3 + 2) / 3 = (rest.length + 2) / 3 + 1 := by omega
    simp only [List.length_append, List.length_cons, List.length_nil, hpads, hgroups, newlinesFrom_succ hcfg h]
    omega

end

/-- Settles O55: the length from an empty first line on, counted group by group. -/
theorem encodeLengthLaw : Obligations.EncodeLengthLaw := by
  intro lw cfg bytes hcfg len groups pads newlines
  refine ⟨fun hzero => ?_, fun _ => ?_⟩
  · rw [List.length_eq_zero_iff.1 hzero]
    rfl
  · have hlength := length_encodeFrom hcfg 0 bytes ⟨rfl, fun _ => Nat.zero_le _⟩
    have hnewline : (newlineText cfg).length = if cfgNl cfg = true then 2 else 1 := by
      unfold newlineText
      split_ifs <;> rfl
    rw [hnewline, newlinesFrom, Nat.zero_div, Nat.zero_add] at hlength
    exact hlength

end Sys2Proof.Machine
end

section
/-! PROOFS. Token programs (spec/30_encoding.md R71, spec/42_operations.md R132 to R135): the runs of the block over the
tokens of one unit, and START, which makes what came before irrelevant (R140). -/

namespace Sys2Proof.Machine

section
variable {lw pw : Nat} (cfg : BitVec (4 + lw)) (x : Byte)

theorem encTokenUnit_start (r : EncRegs lw) : encTokenUnit cfg (mkToken 0b00 x) r = encStartUnit cfg r := by
  simp only [encTokenUnit, decode_encIn_start, encUnitOf]

theorem encTokenUnit_data (r : EncRegs lw) : encTokenUnit cfg (mkToken 0b01 x) r = encDataUnit x r := by
  simp only [encTokenUnit, decode_encIn_data, encUnitOf]

theorem encTokenUnit_end (r : EncRegs lw) : encTokenUnit cfg (mkToken 0b10 x) r = encEndUnit r := by
  simp only [encTokenUnit, decode_encIn_end, encUnitOf]

theorem decTokenUnit_start (r : DecRegs pw) : decTokenUnit (mkToken 0b00 x) r = decStartUnit r := by
  simp only [decTokenUnit, decode_decIn_start, decUnitOf]

theorem decTokenUnit_data (r : DecRegs pw) : decTokenUnit (mkToken 0b01 x) r = decUnitOf (listedClass x) r := by
  rw [decTokenUnit, decode_decIn_data]

theorem decTokenUnit_end (r : DecRegs pw) : decTokenUnit (mkToken 0b10 x) r = decEndUnit r := by
  simp only [decTokenUnit, decode_decIn_end, decUnitOf]

end

theorem encResting_iff (st : EncSt) : encResting st = true ↔ st ≠ .run := by
  cases st <;> decide

theorem decResting_iff (st : DecSt) : decResting st = true ↔ st = .idle ∨ st = .done := by
  cases st <;> decide

/-! ### START -/

theorem encStartUnit_eq_of_resting {lw : Nat} (cfg : BitVec (4 + lw)) {r q : EncRegs lw} (hr : encResting r.st = true)
    (hq : encResting q.st = true) : encStartUnit cfg r = encStartUnit cfg q := by
  rw [encStartUnit, encStartUnit, if_neg ((encResting_iff _).1 hr), if_neg ((encResting_iff _).1 hq)]

theorem decStartUnit_eq_of_resting {pw : Nat} {r q : DecRegs pw} (hr : decResting r.st = true)
    (hq : decResting q.st = true) : decStartUnit r = decStartUnit q := by
  rw [decStartUnit_of_resting ((decResting_iff _).1 hr), decStartUnit_of_resting ((decResting_iff _).1 hq)]

theorem runEnc_withEnc_congr {s : State} {e e' : EncRegs s.params.lw} {f : EncRegs s.params.lw → EncResult s.params.lw}
    (h : f e = f e') : runEnc { s with enc := e } f = runEnc { s with enc := e' } f := by
  simp only [runEnc, h]
  rcases f e' with _ | ⟨r, out⟩ <;> rfl

theorem runDec_withDec_congr {s : State} {d d' : DecRegs s.params.pw} {f : DecRegs s.params.pw → DecResult s.params.pw}
    (h : f d = f d') : runDec { s with dec := d } f = runDec { s with dec := d' } f := by
  simp only [runDec, h]
  rcases f d' with _ | ⟨r, out⟩ <;> rfl

theorem run_succ_congr {s t : State} (k : Nat) (h : step s = step t) : run (k + 1) s = run (k + 1) t := by
  rw [run, run, h]

/-- Settles O48: the first step is START's unit function, which is the same for every resting register set. -/
theorem startErasesHistory : Obligations.StartErasesHistory := by
  intro s e1 e2 d1 d2 x k rest
  refine ⟨fun h1 h2 => run_succ_congr k ?_, fun h1 h2 => run_succ_congr k ?_⟩
  · rw [step_of_tokenEvent (p := .encIn) rfl, step_of_tokenEvent (p := .encIn) rfl, receiveToken_encIn,
      receiveToken_encIn]
    refine runEnc_withEnc_congr (s := { s with host := rest }) ?_
    rw [encTokenUnit_start, encTokenUnit_start]
    exact encStartUnit_eq_of_resting s.encCfgI h1 h2
  · rw [step_of_tokenEvent (p := .decIn) rfl, step_of_tokenEvent (p := .decIn) rfl, receiveToken_decIn,
      receiveToken_decIn]
    refine runDec_withDec_congr (s := { s with host := rest }) ?_
    rw [decTokenUnit_start, decTokenUnit_start]
    exact decStartUnit_eq_of_resting h1 h2

/-! ### Runs over the tokens of one unit -/

section
variable {ρ τ : Type} {f : Token → ρ → Except Refusal (ρ × List τ)} {r r' r'' : ρ} {ws ws' : List Token}
  {out out' : List τ}

theorem Consumes.append (h : Consumes f r ws r' out) (h' : Consumes f r' ws' r'' out') :
    Consumes f r (ws ++ ws') r'' (out ++ out') := by
  induction h with
  | nil => exact h'
  | cons first _ ih =>
    rw [List.append_assoc]
    exact .cons first (ih h')

theorem Consumes.single {w : Token} (h : f w r = .ok (r', out)) : Consumes f r [w] r' out := by
  simpa using Consumes.cons h (.nil r')

end

section
variable {s : State} {tokens : List Token} {rest : List (HostEvent s.params.lw)}

@[simp] theorem all_isTokenEvent_map (lw : Nat) (p : Port) (tokens : List Token) :
    (tokens.map (tokenEvent lw p)).all isTokenEvent = true := by
  cases p <;> simp [tokenEvent, isTokenEvent]

@[simp] theorem encTokensOf_map_encIn (lw : Nat) (tokens : List Token) :
    encTokensOf (tokens.map (tokenEvent lw .encIn)) = tokens := by
  simp [encTokensOf, tokenEvent, List.filterMap_map, Function.comp_def]

@[simp] theorem encTokensOf_map_decIn (lw : Nat) (tokens : List Token) :
    encTokensOf (tokens.map (tokenEvent lw .decIn)) = [] := by
  simp [encTokensOf, tokenEvent, List.filterMap_map, Function.comp_def]

@[simp] theorem decTokensOf_map_encIn (lw : Nat) (tokens : List Token) :
    decTokensOf (tokens.map (tokenEvent lw .encIn)) = [] := by
  simp [decTokensOf, tokenEvent, List.filterMap_map, Function.comp_def]

@[simp] theorem decTokensOf_map_decIn (lw : Nat) (tokens : List Token) :
    decTokensOf (tokens.map (tokenEvent lw .decIn)) = tokens := by
  simp [decTokensOf, tokenEvent, List.filterMap_map, Function.comp_def]

theorem run_encTokens {r : EncRegs s.params.lw} {out : List EncOut}
    (hhost : s.host = tokens.map (tokenEvent s.params.lw .encIn) ++ rest)
    (h : Consumes (encTokenUnit s.encCfgI) s.enc tokens r out) :
    run tokens.length s = .next { s with enc := r, encOut := s.encOut ++ out, host := rest } := by
  have hrun := run_tokens_eq_next_iff (s := s) (t := { s with enc := r, encOut := s.encOut ++ out, host := rest })
    (events := tokens.map (tokenEvent s.params.lw .encIn)) (rest := rest) (all_isTokenEvent_map ..) s.enc s.encOut s.dec s.decOut
  rw [encTokensOf_map_encIn, decTokensOf_map_encIn, ← hhost, List.length_map] at hrun
  exact hrun.2 ⟨r, out, s.dec, [], h, .nil s.dec, by simp [State.withUnits]⟩

theorem run_decTokens {r : DecRegs s.params.pw} {out : List DecOut}
    (hhost : s.host = tokens.map (tokenEvent s.params.lw .decIn) ++ rest)
    (h : Consumes decTokenUnit s.dec tokens r out) :
    run tokens.length s = .next { s with dec := r, decOut := s.decOut ++ out, host := rest } := by
  have hrun := run_tokens_eq_next_iff (s := s) (t := { s with dec := r, decOut := s.decOut ++ out, host := rest })
    (events := tokens.map (tokenEvent s.params.lw .decIn)) (rest := rest) (all_isTokenEvent_map ..) s.enc s.encOut s.dec s.decOut
  rw [encTokensOf_map_decIn, decTokensOf_map_decIn, ← hhost, List.length_map] at hrun
  exact hrun.2 ⟨s.enc, [], r, out, .nil s.enc, h, by simp [State.withUnits]⟩

end

end Sys2Proof.Machine
end

section
/-! PROOFS. The token program of ENC (spec/42_operations.md R132, R135): what ENC makes of the bytes of an operation and
its END token, group by group as `encode` goes. -/

namespace Sys2Proof.Machine

section
variable {lw : Nat} {port : BitVec (4 + lw)} {r : EncRegs lw} {cnt : Nat}

/-- The wrap check finds what `encode` finds when the line count is `cnt`. -/
theorem tokensBefore_eq_groupLead (hcnt : cfgWrapEn r.cfg = true → r.lcnt.toNat = cnt) :
    tokensBefore r.cfg r.lcnt = (groupLead r.cfg cnt).map .char := by
  unfold tokensBefore groupLead newlineDue newlineTokens newlineText
  cases hen : cfgWrapEn r.cfg with
  | false => simp
  | true =>
    rw [hcnt hen]
    simp only [true_and, Bool.true_and, decide_eq_true_eq]
    split_ifs <;> rfl

theorem padding_eq_padText (cfg : BitVec (4 + lw)) (k : Nat) : padding cfg k = (padText cfg k).map .char := by
  unfold padding padText
  split_ifs
  · exact List.map_replicate.symm
  · rfl

theorem emitTail_one (hb : r.bcnt = .one) (hcnt : cfgWrapEn r.cfg = true → r.lcnt.toNat = cnt) :
    emitTail r =
      (groupLead r.cfg cnt ++ [romRead (cfgAlpha r.cfg) (sextet0 r.acc), romRead (cfgAlpha r.cfg) (sextet1 r.acc)] ++
        padText r.cfg 2).map .char := by
  rw [emitTail_eq, hb, List.map_append, List.map_append, ← tokensBefore_eq_groupLead hcnt, ← padding_eq_padText]
  rfl

theorem emitTail_two (hb : r.bcnt = .two) (hcnt : cfgWrapEn r.cfg = true → r.lcnt.toNat = cnt) :
    emitTail r =
      (groupLead r.cfg cnt ++ [romRead (cfgAlpha r.cfg) (sextet0 r.acc), romRead (cfgAlpha r.cfg) (sextet1 r.acc),
        romRead (cfgAlpha r.cfg) (sextet2 r.acc)] ++ padText r.cfg 1).map .char := by
  rw [emitTail_eq, hb, List.map_append, List.map_append, ← tokensBefore_eq_groupLead hcnt, ← padding_eq_padText]
  rfl

theorem packGroup_first (b0 : Byte) : b0.setWidth 24 <<< 16 = packGroup b0 0 0 := by
  simp [packGroup]

theorem packGroup_second (b0 b1 : Byte) : packGroup b0 0 0 ||| b1.setWidth 24 <<< 8 = packGroup b0 b1 0 := by
  simp [packGroup]

theorem packGroup_third (b0 b1 b2 : Byte) : packGroup b0 b1 0 ||| b2.setWidth 24 = packGroup b0 b1 b2 := by
  simp [packGroup]

/-- `ENC_LCNT` after a full group (R81, R84). -/
def lineCountAfterGroup (r : EncRegs lw) : BitVec (lw + 1) :=
  if cfgWrapEn r.cfg then (if wrapDue r then 0 else r.lcnt) + 4 else r.lcnt

theorem toNat_lineCountAfterGroup (hlw : 7 ≤ lw) (hen : cfgWrapEn r.cfg = true)
    (hcnt : cfgWrapEn r.cfg = true → r.lcnt.toNat = cnt) :
    (lineCountAfterGroup r).toNat = countAfterGroup r.cfg cnt := by
  rw [lineCountAfterGroup, if_pos hen, toNat_lcnt_after_group hlw hen, hcnt hen]
  simp [countAfterGroup, newlineDue, hen]

theorem consumes_first (hst : r.st = .run) (hb : r.bcnt = .zero) (b0 : Byte) :
    Consumes (encTokenUnit port) r [mkToken 0b01 b0] { r with acc := packGroup b0 0 0, bcnt := .one } [] := by
  rw [← packGroup_first]
  exact .single ((encTokenUnit_data port b0 r).trans (encDataUnit_first hst hb))

theorem consumes_second (hst : r.st = .run) (hb : r.bcnt = .one) {b0 : Byte} (hacc : r.acc = packGroup b0 0 0)
    (b1 : Byte) :
    Consumes (encTokenUnit port) r [mkToken 0b01 b1] { r with acc := packGroup b0 b1 0, bcnt := .two } [] := by
  rw [← packGroup_second, ← hacc]
  exact .single ((encTokenUnit_data port b1 r).trans (encDataUnit_second hst hb))

theorem consumes_third (hst : r.st = .run) (hb : r.bcnt = .two) {b0 b1 : Byte} (hacc : r.acc = packGroup b0 b1 0)
    (hcnt : cfgWrapEn r.cfg = true → r.lcnt.toNat = cnt) (b2 : Byte) :
    Consumes (encTokenUnit port) r [mkToken 0b01 b2]
      { r with acc := packGroup b0 b1 b2, bcnt := .zero, lcnt := lineCountAfterGroup r }
      ((groupLead r.cfg cnt).map .char ++ groupTokens r.cfg (packGroup b0 b1 b2)) := by
  rw [← packGroup_third, ← hacc, ← tokensBefore_eq_groupLead hcnt]
  exact .single ((encTokenUnit_data port b2 r).trans (encDataUnit_third b2 r hst hb))

theorem consumes_end (hst : r.st = .run) (x : Byte) :
    Consumes (encTokenUnit port) r [mkToken 0b10 x] { EncRegs.reset lw with st := .done, cfg := r.cfg }
      (emitTail r ++ [.finish]) :=
  .single ((encTokenUnit_end port x r).trans (encEndUnit_of_run hst))

/-- What ENC makes of the rest of an operation, from a group boundary on. -/
theorem consumes_encodeFrom (hlw : 7 ≤ lw) {cfg : BitVec (4 + lw)} (bytes : List Byte) (x : Byte) (hst : r.st = .run)
    (hb : r.bcnt = .zero) (hcfg : r.cfg = cfg) (hcnt : cfgWrapEn r.cfg = true → r.lcnt.toNat = cnt) :
    Consumes (encTokenUnit port) r (bytes.map (mkToken 0b01) ++ [mkToken 0b10 x])
      { EncRegs.reset lw with st := .done, cfg := cfg } ((encodeFrom cfg cnt bytes).map .char ++ [.finish]) := by
  fun_induction encodeFrom cfg cnt bytes generalizing r with
  | case1 cnt =>
    subst hcfg
    have hend := consumes_end (port := port) hst x
    rw [emitTail_eq, hb] at hend
    exact hend
  | case2 cnt b0 n =>
    subst hcfg
    have hfirst := consumes_first (port := port) hst hb b0
    have hend := consumes_end (port := port) (r := { r with acc := n, bcnt := .one }) hst x
    rw [emitTail_one (r := { r with acc := n, bcnt := .one }) rfl hcnt] at hend
    exact hfirst.append hend
  | case3 cnt b0 b1 n =>
    subst hcfg
    have hfirst := consumes_first (port := port) hst hb b0
    have hsecond := consumes_second (port := port) (r := { r with acc := packGroup b0 0 0, bcnt := .one }) hst rfl rfl b1
    have hend := consumes_end (port := port) (r := { r with acc := n, bcnt := .two }) hst x
    rw [emitTail_two (r := { r with acc := n, bcnt := .two }) rfl hcnt] at hend
    exact hfirst.append (hsecond.append hend)
  | case4 cnt b0 b1 b2 rest n a =>
    rename_i ih
    subst hcfg
    have hfirst := consumes_first (port := port) hst hb b0
    have hsecond := consumes_second (port := port) (r := { r with acc := packGroup b0 0 0, bcnt := .one }) hst rfl rfl b1
    have hthird := consumes_third (port := port) (r := { r with acc := packGroup b0 b1 0, bcnt := .two }) hst rfl rfl
      hcnt b2
    have hrest := @ih { r with acc := n, bcnt := .zero, lcnt := lineCountAfterGroup r } hst rfl rfl
      (fun hen => toNat_lineCountAfterGroup hlw hen hcnt)
    rw [List.map_append, List.map_append, List.append_assoc]
    exact hfirst.append (hsecond.append (hthird.append hrest))

/-- What ENC makes of a whole operation (R132). -/
theorem consumes_encodeText (hlw : 7 ≤ lw) (bytes : List Byte) (x y : Byte) (hrest : encResting r.st = true)
    (hlegal : cfgLegal port = true) :
    Consumes (encTokenUnit port) r (mkToken 0b00 x :: bytes.map (mkToken 0b01) ++ [mkToken 0b10 y])
      { EncRegs.reset lw with st := .done, cfg := port } ((encodeText port bytes).map .char ++ [.finish]) := by
  have hstart := (encTokenUnit_start port x r).trans (encStartUnit_of_legal ((encResting_iff _).1 hrest) hlegal)
  have hrun := consumes_encodeFrom (port := port) (cnt := 0)
    (r := { st := .run, cfg := port, acc := 0, bcnt := .zero, lcnt := 0 }) hlw bytes y rfl rfl rfl fun _ => by simp
  exact .cons (out := []) hstart hrun

end

/-- The tokens of an operation, as rows of the opcode map. -/
theorem operationTokens_eq (bytes : List Byte) :
    operationTokens bytes = mkToken 0b00 0 :: bytes.map (mkToken 0b01) ++ [mkToken 0b10 0] := rfl

theorem length_operationTokens (bytes : List Byte) : (operationTokens bytes).length = bytes.length + 2 := by
  simp [operationTokens]

theorem seven_le_lw_of_wf {p : Params} (h : p.wf = true) : 7 ≤ p.lw := by
  simp only [Params.wf, Bool.and_eq_true, decide_eq_true_eq] at h
  exact h.1

/-- Settles O50: the tokens are START, the bytes and END, and ENC makes the text of them. -/
theorem encodeProgramComputesEncode : Obligations.EncodeProgramComputesEncode := by
  intro s bytes rest hwf hrest hlegal hhost
  have hrun := run_encTokens hhost (consumes_encodeText (seven_le_lw_of_wf hwf) bytes 0 0 hrest hlegal)
  rwa [length_operationTokens, ← List.append_assoc] at hrun

end Sys2Proof.Machine
end

section
/-! PROOFS. The token program of DEC (spec/42_operations.md R133, R135): what DEC makes of the bytes the scan passes, of a
byte that is an error, and of the END token. -/

namespace Sys2Proof.Machine

/-- The scanning state of DEC before the first `=` and after it (R16). -/
def scanSt (padded : Bool) : DecSt := if padded then .terminatedByPad else .accumulating

/-- DEC's registers in an operation of which `n` bytes were passed, the accumulator holding the values `held`. -/
def scannedRegs (pw : Nat) (padded : Bool) (acc : BitVec 32) (held : List Sextet) (n : Nat) : DecRegs pw :=
  { DecRegs.reset pw with
    st := scanSt padded, acc := acc, mod := BitVec.ofNat 2 held.length, pos := BitVec.ofNat pw n }

theorem scanSt_scanning (padded : Bool) : scanSt padded = .accumulating ∨ scanSt padded = .terminatedByPad := by
  cases padded with
  | false => exact .inl rfl
  | true => exact .inr rfl

theorem dataChar_listedClass : ∀ c : Byte, dataChar (listedClass c) = (charValue c).map fun v => (c, v) := by decide

section
variable {pw : Nat} {r : DecRegs pw} {padded : Bool} {c : Byte}

/-! ### One DATA token -/

theorem decTokenUnit_value {v : Sextet} (h : charValue c = some v) :
    decTokenUnit (mkToken 0b01 c) r = dataCharacter v c r := by
  rw [decTokenUnit_data]
  refine decUnitOf_of_dataChar ?_ ((wf_iff_listedClass (decDataByte_listedClass c)).2 rfl) r
  rw [dataChar_listedClass, h, Option.map_some]

theorem decTokenUnit_break (h : c = 0x0D ∨ c = 0x0A) : decTokenUnit (mkToken 0b01 c) r = skippedByte r := by
  rw [decTokenUnit_data]
  rcases h with rfl | rfl <;> rfl

theorem decTokenUnit_pad : decTokenUnit (mkToken 0b01 0x3D) r = decPadUnit r :=
  decTokenUnit_data 0x3D r

theorem decTokenUnit_invalid (h : isListedInvalid c = true) :
    decTokenUnit (mkToken 0b01 c) r = decInvalidUnit c r := by
  rw [decTokenUnit_data, (listedClass_eq_invalid_iff c).2 h, decUnitOf]

/-- A byte that is an error is rejected: of class INVALID, or a data character after a `=`. -/
theorem decTokenUnit_offends (hst : r.st = scanSt padded) (hpos : r.pos ≠ BitVec.allOnes pw)
    (hc : byteOffends padded c = true) : decTokenUnit (mkToken 0b01 c) r = .ok (failByte c r.pos r) := by
  have hscan : r.st = .accumulating ∨ r.st = .terminatedByPad := hst ▸ scanSt_scanning padded
  cases padded with
  | false => exact (decTokenUnit_invalid hc).trans (decInvalidUnit_of_scanning hscan hpos)
  | true =>
    cases hvalue : charValue c with
    | some v => exact (decTokenUnit_value hvalue).trans (dataCharacter_of_terminated hst hpos)
    | none =>
      rcases (charValue_eq_none_iff c).1 hvalue with hinvalid | rfl | rfl | rfl
      · exact (decTokenUnit_invalid hinvalid).trans (decInvalidUnit_of_scanning hscan hpos)
      all_goals cases hc

theorem decTokenUnit_failed (hst : r.st = .failed) (c : Byte) : decTokenUnit (mkToken 0b01 c) r = .ok (r, []) := by
  obtain ⟨inAcc, inTbp, h⟩ := exists_dataPrologue (decDataByte_listedClass c) r
  rw [decTokenUnit_data, h, dataPrologue_failed hst]

/-- In FAILED every byte is consumed without effect (R115). -/
theorem consumes_failed (hst : r.st = .failed) (bytes : List Byte) :
    Consumes decTokenUnit r (bytes.map (mkToken 0b01)) r [] := by
  induction bytes with
  | nil => exact .nil r
  | cons c bytes ih => exact .cons (out := []) (decTokenUnit_failed hst c) ih

/-! ### The bytes the scan passes -/

theorem pos_ne_allOnes_of_room {n : Nat} (h : r.pos.toNat + (n + 1) < 2 ^ pw) : r.pos ≠ BitVec.allOnes pw :=
  pos_ne_allOnes (by omega)

theorem toNat_pos_succ {n : Nat} (h : r.pos.toNat + (n + 1) < 2 ^ pw) : (r.pos + 1).toNat + n < 2 ^ pw := by
  rw [toNat_succ_of_ne (pos_ne_allOnes_of_room h)]
  omega

theorem pos_add_ofNat_succ (n : Nat) : r.pos + BitVec.ofNat pw (n + 1) = r.pos + 1 + BitVec.ofNat pw n := by
  rw [BitVec.add_assoc, Nat.add_comm n 1, BitVec.ofNat_add]
  rfl

theorem Passes.consumes {after : Bool} {bytes : List Byte} {values held : List Sextet}
    (h : Passes padded bytes values after) (hst : r.st = scanSt padded) (hacc : HoldsValues r.acc held)
    (hmod : r.mod = BitVec.ofNat 2 held.length) (hroom : r.pos.toNat + bytes.length < 2 ^ pw) :
    ∃ acc, HoldsValues acc (pendingValues (held ++ values)) ∧
      Consumes decTokenUnit r (bytes.map (mkToken 0b01))
        { r with
          st := scanSt after, acc := acc, mod := BitVec.ofNat 2 (pendingValues (held ++ values)).length,
          pos := r.pos + BitVec.ofNat pw bytes.length }
        ((completeGroupBytes (held ++ values)).map .byte) := by
  induction h generalizing r held with
  | nil padded =>
    obtain ⟨hpending, hgroups⟩ := pendingValues_of_short hacc.1
    refine ⟨r.acc, by simpa [hpending] using hacc, ?_⟩
    simpa [hpending, hgroups, ← hst, ← hmod] using Consumes.nil r
  | @value c v bytes values after hvalue _ ih =>
    have hpos := pos_ne_allOnes_of_room hroom
    rw [List.length_cons, pos_add_ofNat_succ]
    by_cases hfull : held.length = 3
    · obtain ⟨hgroups, hpending⟩ := hacc.complete hfull v values
      have hfirst := (decTokenUnit_value hvalue).trans
        (dataCharacter_of_mod_eq (c := c) (v := v) hst hpos (by rw [hmod, hfull]; rfl))
      obtain ⟨acc, hlater, hrun⟩ := ih (r := { r with acc := shiftIn r.acc v, mod := 0, pos := r.pos + 1 }) hst
        (holdsValues_nil _) rfl (toNat_pos_succ hroom)
      rw [hgroups, hpending, List.map_append]
      exact ⟨acc, hlater, .cons hfirst hrun⟩
    · have hlt := hacc.1
      have hne : r.mod ≠ 3 := by
        intro hthree
        have hlength : held.length % 4 = 3 := by simpa [hmod] using congrArg BitVec.toNat hthree
        omega
      have hfirst := (decTokenUnit_value hvalue).trans (dataCharacter_of_mod_ne (c := c) (v := v) hst hpos hne)
      obtain ⟨acc, hlater, hrun⟩ := ih (r := { r with acc := shiftIn r.acc v, mod := r.mod + 1, pos := r.pos + 1 }) hst
        (hacc.snoc hfull v) (by simp [hmod, BitVec.ofNat_add]) (toNat_pos_succ hroom)
      rw [List.append_assoc] at hlater hrun
      exact ⟨acc, hlater, .cons (out := []) hfirst hrun⟩
  | skip hbreak _ ih =>
    have hpos := pos_ne_allOnes_of_room hroom
    have hfirst := (decTokenUnit_break hbreak).trans (skippedByte_of_scanning (hst ▸ scanSt_scanning _) hpos)
    obtain ⟨acc, hlater, hrun⟩ := ih (r := advance r.pos r) hst hacc hmod (toNat_pos_succ hroom)
    rw [List.length_cons, pos_add_ofNat_succ]
    exact ⟨acc, hlater, .cons (out := []) hfirst hrun⟩
  | pad _ ih =>
    have hpos := pos_ne_allOnes_of_room hroom
    have hfirst := decTokenUnit_pad.trans (decPadUnit_of_scanning (hst ▸ scanSt_scanning _) hpos)
    obtain ⟨acc, hlater, hrun⟩ := ih (r := { r with st := .terminatedByPad, pos := r.pos + 1 }) rfl hacc hmod
      (toNat_pos_succ hroom)
    rw [List.length_cons, pos_add_ofNat_succ]
    exact ⟨acc, hlater, .cons (out := []) hfirst hrun⟩

/-- START and the bytes the scan passes. -/
theorem Passes.consumes_operation {after : Bool} {bytes : List Byte} {values : List Sextet}
    (h : Passes false bytes values after) (hrest : decResting r.st = true) (hroom : bytes.length < 2 ^ pw) (x : Byte) :
    ∃ acc, HoldsValues acc (pendingValues values) ∧
      Consumes decTokenUnit r (mkToken 0b00 x :: bytes.map (mkToken 0b01))
        (scannedRegs pw after acc (pendingValues values) bytes.length)
        ((completeGroupBytes values).map .byte) := by
  have hstart := (decTokenUnit_start x r).trans (decStartUnit_of_resting ((decResting_iff _).1 hrest))
  obtain ⟨acc, hacc, hrun⟩ := h.consumes (r := { DecRegs.reset pw with st := .accumulating }) rfl
    (holdsValues_nil _) rfl (by simpa [DecRegs.reset] using hroom)
  refine ⟨acc, hacc, .cons (out := []) hstart ?_⟩
  simpa [scannedRegs, DecRegs.reset] using hrun

/-! ### END -/

section
variable {held : List Sextet}

theorem finalize_of_length_one (hmod : r.mod = BitVec.ofNat 2 held.length) (hone : held.length = 1) :
    finalize r = failLength r :=
  finalize_of_mod_one (by rw [hmod, hone]; rfl)

theorem finalize_of_length_ne_one (hacc : HoldsValues r.acc held) (hmod : r.mod = BitVec.ofNat 2 held.length)
    (hne : held.length ≠ 1) : finalize r = finishOk (tailBytes held) r := by
  obtain hzero | htwo | hthree : held.length = 0 ∨ held.length = 2 ∨ held.length = 3 := by
    have := hacc.1
    omega
  · rw [List.length_eq_zero_iff.1 hzero] at hmod ⊢
    exact finalize_of_mod_zero hmod
  · rw [hacc.tailBytes_two htwo]
    exact finalize_of_mod_two (by rw [hmod, htwo]; rfl)
  · rw [hacc.tailBytes_three hthree]
    exact finalize_of_mod_three (by rw [hmod, hthree]; rfl)

end

theorem decTokenUnit_end_of_scanning (hst : r.st = scanSt padded) (y : Byte) :
    decTokenUnit (mkToken 0b10 y) r = .ok (closeDec (finalize r).1, (finalize r).2) :=
  (decTokenUnit_end y r).trans (decEndUnit_of_scanning (hst ▸ scanSt_scanning padded))

/-- START, the bytes the scan passes, and END with one value left over (R133). -/
theorem Passes.consumes_invalidLength {after : Bool} {bytes : List Byte} {values : List Sextet}
    (h : Passes false bytes values after) (hone : (pendingValues values).length = 1) (hrest : decResting r.st = true)
    (hroom : bytes.length < 2 ^ pw) (x y : Byte) :
    Consumes decTokenUnit r (mkToken 0b00 x :: bytes.map (mkToken 0b01) ++ [mkToken 0b10 y])
      { DecRegs.reset pw with st := .done, status := .invalidLength }
      ((completeGroupBytes values).map .byte ++ [.status .invalidLength]) := by
  obtain ⟨acc, hacc, hrun⟩ := h.consumes_operation hrest hroom x
  have hend := decTokenUnit_end_of_scanning (padded := after)
    (r := scannedRegs pw after acc (pendingValues values) bytes.length) rfl y
  rw [finalize_of_length_one rfl hone] at hend
  exact hrun.append (.single hend)

/-- START, the bytes the scan passes, and the byte that is an error: DEC is in FAILED with the record of it (R133). -/
theorem Passes.consumes_error {after : Bool} {bytes : List Byte} {values : List Sextet}
    (h : Passes false bytes values after) (hc : byteOffends after c = true) (hrest : decResting r.st = true)
    (hroom : bytes.length + 1 < 2 ^ pw) (x : Byte) :
    ∃ failed : DecRegs pw, failed.st = .failed ∧
      closeDec failed = { DecRegs.reset pw with
        st := .done, status := .invalidByte, errByte := c, errPos := BitVec.ofNat pw bytes.length } ∧
      Consumes decTokenUnit r (mkToken 0b00 x :: bytes.map (mkToken 0b01) ++ [mkToken 0b01 c]) failed
        ((completeGroupBytes values).map .byte ++ [.status .invalidByte]) := by
  obtain ⟨acc, hacc, hrun⟩ := h.consumes_operation hrest (by omega) x
  have hpos : BitVec.ofNat pw bytes.length ≠ BitVec.allOnes pw := by
    apply pos_ne_allOnes
    rw [BitVec.toNat_ofNat, Nat.mod_eq_of_lt (by omega)]
    omega
  have herror := decTokenUnit_offends (padded := after)
    (r := scannedRegs pw after acc (pendingValues values) bytes.length) rfl hpos hc
  exact ⟨_, rfl, rfl, hrun.append (.single herror)⟩

/-- What DEC makes of an operation whose result is Ok (R133). -/
theorem consumes_of_decodeText_ok {bytes out : List Byte} (hresult : decodeText bytes = .ok out)
    (hrest : decResting r.st = true) (hroom : bytes.length < 2 ^ pw) (x y : Byte) :
    Consumes decTokenUnit r (mkToken 0b00 x :: bytes.map (mkToken 0b01) ++ [mkToken 0b10 y])
      { DecRegs.reset pw with st := .done, status := .ok } (out.map .byte ++ [.status .ok]) := by
  rcases scanEnds false bytes with ⟨values, after, h⟩ | ⟨before, c, later, values, after, rfl, h, hc⟩
  · obtain ⟨acc, hacc, hrun⟩ := h.consumes_operation hrest hroom x
    have hne : (pendingValues values).length ≠ 1 := by
      intro hone
      rw [length_pendingValues] at hone
      rw [h.decodeText_eq, valuesResult_of_mod_one hone] at hresult
      cases hresult
    have hend := decTokenUnit_end_of_scanning (padded := after)
      (r := scannedRegs pw after acc (pendingValues values) bytes.length) rfl y
    rw [finalize_of_length_ne_one hacc rfl hne] at hend
    rw [h.decodeText_eq, valuesResult, if_neg hne] at hresult
    cases hresult
    rw [List.map_append, List.append_assoc]
    exact hrun.append (.single hend)
  · rw [h.decodeText_of_offends hc] at hresult
    cases hresult

end

end Sys2Proof.Machine
end

section
/-! PROOFS. Whole operations on the block (spec/42_operations.md R133 to R135, spec/70_reset_and_hazards.md R171): the
token program of DEC for each result, the empty input, and the round trip through both units as an observer sees it. -/

namespace Sys2Proof.Machine

/-- The events of an operation that begins with `tokens`. -/
theorem host_of_operationTokens {s : State} {p : Port} {bytes : List Byte} {rest : List (HostEvent s.params.lw)}
    {tokens later : List Token} (hhost : s.host = operationEvents s.params.lw p bytes ++ rest)
    (htokens : operationTokens bytes = tokens ++ later) :
    s.host = tokens.map (tokenEvent s.params.lw p) ++ (later.map (tokenEvent s.params.lw p) ++ rest) := by
  rw [hhost, operationEvents, htokens, List.map_append, List.append_assoc]

section
variable {s : State} {bytes : List Byte} {rest : List (HostEvent s.params.lw)} {tokens : List Token}
  {r : DecRegs s.params.pw} {out : List DecOut}

/-- A run over the first tokens of a decoder operation. -/
theorem run_operation_begin (hhost : s.host = operationEvents s.params.lw .decIn bytes ++ rest)
    (h : Consumes decTokenUnit s.dec tokens r out) (later : List Token)
    (htokens : operationTokens bytes = tokens ++ later) {k : Nat} (hk : tokens.length = k) :
    ∃ t, run k s = .next t ∧ t.decOut = s.decOut ++ out := by
  subst hk
  exact ⟨_, run_decTokens (host_of_operationTokens hhost htokens) h, rfl⟩

/-- A run over a whole decoder operation. -/
theorem run_operation (hhost : s.host = operationEvents s.params.lw .decIn bytes ++ rest)
    (h : Consumes decTokenUnit s.dec (operationTokens bytes) r out) :
    run (bytes.length + 2) s = .next { s with dec := r, decOut := s.decOut ++ out, host := rest } := by
  rw [← length_operationTokens]
  exact run_decTokens hhost h

theorem run_of_decodeText_ok {bytes' : List Byte} (hhost : s.host = operationEvents s.params.lw .decIn bytes ++ rest)
    (hrest : decResting s.dec.st = true) (hroom : bytes.length < 2 ^ s.params.pw)
    (hresult : decodeText bytes = .ok bytes') :
    run (bytes.length + 2) s = .next { s with
      dec := { DecRegs.reset s.params.pw with st := .done, status := .ok },
      decOut := s.decOut ++ bytes'.map .byte ++ [.status .ok],
      host := rest } := by
  rw [List.append_assoc]
  exact run_operation hhost (consumes_of_decodeText_ok hresult hrest hroom 0 0)

variable {values : List Sextet} {after : Bool}

theorem run_of_invalidLength (hhost : s.host = operationEvents s.params.lw .decIn bytes ++ rest)
    (hrest : decResting s.dec.st = true) (hroom : bytes.length < 2 ^ s.params.pw) (h : Passes false bytes values after)
    (hone : (pendingValues values).length = 1) :
    (∃ t, run (bytes.length + 1) s = .next t ∧ t.decOut = s.decOut ++ (completeGroupBytes values).map .byte) ∧
    run (bytes.length + 2) s = .next { s with
      dec := { DecRegs.reset s.params.pw with st := .done, status := .invalidLength },
      decOut := s.decOut ++ (completeGroupBytes values).map .byte ++ [.status .invalidLength],
      host := rest } := by
  obtain ⟨acc, -, hscan⟩ := h.consumes_operation hrest hroom 0
  refine ⟨run_operation_begin hhost hscan [mkToken 0b10 0] rfl (by simp), ?_⟩
  rw [List.append_assoc]
  exact run_operation hhost (h.consumes_invalidLength hone hrest hroom 0 0)

/-- The error's STATUS token appears at the step of its byte; FAILED drains the bytes after it. -/
theorem run_of_offends {before later : List Byte} {c : Byte}
    (hhost : s.host = operationEvents s.params.lw .decIn (before ++ c :: later) ++ rest)
    (hrest : decResting s.dec.st = true) (hroom : (before ++ c :: later).length < 2 ^ s.params.pw)
    (h : Passes false before values after) (hc : byteOffends after c = true) :
    (∃ t, run (before.length + 1) s = .next t ∧ t.decOut = s.decOut ++ (completeGroupBytes values).map .byte) ∧
    (∃ t, run (before.length + 2) s = .next t ∧
      t.decOut = s.decOut ++ (completeGroupBytes values).map .byte ++ [.status .invalidByte]) ∧
    run ((before ++ c :: later).length + 2) s = .next { s with
      dec := { DecRegs.reset s.params.pw with
        st := .done, status := .invalidByte, errByte := c, errPos := BitVec.ofNat s.params.pw before.length },
      decOut := s.decOut ++ (completeGroupBytes values).map .byte ++ [.status .invalidByte],
      host := rest } := by
  have hbefore : before.length + 1 < 2 ^ s.params.pw := by
    rw [List.length_append, List.length_cons] at hroom
    omega
  have htokens : operationTokens (before ++ c :: later) =
      (mkToken 0b00 0 :: before.map (mkToken 0b01) ++ [mkToken 0b01 c]) ++
        (later.map (mkToken 0b01) ++ [mkToken 0b10 0]) := by
    simp [operationTokens_eq]
  obtain ⟨acc, -, hscan⟩ := h.consumes_operation hrest (by omega) 0
  obtain ⟨failed, hst, hclosed, herror⟩ := h.consumes_error hc hrest hbefore 0
  have hend := (decTokenUnit_end 0 failed).trans (decEndUnit_of_failed hst)
  rw [hclosed] at hend
  have hwhole := herror.append ((consumes_failed hst later).append (.single hend))
  rw [← htokens, List.append_nil, List.append_nil] at hwhole
  rw [List.append_assoc]
  exact ⟨run_operation_begin hhost hscan _ (htokens.trans (List.append_assoc ..)) (by simp),
    run_operation_begin hhost herror _ htokens (by simp), run_operation hhost hwhole⟩

end

/-- Settles O51: DEC's run over the bytes the scan passes, and then over END, or over the error, the bytes that FAILED
drains, and END. -/
theorem decodeProgramComputesDecode : Obligations.DecodeProgramComputesDecode := by
  intro s bytes rest hrest hroom hhost ended groups
  rcases scanEnds false bytes with ⟨values, after, h⟩ | ⟨before, c, later, values, after, rfl, h, hc⟩
  · by_cases hone : (pendingValues values).length = 1
    · have hrun := run_of_invalidLength hhost hrest hroom h hone
      rw [← h.dataValues_eq] at hrun
      rw [h.decodeText_eq, valuesResult, if_pos hone]
      exact hrun
    · have hresult := h.decodeText_eq
      rw [valuesResult, if_neg hone] at hresult
      rw [hresult]
      exact run_of_decodeText_ok hhost hrest hroom hresult
  · obtain ⟨hbefore, hstep, hwhole⟩ := run_of_offends hhost hrest hroom h hc
    rw [← h.dataValues_of_offends hc later] at hbefore hstep hwhole
    have hlt : before.length < (before ++ c :: later).length := by simp
    rw [h.decodeText_of_offends hc]
    refine ⟨hlt, hbefore, hstep, hwhole, ?_⟩
    rw [BitVec.toNat_ofNat, Nat.mod_eq_of_lt (hlt.trans hroom)]

end Sys2Proof.Machine
end

section
/-! PROOFS. What an observer of both output streams holds after an operation (spec/70_reset_and_hazards.md R171): the text
of an encoder operation, the result of a decoder operation; and with these the round trip through both units (R134, R173). -/

namespace Sys2Proof.Machine

/-! ### One step as it is seen -/

section
variable {s : State} {w : Token} {host : List (HostEvent s.params.lw)}

theorem step_encToken {r : EncRegs s.params.lw} {out : List EncOut} (hhost : s.host = .encToken w :: host)
    (h : encTokenUnit s.encCfgI w s.enc = .ok (r, out)) :
    step s = .next { s with enc := r, encOut := s.encOut ++ out, host := host } := by
  rw [step_of_tokenEvent (p := .encIn) hhost, receiveToken_encIn]
  exact runEnc_ok h

theorem step_decToken {r : DecRegs s.params.pw} {out : List DecOut} (hhost : s.host = .decToken w :: host)
    (h : decTokenUnit w s.dec = .ok (r, out)) :
    step s = .next { s with dec := r, decOut := s.decOut ++ out, host := host } := by
  rw [step_of_tokenEvent (p := .decIn) hhost, receiveToken_decIn]
  exact runDec_ok h

theorem watch_encToken {r : EncRegs s.params.lw} {out : List EncOut} (hhost : s.host = .encToken w :: host)
    (h : encTokenUnit s.encCfgI w s.enc = .ok (r, out)) (k : Nat) (seen : Watch) :
    watch (k + 1) s seen = watch k { s with enc := r, encOut := s.encOut ++ out, host := host } (seen.seeEnc out) := by
  rw [watch_succ_of_next k seen (step_encToken hhost h)]
  simp [Watch.see, hhost]

theorem watch_decToken {r : DecRegs s.params.pw} {out : List DecOut} (hhost : s.host = .decToken w :: host)
    (h : decTokenUnit w s.dec = .ok (r, out)) (k : Nat) (seen : Watch) :
    watch (k + 1) s seen =
      watch k { s with dec := r, decOut := s.decOut ++ out, host := host } (seen.seeDec w out r) := by
  rw [watch_succ_of_next k seen (step_decToken hhost h)]
  simp [Watch.see, hhost]

end

/-! ### An encoder operation -/

theorem cutTexts_append (pending : List Byte) (a b : List EncOut) :
    cutTexts pending (a ++ b) =
      ((cutTexts (cutTexts pending a).1 b).1, (cutTexts pending a).2 ++ (cutTexts (cutTexts pending a).1 b).2) := by
  fun_induction cutTexts pending a with
  | case1 => rfl
  | case2 pending c rest ih => exact ih
  | case3 pending rest ih => simp [cutTexts, ih]

theorem seeEnc_append (a b : List EncOut) (seen : Watch) : seen.seeEnc (a ++ b) = (seen.seeEnc a).seeEnc b := by
  simp [Watch.seeEnc, cutTexts_append]

/-- The steps over the tokens of ENC are seen as the tokens they emit in all. -/
theorem watch_encTokens {s : State} {tokens : List Token} {rest : List (HostEvent s.params.lw)}
    {r : EncRegs s.params.lw} {out : List EncOut}
    (hhost : s.host = tokens.map (tokenEvent s.params.lw .encIn) ++ rest)
    (h : Consumes (encTokenUnit s.encCfgI) s.enc tokens r out) (seen : Watch) :
    watch tokens.length s seen = seen.seeEnc out := by
  induction tokens generalizing s seen out with
  | nil =>
    cases h
    simp [watch, Watch.seeEnc, cutTexts]
  | cons w tokens ih =>
    cases h with
    | cons first later =>
      rw [List.length_cons, watch_encToken hhost first, seeEnc_append]
      exact ih rfl later _

/-- A whole encoder operation is seen as its text. -/
theorem watch_encOperation {s : State} {bytes : List Byte} {rest : List (HostEvent s.params.lw)}
    (hhost : s.host = operationEvents s.params.lw .encIn bytes ++ rest) (hwf : s.params.wf = true)
    (hrest : encResting s.enc.st = true) (hlegal : cfgLegal s.encCfgI = true) (seen : Watch) :
    watch (bytes.length + 2) s seen = seen.seeEnc ((encodeText s.encCfgI bytes).map .char ++ [.finish]) := by
  rw [← length_operationTokens]
  exact watch_encTokens hhost (consumes_encodeText (seven_le_lw_of_wf hwf) bytes 0 0 hrest hlegal) seen

/-! ### A decoder operation -/

section
variable {pw : Nat} (x : Byte) (out : List DecOut) (r : DecRegs pw) (seen : Watch)

theorem seeDec_start : seen.seeDec (mkToken 0b00 x) out r = { seen with bytes := [] } := by
  simp [Watch.seeDec]

theorem seeDec_data : seen.seeDec (mkToken 0b01 x) out r = { seen with bytes := seen.bytes ++ decodedBytes out } := by
  simp [Watch.seeDec]

theorem seeDec_end : seen.seeDec (mkToken 0b10 x) out r =
    { seen with
      bytes := seen.bytes ++ decodedBytes out,
      decoded := seen.decoded ++ (operationResult r (seen.bytes ++ decodedBytes out)).toList } := by
  simp [Watch.seeDec]

end

/-- The steps over the bytes and the END token of a decoder operation. -/
theorem watch_decBytes {s : State} {bytes : List Byte} {y : Byte} {rest : List (HostEvent s.params.lw)}
    {r : DecRegs s.params.pw} {out : List DecOut}
    (hhost : s.host = (bytes.map (mkToken 0b01) ++ [mkToken 0b10 y]).map (tokenEvent s.params.lw .decIn) ++ rest)
    (h : Consumes decTokenUnit s.dec (bytes.map (mkToken 0b01) ++ [mkToken 0b10 y]) r out) (seen : Watch) :
    watch (bytes.length + 1) s seen =
      { seen with
        bytes := seen.bytes ++ decodedBytes out,
        decoded := seen.decoded ++ (operationResult r (seen.bytes ++ decodedBytes out)).toList } := by
  induction bytes generalizing s seen out with
  | nil =>
    cases h with
    | cons first later =>
      cases later
      rw [List.length_nil, watch_decToken hhost first, seeDec_end, List.append_nil]
      rfl
  | cons b bytes ih =>
    cases h with
    | cons first later =>
      rw [List.length_cons, watch_decToken hhost first, seeDec_data, ih rfl later]
      simp only [decodedBytes_append, List.append_assoc]

theorem out_of_decStart {pw : Nat} {r r' : DecRegs pw} {x : Byte} {out : List DecOut}
    (h : decTokenUnit (mkToken 0b00 x) r = .ok (r', out)) : out = [] := by
  rw [decTokenUnit_start] at h
  cases decStartUnit_effect x h with
  | start => rfl
  | data hi => cases hi

/-- A whole decoder operation is seen as its result. -/
theorem watch_operation {s : State} {bytes : List Byte} {rest : List (HostEvent s.params.lw)}
    {r : DecRegs s.params.pw} {out : List DecOut}
    (hhost : s.host = operationEvents s.params.lw .decIn bytes ++ rest)
    (h : Consumes decTokenUnit s.dec (operationTokens bytes) r out) (seen : Watch) :
    watch (bytes.length + 2) s seen =
      { seen with
        bytes := decodedBytes out,
        decoded := seen.decoded ++ (operationResult r (decodedBytes out)).toList } := by
  rw [operationEvents, operationTokens_eq] at hhost
  rw [operationTokens_eq] at h
  cases h with
  | cons first later =>
    obtain rfl := out_of_decStart first
    rw [watch_decToken (w := mkToken 0b00 0) hhost first, seeDec_start, watch_decBytes rfl later]
    rfl

/-! ### The empty input and the round trip -/

/-- Settles O54: no byte is pending at END, and no value is held. -/
theorem emptyInputGivesEmptyOutput : Obligations.EmptyInputGivesEmptyOutput := by
  refine ⟨fun lw cfg _ => rfl, rfl, fun s x y rest hrest hlegal hhost => ?_, fun s x y rest hrest hhost => ?_⟩
  · have hstart := (encTokenUnit_start s.encCfgI x s.enc).trans
      (encStartUnit_of_legal ((encResting_iff _).1 hrest) hlegal)
    have hend := consumes_end (port := s.encCfgI)
      (r := { st := .run, cfg := s.encCfgI, acc := 0, bcnt := .zero, lcnt := 0 }) rfl y
    rw [emitTail_eq] at hend
    exact run_encTokens hhost (.cons (out := []) hstart hend)
  · exact run_decTokens hhost
      (consumes_of_decodeText_ok (bytes := []) (out := []) rfl hrest (Nat.two_pow_pos _) x y)

/-- A decoder operation whose result is Ok: where it ends and how it is seen. -/
theorem run_and_watch_of_decodeText_ok {s : State} {bytes out : List Byte}
    (hhost : s.host = operationEvents s.params.lw .decIn bytes) (hrest : decResting s.dec.st = true)
    (hroom : bytes.length < 2 ^ s.params.pw) (hresult : decodeText bytes = .ok out) (seen : Watch) :
    (∃ t, run (bytes.length + 2) s = .next t ∧ t.encOut = s.encOut ∧
      t.decOut = s.decOut ++ out.map .byte ++ [.status .ok] ∧ t.dec.status = .ok) ∧
    watch (bytes.length + 2) s seen = { seen with bytes := out, decoded := seen.decoded ++ [.ok out] } := by
  rw [← List.append_nil (operationEvents s.params.lw .decIn bytes)] at hhost
  have hseen := watch_operation hhost (consumes_of_decodeText_ok hresult hrest hroom 0 0) seen
  have hbytes : decodedBytes (out.map .byte ++ [.status .ok]) = out := by
    rw [decodedBytes_append, decodedBytes_bytes]
    exact List.append_nil out
  rw [hbytes] at hseen
  exact ⟨⟨_, run_of_decodeText_ok hhost hrest hroom hresult, rfl, rfl, rfl⟩, hseen⟩

/-- Settles O53: the run of O50 and then DEC's run on the text, whose result is the bytes by O52; and what is seen along
each of the two. -/
theorem hardwareRoundTrip : Obligations.HardwareRoundTrip := by
  intro s v hwf hencRest hdecRest hlegal hroom hhost k
  have hresult := decodeOfEncodeIsIdentity s.params.lw s.encCfgI v hlegal
  have hencRun := encodeProgramComputesEncode s v _ hwf hencRest hlegal hhost
  have hencSeen := watch_encOperation hhost hwf hencRest hlegal .start
  rw [Watch.seeEnc, Watch.start, cutTexts_chars_finish] at hencSeen
  have hseen := watch_add_of_next ((encodeText s.encCfgI v).length + 2) .start hencRun
  obtain ⟨⟨t, hdecRun, hencOut, hdecOut, hstatus⟩, hdecSeen⟩ := run_and_watch_of_decodeText_ok
    (s := { s with
      enc := { EncRegs.reset s.params.lw with st := .done, cfg := s.encCfgI },
      encOut := s.encOut ++ (encodeText s.encCfgI v).map .char ++ [.finish],
      host := operationEvents s.params.lw .decIn (encodeText s.encCfgI v) })
    rfl hdecRest hroom hresult (watch (v.length + 2) s .start)
  rw [hdecSeen, Watch.start, hencSeen] at hseen
  refine ⟨⟨t, (encodeText s.encCfgI v).map .char ++ [.finish], (run_add_of_next _ hencRun).trans hdecRun,
    hencOut.trans (List.append_assoc ..), ?_, hdecOut, hstatus⟩, congrArg Watch.texts hseen,
    congrArg Watch.decoded hseen⟩
  rw [encodedText_append, encodedText_chars]
  exact List.append_nil _

end Sys2Proof.Machine
end

section
/-! PROOFS. Which steps are refused, and that the others complete (spec/60_exceptions.md R150, R153, R157, R160): an
instruction is refused for the reason `refusalOf` lists, and for no other, unit by unit. -/

namespace Sys2Proof.Machine

/-! ### The encoder in RUN -/

theorem exists_encDataUnit_of_run {lw : Nat} {r : EncRegs lw} (h : r.st = .run) (b : Byte) :
    ∃ r' out, encDataUnit b r = .ok (r', out) ∧ r'.st = .run := by
  cases hb : r.bcnt with
  | zero => exact ⟨_, _, encDataUnit_first h hb, h⟩
  | one => exact ⟨_, _, encDataUnit_second h hb, h⟩
  | two => exact ⟨_, _, encDataUnit_third b r h hb, h⟩

/-- Settles O40: in RUN both unit functions answer registers, whatever the bytes held; `putEnc` leaves DEC alone. -/
theorem encoderRaisesNoError : Obligations.EncoderRaisesNoError := by
  intro s b ignored hrun
  obtain ⟨r, out, hunit, hst⟩ := exists_encDataUnit_of_run hrun b
  exact ⟨⟨r, out, runEnc_ok hunit, hst⟩, ⟨_, _, runEnc_ok (encEndUnit_of_run hrun), rfl⟩⟩

/-! ### The listed refusals -/

/-- The instruction is refused for the listed reason, and completes when none is listed (R150, R157). -/
def AnswersAsListed (i : Instr) (s : State) : Prop :=
  match refusalOf i s with
  | some why => exec i s = .refused why
  | none => ∃ t, exec i s = .next t

/-- The states in which a decode operation is open (R116). -/
theorem not_decResting_iff (st : DecSt) :
    ¬ decResting st = true ↔ (st = .accumulating ∨ st = .terminatedByPad) ∨ st = .failed := by
  cases st <;> decide

section
variable {i : Instr} {s : State}

theorem answersAsListed_of_refused {why : Refusal} (hlisted : refusalOf i s = some why)
    (hexec : exec i s = .refused why) : AnswersAsListed i s := by
  simpa only [AnswersAsListed, hlisted] using hexec

theorem answersAsListed_of_next {t : State} (hlisted : refusalOf i s = none) (hexec : exec i s = .next t) :
    AnswersAsListed i s := by
  simpa only [AnswersAsListed, hlisted] using ⟨t, hexec⟩

theorem refusalOf_of_decDataByte {c : Byte} (h : decDataByte i = some c) (s : State) :
    refusalOf i s =
      if decResting s.dec.st then some .protocolViolation
      else if s.dec.st ≠ .failed ∧ s.dec.pos = BitVec.allOnes s.params.pw then some .positionOverflow
      else none := by
  cases i <;> cases h <;> rfl

/-- A DATA instruction of `dec_in`: the tests of DataPrologue (R115), in its order. -/
theorem answersAsListed_of_decDataByte {c : Byte} (h : decDataByte i = some c) : AnswersAsListed i s := by
  obtain ⟨⟨hresting, hfailed, hfull⟩, hroom⟩ := dataPrologueOfEveryClass i c s h
  have hlisted := refusalOf_of_decDataByte h s
  by_cases hrest : decResting s.dec.st = true
  · exact answersAsListed_of_refused (hlisted.trans (if_pos hrest)) (hresting ((decResting_iff _).1 hrest))
  rw [if_neg hrest] at hlisted
  rcases (not_decResting_iff _).1 hrest with hscan | hst
  · have hst : s.dec.st ≠ .failed := by rcases hscan with hst | hst <;> simp [hst]
    by_cases hlast : s.dec.pos = BitVec.allOnes s.params.pw
    · exact answersAsListed_of_refused (hlisted.trans (if_pos ⟨hst, hlast⟩))
        (hfull hscan ((eq_allOnes_iff _).1 hlast))
    · obtain ⟨r, out, hexec, -⟩ := hroom hscan (mt (eq_allOnes_iff _).2 hlast)
      exact answersAsListed_of_next (hlisted.trans (if_neg fun hboth => hlast hboth.2)) hexec
  · exact answersAsListed_of_next (hlisted.trans (if_neg fun hboth => hboth.1 hst)) (hfailed hst)

theorem answersAsListed_encStart (x : Byte) : AnswersAsListed (.encStart x) s := by
  by_cases hst : s.enc.st = .run
  · exact answersAsListed_of_refused (if_pos hst) (runEnc_eq_refused.2 (encStartUnit_of_run hst))
  by_cases hcfg : cfgLegal s.encCfgI = true
  · exact answersAsListed_of_next ((if_neg hst).trans (if_pos hcfg)) (runEnc_ok (encStartUnit_of_legal hst hcfg))
  · exact answersAsListed_of_refused ((if_neg hst).trans (if_neg hcfg))
      (runEnc_eq_refused.2 (encStartUnit_of_illegal hst hcfg))

theorem answersAsListed_encData (b : Byte) : AnswersAsListed (.encData b) s := by
  by_cases hst : s.enc.st = .run
  · obtain ⟨r, out, hunit, -⟩ := exists_encDataUnit_of_run hst b
    exact answersAsListed_of_next (if_pos hst) (runEnc_ok hunit)
  · exact answersAsListed_of_refused (if_neg hst) (runEnc_eq_refused.2 (encDataUnit_of_ne_run hst))

theorem answersAsListed_encEnd (x : Byte) : AnswersAsListed (.encEnd x) s := by
  by_cases hst : s.enc.st = .run
  · exact answersAsListed_of_next (if_pos hst) (runEnc_ok (encEndUnit_of_run hst))
  · exact answersAsListed_of_refused (if_neg hst) (runEnc_eq_refused.2 (encEndUnit_of_ne_run hst))

theorem answersAsListed_decStart (x : Byte) : AnswersAsListed (.decStart x) s := by
  by_cases hrest : decResting s.dec.st = true
  · exact answersAsListed_of_next (if_pos hrest) (runDec_ok (decStartUnit_of_resting ((decResting_iff _).1 hrest)))
  · exact answersAsListed_of_refused (if_neg hrest)
      (runDec_eq_refused.2 (decStartUnit_of_open (or_assoc.1 ((not_decResting_iff _).1 hrest))))

theorem answersAsListed_decEnd (x : Byte) : AnswersAsListed (.decEnd x) s := by
  by_cases hrest : decResting s.dec.st = true
  · exact answersAsListed_of_refused (if_pos hrest)
      (runDec_eq_refused.2 (decEndUnit_of_resting ((decResting_iff _).1 hrest)))
  · rcases (not_decResting_iff _).1 hrest with hscan | hst
    · exact answersAsListed_of_next (if_neg hrest) (runDec_ok (decEndUnit_of_scanning hscan))
    · exact answersAsListed_of_next (if_neg hrest) (runDec_ok (decEndUnit_of_failed hst))

end

/-- Settles O39: START, DATA and END of each unit; the eleven classes of DATA on `dec_in` have one prologue. -/
theorem refusedExactlyAsListed : Obligations.RefusedExactlyAsListed := by
  intro i s
  change AnswersAsListed i s
  cases i with
  | encStart x => exact answersAsListed_encStart x
  | encData b => exact answersAsListed_encData b
  | encEnd x => exact answersAsListed_encEnd x
  | decStart x => exact answersAsListed_decStart x
  | decEnd x => exact answersAsListed_decEnd x
  | _ => exact answersAsListed_of_decDataByte rfl

end Sys2Proof.Machine
end

section
/-! PROOFS. FAILED and the way out of it (spec/60_exceptions.md R155, spec/41_decoder.md R113, R115). -/

namespace Sys2Proof.Machine

/-- Settles O32: DEC in FAILED consumes the bytes without effect, and END only closes it. -/
theorem failedDrainsUntilEnd : Obligations.FailedDrainsUntilEnd := by
  intro s bytes ignored rest hfailed hhost
  have hbytes := consumes_failed hfailed bytes
  have hend : Consumes decTokenUnit s.dec [mkToken 0b10 ignored] (closeDec s.dec) [] :=
    .single ((decTokenUnit_end ignored s.dec).trans (decEndUnit_of_failed hfailed))
  constructor
  · have hrun := run_decTokens (by simpa [Function.comp_def, tokenEvent] using hhost) hbytes
    simpa using hrun
  · have hrun := run_decTokens (rest := rest) (by simpa [Function.comp_def, tokenEvent] using hhost) (hbytes.append hend)
    simpa [closeDec] using hrun

end Sys2Proof.Machine
end

section
/-! PROOFS. The STATUS token of a decoder step (spec/60_exceptions.md R150 to R152, spec/41_decoder.md R113, R114): a step
emits bytes and then at most one STATUS token; which one is a relation with one case for each kind of step. -/

namespace Sys2Proof.Machine

/-- The byte is an error in the state: by its class before the first `=`, by what may follow a `=` after it (R151). -/
def ByteFails (st : DecSt) (c : Byte) : Prop := ∃ padded, st = scanSt padded ∧ byteOffends padded c = true

/-- The STATUS code a completing step of `dec_in` emits, if any, from the registers `r` before it; `new` is `DEC_STATUS`
after it (R113, R150). -/
inductive StatusEffect {pw : Nat} (r : DecRegs pw) : Instr → (new : DecStatus) → Option DecStatus → Prop
  | opened (ignored : Byte) (new : DecStatus) : StatusEffect r (.decStart ignored) new none
  | passed {i : Instr} {c : Byte} (hi : decDataByte i = some c) (hc : ¬ ByteFails r.st c) (new : DecStatus) :
      StatusEffect r i new none
  | failedByte {i : Instr} {c : Byte} (hi : decDataByte i = some c) (hc : ByteFails r.st c) :
      StatusEffect r i .invalidByte (some .invalidByte)
  | failedLength (ignored : Byte) (hst : r.st = .accumulating ∨ r.st = .terminatedByPad) (hmod : r.mod = 1) :
      StatusEffect r (.decEnd ignored) .invalidLength (some .invalidLength)
  | recovered (ignored : Byte) (hst : r.st = .accumulating ∨ r.st = .terminatedByPad) (hmod : r.mod ≠ 1) :
      StatusEffect r (.decEnd ignored) .ok (some .ok)
  | closed (ignored : Byte) (hst : r.st = .failed) (new : DecStatus) : StatusEffect r (.decEnd ignored) new none

/-- What a step with the STATUS code `code` emits: bytes, and then that token. -/
def BytesThenStatus (out : List DecOut) (code : Option DecStatus) : Prop :=
  ∃ bytes : List Byte, out = bytes.map .byte ++ code.toList.map .status

theorem byteFails_iff {st : DecSt} {c : Byte} :
    ByteFails st c ↔
      (st = .accumulating ∧ isListedInvalid c = true) ∨
      (st = .terminatedByPad ∧ c ≠ 0x3D ∧ c ≠ 0x0D ∧ c ≠ 0x0A) := by
  simp [ByteFails, scanSt, byteOffends, and_assoc]

theorem exists_scanSt_eq {st : DecSt} (h : st = .accumulating ∨ st = .terminatedByPad) :
    ∃ padded, st = scanSt padded := by
  rcases h with h | h
  · exact ⟨false, h⟩
  · exact ⟨true, h⟩

theorem scanSt_injective : Function.Injective scanSt := by decide

theorem byteFails_scanSt_iff {padded : Bool} {c : Byte} :
    ByteFails (scanSt padded) c ↔ byteOffends padded c = true := by
  simp [ByteFails, scanSt_injective.eq_iff]

section
variable {out : List DecOut} {code : Option DecStatus}

theorem bytesThenStatus_bytes (bytes : List Byte) : BytesThenStatus (bytes.map .byte) none :=
  ⟨bytes, (List.append_nil _).symm⟩

theorem BytesThenStatus.status_mem_iff (h : BytesThenStatus out code) (which : DecStatus) :
    DecOut.status which ∈ out ↔ code = some which := by
  obtain ⟨bytes, rfl⟩ := h
  simp

theorem BytesThenStatus.countP_le_one (h : BytesThenStatus out code) : out.countP isStatusToken ≤ 1 := by
  obtain ⟨bytes, rfl⟩ := h
  have hbytes : (bytes.map DecOut.byte).countP isStatusToken = 0 := by simp [isStatusToken]
  rw [List.countP_append, hbytes]
  cases code with
  | none => decide
  | some which => simp [isStatusToken]

end

section
variable {pw : Nat} {r r' : DecRegs pw} {i : Instr} {c : Byte} {out : List DecOut} {new : DecStatus}
  {code : Option DecStatus}

/-! ### Which code it is -/

theorem StatusEffect.eq_invalidByte_iff (h : StatusEffect r i new code) :
    code = some .invalidByte ↔ ∃ c, decDataByte i = some c ∧ ByteFails r.st c := by
  cases h with
  | opened | closed | failedLength | recovered => simp [decDataByte]
  | passed hi hc => simp [hi, hc]
  | failedByte hi hc => simp [hi, hc]

theorem not_decEnd_of_decDataByte (hi : decDataByte i = some c) : ¬ ∃ ignored, i = .decEnd ignored := by
  rintro ⟨ignored, rfl⟩
  cases hi

theorem StatusEffect.eq_invalidLength_iff (h : StatusEffect r i new code) :
    code = some .invalidLength ↔
      (∃ ignored, i = .decEnd ignored) ∧ (r.st = .accumulating ∨ r.st = .terminatedByPad) ∧ r.mod = 1 := by
  cases h with
  | opened => simp
  | closed _ hst => simp [hst]
  | passed hi _ => simp [not_decEnd_of_decDataByte hi]
  | failedByte hi _ => simp [not_decEnd_of_decDataByte hi]
  | failedLength _ hst hmod => simp [hst, hmod]
  | recovered _ _ hmod => exact ⟨nofun, fun ⟨_, _, hone⟩ => absurd hone hmod⟩

theorem StatusEffect.eq_new {which : DecStatus} (h : StatusEffect r i new code) (hcode : code = some which) :
    which = new ∧ which ≠ .none := by
  cases h with
  | opened | passed | closed => cases hcode
  | failedByte | failedLength | recovered =>
    cases hcode
    exact ⟨rfl, nofun⟩

/-! ### What a step emits -/

theorem bytesThenStatus_accumulate (v : Sextet) (r : DecRegs pw) : BytesThenStatus (accumulate v r).2 none := by
  by_cases hmod : r.mod = 3
  · rw [accumulate_of_eq hmod]
    exact bytesThenStatus_bytes [_, _, _]
  · rw [accumulate_of_ne hmod]
    exact bytesThenStatus_bytes []

/-- A byte that is no error in a scanning state: nothing but bytes is emitted. -/
theorem bytesThenStatus_of_not_byteOffends {padded : Bool} (hst : r.st = scanSt padded)
    (hpos : r.pos ≠ BitVec.allOnes pw) (hc : ¬ byteOffends padded c = true)
    (h : decTokenUnit (mkToken 0b01 c) r = .ok (r', out)) : BytesThenStatus out none := by
  have hscan : r.st = .accumulating ∨ r.st = .terminatedByPad := hst ▸ scanSt_scanning padded
  rcases byteOffends_or_passed padded c with herror | ⟨rfl, v, hvalue⟩ | hbreak | rfl
  · exact absurd herror hc
  · rw [decTokenUnit_value hvalue, dataCharacter, dataPrologue_accumulating hst hpos] at h
    cases h
    exact bytesThenStatus_accumulate v r
  · rw [decTokenUnit_break hbreak, skippedByte_of_scanning hscan hpos] at h
    cases h
    exact bytesThenStatus_bytes []
  · rw [decTokenUnit_pad, decPadUnit_of_scanning hscan hpos] at h
    cases h
    exact bytesThenStatus_bytes []

/-- A DATA step that completes drains a byte in FAILED, or has room for it in a scanning state. -/
theorem DataEffect.drained_or_scanning (heffect : DataEffect c r r' out) :
    (r.st = .failed ∧ out = []) ∨ ∃ padded, r.st = scanSt padded ∧ r.pos ≠ BitVec.allOnes pw := by
  cases heffect with
  | drained hst => exact .inl ⟨hst, rfl⟩
  | accumulated _ hst hpos | padded hst hpos => exact .inr ⟨false, hst, hpos⟩
  | skipped hst hpos | rejected hst hpos =>
    obtain ⟨padded, hst⟩ := exists_scanSt_eq hst
    exact .inr ⟨padded, hst, hpos⟩

theorem exists_statusEffect_of_data (hi : decDataByte i = some c) (hwf : i.wf = true)
    (h : decUnitOf i r = .ok (r', out)) : ∃ code, BytesThenStatus out code ∧ StatusEffect r i r'.status code := by
  have heffect : DataEffect c r r' out := (decUnitOf_effect (port_of_decDataByte hi) h).dataEffect hi
  have htoken : decTokenUnit (mkToken 0b01 c) r = .ok (r', out) := by
    rw [decTokenUnit_data, (wf_iff_listedClass hi).1 hwf, h]
  rcases heffect.drained_or_scanning with ⟨hst, rfl⟩ | ⟨padded, hst, hpos⟩
  · exact ⟨none, bytesThenStatus_bytes [], .passed hi (by simp [byteFails_iff, hst]) _⟩
  · have hfails : ByteFails r.st c ↔ byteOffends padded c = true := hst ▸ byteFails_scanSt_iff
    by_cases hc : byteOffends padded c = true
    · rw [decTokenUnit_offends hst hpos hc] at htoken
      cases htoken
      exact ⟨some .invalidByte, ⟨[], rfl⟩, .failedByte hi (hfails.2 hc)⟩
    · exact ⟨none, bytesThenStatus_of_not_byteOffends hst hpos hc htoken, .passed hi (mt hfails.1 hc) _⟩

theorem finalize_of_mod_ne_one (hmod : r.mod ≠ 1) : ∃ bytes, finalize r = finishOk bytes r := by
  rcases mod_cases r.mod with h | h | h | h
  · exact ⟨_, finalize_of_mod_zero h⟩
  · exact absurd h hmod
  · exact ⟨_, finalize_of_mod_two h⟩
  · exact ⟨_, finalize_of_mod_three h⟩

theorem exists_statusEffect_of_finalize (ignored : Byte) (hst : r.st = .accumulating ∨ r.st = .terminatedByPad) :
    ∃ code, BytesThenStatus (finalize r).2 code ∧
      StatusEffect r (.decEnd ignored) (closeDec (finalize r).1).status code := by
  by_cases hmod : r.mod = 1
  · rw [finalize_of_mod_one hmod]
    exact ⟨_, ⟨[], rfl⟩, .failedLength ignored hst hmod⟩
  · obtain ⟨bytes, hfinalize⟩ := finalize_of_mod_ne_one hmod
    rw [hfinalize]
    exact ⟨_, ⟨bytes, rfl⟩, .recovered ignored hst hmod⟩

theorem exists_statusEffect (hport : i.port = .decIn) (hwf : i.wf = true) (h : decUnitOf i r = .ok (r', out)) :
    ∃ code, BytesThenStatus out code ∧ StatusEffect r i r'.status code := by
  cases decUnitOf_effect hport h with
  | start ignored _ => exact ⟨none, bytesThenStatus_bytes [], .opened ignored _⟩
  | data hi _ => exact exists_statusEffect_of_data hi hwf h
  | finished ignored hst => exact exists_statusEffect_of_finalize ignored hst
  | closed ignored hst => exact ⟨none, bytesThenStatus_bytes [], .closed ignored hst _⟩

end

/-- Settles O31: the step's STATUS token is the one of its `StatusEffect`, and the cases of that relation are those
R150 lists. -/
theorem errorsAriseOnlyAsListed : Obligations.ErrorsAriseOnlyAsListed := by
  intro i s r out hwf hport hexec
  rw [exec_of_decIn hport] at hexec
  obtain ⟨r', out', hunit, hnext⟩ := runDec_eq_next.1 hexec
  obtain ⟨rfl, rfl⟩ := putDec_inj s (r := r) (out := out) hnext
  obtain ⟨code, hout, heffect⟩ := exists_statusEffect hport hwf hunit
  refine ⟨?_, ?_, fun which hwhich => ?_, hout.countP_le_one⟩
  · simp only [hout.status_mem_iff, heffect.eq_invalidByte_iff, byteFails_iff]
  · rw [hout.status_mem_iff, heffect.eq_invalidLength_iff]
  · exact heffect.eq_new ((hout.status_mem_iff which).1 hwhich)

end Sys2Proof.Machine
end

section
/-! PROOFS. The bounds on the output list of a step (spec/70_reset_and_hazards.md R176): how many tokens each kind of
step of either unit emits. -/

namespace Sys2Proof.Machine

/-! ### The steps of ENC -/

section
variable {lw : Nat} {cfg : BitVec (4 + lw)} {r r' : EncRegs lw} {b x : Byte} {out : List EncOut}

theorem EncEffect.length_of_start (heffect : EncEffect cfg r (.encStart x) r' out) : out.length = 0 := by
  cases heffect with
  | start => rfl

theorem EncEffect.length_of_data_incomplete (heffect : EncEffect cfg r (.encData b) r' out) (hb : r.bcnt ≠ .two) :
    out.length = 0 := by
  cases heffect with
  | first | second => rfl
  | third _ _ htwo => exact absurd htwo hb

/-- A full group is four characters, after a newline sequence of at most two (R81, R83). -/
theorem EncEffect.length_of_data_complete (heffect : EncEffect cfg r (.encData b) r' out) (hb : r.bcnt = .two) :
    out.length = 4 ∨ out.length = 5 ∨ out.length = 6 := by
  cases heffect with
  | first _ _ hzero => rw [hb] at hzero; cases hzero
  | second _ _ hone => rw [hb] at hone; cases hone
  | third =>
    have hlead := length_tokensBefore_le (cfg := r.cfg) r.lcnt
    rw [List.length_append, length_groupTokens]
    omega

theorem emitTail_of_zero (hb : r.bcnt = .zero) : emitTail r = [] := by
  rw [emitTail_eq, hb]

theorem two_le_length_emitTail (hb : r.bcnt ≠ .zero) : 2 ≤ (emitTail r).length := by
  rw [emitTail_eq]
  cases h : r.bcnt with
  | zero => exact absurd h hb
  | one | two =>
    simp only [List.length_append, List.length_take, length_groupTokens]
    omega

theorem EncEffect.out_of_end (heffect : EncEffect cfg r (.encEnd x) r' out) : out = emitTail r ++ [.finish] := by
  cases heffect with
  | finish => rfl

end

/-! ### The steps of DEC -/

section
variable {pw : Nat} {r r' : DecRegs pw} {c x : Byte} {out : List DecOut}

theorem DecEffect.length_of_start (heffect : DecEffect r (.decStart x) r' out) : out.length = 0 := by
  cases heffect with
  | start => rfl
  | data hi _ => cases hi

/-- A DATA step emits the bytes of a complete group (R101), the STATUS token of a rejected byte (R114), or nothing. -/
theorem DataEffect.out_cases (heffect : DataEffect c r r' out) :
    out = [] ∨ (∃ b0 b1 b2, out = [.byte b0, .byte b1, .byte b2]) ∨ out = [.status .invalidByte] := by
  cases heffect with
  | drained | skipped | padded => exact .inl rfl
  | rejected => exact .inr (.inr rfl)
  | accumulated v =>
    by_cases hmod : r.mod = 3
    · rw [accumulate_of_eq hmod]
      exact .inr (.inl ⟨_, _, _, rfl⟩)
    · rw [accumulate_of_ne hmod]
      exact .inl rfl

/-- The finalization emits at most two bytes, and then a STATUS token (R113). -/
theorem length_finalize (r : DecRegs pw) : 1 ≤ (finalize r).2.length ∧ (finalize r).2.length ≤ 3 := by
  rcases mod_cases r.mod with hmod | hmod | hmod | hmod
  · rw [finalize_of_mod_zero hmod]
    simp [finishOk]
  · rw [finalize_of_mod_one hmod]
    simp [failLength]
  · rw [finalize_of_mod_two hmod]
    simp [finishOk]
  · rw [finalize_of_mod_three hmod]
    simp [finishOk]

theorem DecEffect.length_of_end_failed (heffect : DecEffect r (.decEnd x) r' out) (hst : r.st = .failed) :
    out.length = 0 := by
  cases heffect with
  | finished _ hscan => rcases hscan with h | h <;> rw [hst] at h <;> cases h
  | closed => rfl
  | data hi _ => cases hi

theorem DecEffect.length_of_end_scanning (heffect : DecEffect r (.decEnd x) r' out) (hst : r.st ≠ .failed) :
    1 ≤ out.length ∧ out.length ≤ 3 := by
  cases heffect with
  | finished => exact length_finalize r
  | closed _ hfailed => exact absurd hfailed hst
  | data hi _ => cases hi

end

/-! ### The instructions -/

section
variable {i : Instr} {s : State}

theorem encEffect_of_exec {r : EncRegs s.params.lw} {out : List EncOut} (hport : i.port = .encIn)
    (h : exec i s = .next (s.putEnc r out)) : EncEffect s.encCfgI s.enc i r out := by
  obtain ⟨r', out', heffect, hnext⟩ := exec_encIn_effect hport h
  obtain ⟨rfl, rfl⟩ := putEnc_inj s hnext
  exact heffect

theorem decEffect_of_exec {r : DecRegs s.params.pw} {out : List DecOut} (hport : i.port = .decIn)
    (h : exec i s = .next (s.putDec r out)) : DecEffect s.dec i r out := by
  obtain ⟨r', out', heffect, hnext⟩ := exec_decIn_effect hport h
  obtain ⟨rfl, rfl⟩ := putDec_inj s hnext
  exact heffect

end

/-- Settles O41: a clause for each kind of step, from the effect of the instruction on its unit. -/
theorem outputBoundsPerStep : Obligations.OutputBoundsPerStep := by
  constructor
  · intro i s r out hexec
    refine ⟨?_, ?_, ?_, ?_, ?_⟩
    · rintro x rfl
      exact (encEffect_of_exec rfl hexec).length_of_start
    · rintro b rfl hb
      exact (encEffect_of_exec rfl hexec).length_of_data_incomplete hb
    · rintro b rfl hb
      exact (encEffect_of_exec rfl hexec).length_of_data_complete hb
    · rintro x rfl hb
      rw [(encEffect_of_exec rfl hexec).out_of_end, emitTail_of_zero hb]
      rfl
    · rintro x rfl hb
      have hlow := two_le_length_emitTail hb
      have hhigh := length_emitTail_le s.enc
      rw [(encEffect_of_exec rfl hexec).out_of_end, List.length_append, List.length_singleton]
      omega
  · intro i s r out hexec
    refine ⟨?_, fun c hc => ?_, ?_, ?_⟩
    · rintro x rfl
      exact (decEffect_of_exec rfl hexec).length_of_start
    · exact ((decEffect_of_exec (port_of_decDataByte hc) hexec).dataEffect hc).out_cases
    · rintro x rfl hst
      exact (decEffect_of_exec rfl hexec).length_of_end_failed hst
    · rintro x rfl hst
      exact (decEffect_of_exec rfl hexec).length_of_end_scanning hst

end Sys2Proof.Machine
end

section
/-! PROOFS. The duties of the host (spec/70_reset_and_hazards.md R172): while they are kept, the block is in the state
they track, so no token is refused (spec/60_exceptions.md R160, R164). -/

namespace Sys2Proof.Machine

/-! ### What the duties ask of each event -/

section
variable {lw pw : Nat} {d : HostDuty lw} {x : Byte} {rest : List (HostEvent lw)}

theorem keepsDuties_encStart : keepsDuties pw d (.encToken (mkToken 0b00 x) :: rest) = true ↔
    d.encOpen = false ∧ cfgLegal d.cfg = true ∧ keepsDuties pw { d with encOpen := true } rest = true := by
  simp [keepsDuties, and_assoc]

theorem keepsDuties_encData : keepsDuties pw d (.encToken (mkToken 0b01 x) :: rest) = true ↔
    d.encOpen = true ∧ keepsDuties pw d rest = true := by
  simp [keepsDuties]

theorem keepsDuties_encEnd : keepsDuties pw d (.encToken (mkToken 0b10 x) :: rest) = true ↔
    d.encOpen = true ∧ keepsDuties pw { d with encOpen := false } rest = true := by
  simp [keepsDuties]

theorem not_keepsDuties_encReserved : ¬ keepsDuties pw d (.encToken (mkToken 0b11 x) :: rest) = true := by
  simp [keepsDuties]

theorem keepsDuties_decStart : keepsDuties pw d (.decToken (mkToken 0b00 x) :: rest) = true ↔
    d.decCount = none ∧ keepsDuties pw { d with decCount := some 0 } rest = true := by
  simp [keepsDuties]

theorem keepsDuties_decData : keepsDuties pw d (.decToken (mkToken 0b01 x) :: rest) = true ↔
    ∃ n, d.decCount = some n ∧ n + 1 ≤ 2 ^ pw - 1 ∧ keepsDuties pw { d with decCount := some (n + 1) } rest = true := by
  cases h : d.decCount <;> simp [keepsDuties, h]

theorem keepsDuties_decEnd : keepsDuties pw d (.decToken (mkToken 0b10 x) :: rest) = true ↔
    (∃ n, d.decCount = some n) ∧ keepsDuties pw { d with decCount := none } rest = true := by
  simp [keepsDuties, Option.isSome_iff_exists]

theorem not_keepsDuties_decReserved : ¬ keepsDuties pw d (.decToken (mkToken 0b11 x) :: rest) = true := by
  simp [keepsDuties]

end

/-! ### One token of each unit -/

/-- DEC is where the count of DATA tokens of the open operation says: at rest without one, else in an operation whose
position is at most the count. -/
def CountTracks {pw : Nat} (r : DecRegs pw) : Option Nat → Prop
  | none => decResting r.st = true
  | some n => ¬ decResting r.st = true ∧ r.pos.toNat ≤ n

/-- A token of `enc_in` that the duties allow is not refused, and ENC stays where they track it. -/
theorem exists_encTokenUnit_of_keepsDuties {lw pw : Nat} {d : HostDuty lw} {r : EncRegs lw} {w : Token}
    {rest : List (HostEvent lw)} (hopen : d.encOpen = true ↔ r.st = .run)
    (hduty : keepsDuties pw d (.encToken w :: rest) = true) :
    ∃ r' out isOpen, encTokenUnit d.cfg w r = .ok (r', out) ∧ (isOpen = true ↔ r'.st = .run) ∧
      keepsDuties pw { d with encOpen := isOpen } rest = true := by
  obtain ⟨kind, data, rfl⟩ : ∃ kind data, w = mkToken kind data := ⟨_, _, (mkToken_kind_data w).symm⟩
  rcases mod_cases kind with rfl | rfl | rfl | rfl
  · obtain ⟨hclosed, hlegal, hlater⟩ := keepsDuties_encStart.1 hduty
    have hrest : r.st ≠ .run := fun hrun => by simp [hopen.2 hrun] at hclosed
    exact ⟨_, _, true, (encTokenUnit_start _ data r).trans (encStartUnit_of_legal hrest hlegal), by simp, hlater⟩
  · obtain ⟨hisOpen, hlater⟩ := keepsDuties_encData.1 hduty
    obtain ⟨r', out, hunit, hrun⟩ := exists_encDataUnit_of_run (hopen.1 hisOpen) data
    exact ⟨r', out, d.encOpen, (encTokenUnit_data _ data r).trans hunit, by simp [hisOpen, hrun], hlater⟩
  · obtain ⟨hisOpen, hlater⟩ := keepsDuties_encEnd.1 hduty
    exact ⟨_, _, false, (encTokenUnit_end _ data r).trans (encEndUnit_of_run (hopen.1 hisOpen)), by simp, hlater⟩
  · exact absurd hduty not_keepsDuties_encReserved

section
variable {pw : Nat} {r r' : DecRegs pw} {i : Instr} {c : Byte} {out : List DecOut}

/-- No DATA step ends an operation (R116). -/
theorem DataEffect.not_decResting (heffect : DataEffect c r r' out) : ¬ decResting r'.st = true := by
  cases heffect with
  | drained hst => simp [decResting, hst]
  | accumulated v hst _ =>
    have hkept : (accumulate v r).1.st = r.st := (accumulate_frame v r).1
    simp [advance, decResting, hkept, hst]
  | skipped hst _ => rcases hst with hst | hst <;> simp [advance, decResting, hst]
  | padded => simp [advance, decResting]
  | rejected => simp [failByte, decResting]

/-- In an open operation that has not used up the count of R19, a DATA step completes and the count tracks it. -/
theorem exists_dataStep_of_countTracks {n : Nat} (hi : decDataByte i = some c) (htracks : CountTracks r (some n))
    (hn : n + 1 ≤ 2 ^ pw - 1) : ∃ r' out, decUnitOf i r = .ok (r', out) ∧ CountTracks r' (some (n + 1)) := by
  obtain ⟨hisOpen, hpos⟩ := htracks
  have hunit : ∃ r' out, decUnitOf i r = .ok (r', out) := by
    rcases (not_decResting_iff _).1 hisOpen with hscan | hfailed
    · exact exists_decUnitOf_eq_ok hi hscan (pos_ne_allOnes (by omega))
    · obtain ⟨inAcc, inTbp, h⟩ := exists_dataPrologue hi r
      exact ⟨r, [], h.trans (dataPrologue_failed hfailed)⟩
  obtain ⟨r', out, hunit⟩ := hunit
  have heffect := (decUnitOf_effect (port_of_decDataByte hi) hunit).dataEffect hi
  have hpos' := heffect.toNat_pos
  exact ⟨r', out, hunit, heffect.not_decResting, by omega⟩

theorem exists_decEndUnit_of_open (hisOpen : ¬ decResting r.st = true) :
    ∃ r' out, decEndUnit r = .ok (r', out) ∧ r'.st = .done := by
  rcases (not_decResting_iff _).1 hisOpen with hscan | hfailed
  · exact ⟨_, _, decEndUnit_of_scanning hscan, rfl⟩
  · exact ⟨_, _, decEndUnit_of_failed hfailed, rfl⟩

/-- A token of `dec_in` that the duties allow is not refused, and DEC stays where they track it. -/
theorem exists_decTokenUnit_of_keepsDuties {lw : Nat} {d : HostDuty lw} {w : Token} {rest : List (HostEvent lw)}
    (htracks : CountTracks r d.decCount) (hduty : keepsDuties pw d (.decToken w :: rest) = true) :
    ∃ r' out count, decTokenUnit w r = .ok (r', out) ∧ CountTracks r' count ∧
      keepsDuties pw { d with decCount := count } rest = true := by
  obtain ⟨kind, data, rfl⟩ : ∃ kind data, w = mkToken kind data := ⟨_, _, (mkToken_kind_data w).symm⟩
  rcases mod_cases kind with rfl | rfl | rfl | rfl
  · obtain ⟨hnone, hlater⟩ := keepsDuties_decStart.1 hduty
    rw [hnone] at htracks
    exact ⟨_, _, some 0, (decTokenUnit_start data r).trans (decStartUnit_of_resting ((decResting_iff _).1 htracks)),
      ⟨by simp [decResting], Nat.le_refl 0⟩, hlater⟩
  · obtain ⟨n, hsome, hn, hlater⟩ := keepsDuties_decData.1 hduty
    rw [hsome] at htracks
    obtain ⟨r', out, hunit, htracks'⟩ := exists_dataStep_of_countTracks (decDataByte_listedClass data) htracks hn
    exact ⟨r', out, some (n + 1), (decTokenUnit_data data r).trans hunit, htracks', hlater⟩
  · obtain ⟨⟨n, hsome⟩, hlater⟩ := keepsDuties_decEnd.1 hduty
    rw [hsome] at htracks
    obtain ⟨r', out, hunit, hdone⟩ := exists_decEndUnit_of_open htracks.1
    exact ⟨r', out, none, (decTokenUnit_end data r).trans hunit, (decResting_iff _).2 (.inr hdone), hlater⟩
  · exact absurd hduty not_keepsDuties_decReserved

end

/-! ### The block -/

/-- The block is where the duties `d` track it, and the host keeps them from here on. -/
structure DutiesKept (s : State) (d : HostDuty s.params.lw) : Prop where
  encOpen : d.encOpen = true ↔ s.enc.st = .run
  decCount : CountTracks s.dec d.decCount
  cfg : d.cfg = s.encCfgI
  later : keepsDuties s.params.pw d s.host = true

/-- A host that keeps its duties is not refused by the next step, and keeps them after it. -/
theorem DutiesKept.exists_step {s : State} {d : HostDuty s.params.lw} (hkept : DutiesKept s d) :
    ∃ t, step s = .next t ∧ ∃ d', DutiesKept t d' := by
  obtain ⟨hopen, hcount, hcfg, hlater⟩ := hkept
  cases hhost : s.host with
  | nil => exact ⟨s, step_of_nil hhost, d, hopen, hcount, hcfg, hlater⟩
  | cons e rest =>
    rw [hhost] at hlater
    rw [step_of_cons hhost]
    cases e with
    | encToken w =>
      obtain ⟨r', out, isOpen, hunit, hopen', hlater'⟩ := exists_encTokenUnit_of_keepsDuties hopen hlater
      rw [hcfg] at hunit
      exact ⟨_, (receiveToken_encIn w _).trans (runEnc_ok hunit), { d with encOpen := isOpen }, hopen', hcount, hcfg,
        hlater'⟩
    | decToken w =>
      obtain ⟨r', out, count, hunit, hcount', hlater'⟩ := exists_decTokenUnit_of_keepsDuties hcount hlater
      exact ⟨_, (receiveToken_decIn w _).trans (runDec_ok hunit), { d with decCount := count }, hopen, hcount', hcfg,
        hlater'⟩
    | driveCfg cfg => exact ⟨_, rfl, { d with cfg := cfg }, hopen, hcount, rfl, hlater⟩
    | rst => exact ⟨_, rfl, { d with encOpen := false, decCount := none }, by simp [EncRegs.reset], rfl, hcfg, hlater⟩

theorem DutiesKept.exists_run {s : State} {d : HostDuty s.params.lw} (hkept : DutiesKept s d) (k : Nat) :
    ∃ t, run k s = .next t := by
  induction k generalizing s with
  | zero => exact ⟨s, rfl⟩
  | succ k ih =>
    obtain ⟨u, hstep, d', hkept'⟩ := hkept.exists_step
    rw [run_succ_of_next k hstep]
    exact ih hkept'

/-- Settles O49: with both units at rest the duties start out tracking the block, and every step keeps it so. -/
theorem hostDutiesAvoidEveryRefusal : Obligations.HostDutiesAvoidEveryRefusal := by
  intro s k henc hdec hduty
  have hrest : s.enc.st ≠ .run := (encResting_iff _).1 henc
  have hkept : DutiesKept s { encOpen := false, decCount := none, cfg := s.encCfgI } :=
    ⟨by simp [hrest], hdec, rfl, hduty⟩
  exact hkept.exists_run k

end Sys2Proof.Machine
end

section
/-! PROOFS. A table word placed as the host's next event, and the step that consumes it (spec/opcode_table.json,
spec/30_encoding.md R60, R68 (a)). -/

namespace Sys2Proof.Machine

theorem receiveToken_of_decode_error {p : Port} {w : Token} {e : DecodeError} (h : decode p w = .error e) (s : State) :
    receiveToken p w s = .refused .reservedToken := by
  simp [receiveToken, h]

theorem step_placeToken (s : State) (p : Port) (w : Token) : step (placeToken s p w) = receiveToken p w s :=
  step_of_tokenEvent (placeToken_host s p w)

theorem step_withFetchWord (s : State) (nbits w : Nat) :
    step (s.withFetchWord nbits w) = receiveToken (tableWordPort nbits w) (tableWordToken nbits w) s :=
  step_placeToken s (tableWordPort nbits w) (tableWordToken nbits w)

section
variable {nbits w : Nat}

theorem decodeTableWord_of_decode_ok {i : Instr}
    (h : decode (tableWordPort nbits w) (tableWordToken nbits w) = .ok i) : decodeTableWord nbits w = some i := by
  simp [decodeTableWord, h]

theorem decodeTableWord_of_decode_error {e : DecodeError}
    (h : decode (tableWordPort nbits w) (tableWordToken nbits w) = .error e) : decodeTableWord nbits w = none := by
  simp [decodeTableWord, h]

end

/-- Settles O36: the placed token is the next event, and the step and the table word's decoder read it alike. -/
theorem placedWordRunsNext : Obligations.PlacedWordRunsNext := by
  intro s nbits w
  rw [step_withFetchWord]
  cases hdecode : decode (tableWordPort nbits w) (tableWordToken nbits w) with
  | ok i => rw [receiveToken_of_decode_ok hdecode, decodeTableWord_of_decode_ok hdecode]
  | error e => rw [receiveToken_of_decode_error hdecode, decodeTableWord_of_decode_error hdecode]

end Sys2Proof.Machine
end
